-- ==== Sys2Proof/Word.lean ====
section
/-! DEFINITION. The 32-bit word, CORE's one data unit (00_scope.md R13, 20_memory.md R54), and the byte it is serialised
to outside CORE (R51). -/

namespace Sys2Proof

/-- A word: 32 bits, bit 0 the least significant (R13). Commands, payload beats, response beats and memory words are words. -/
abbrev Word := BitVec 32

/-- A byte; nothing inside CORE is byte-addressed (R51). -/
abbrev Byte := BitVec 8

end Sys2Proof
end

