-- ==== Sys2Proof/Machine/Float.lean ====
section
/-! DEFINITION. Binary32 arithmetic (00_scope.md R14). A value is unpacked into `Fp`, every operation is computed exactly on
integers, and `round` narrows once to nearest, ties to even. Subnormals are kept and nothing is fused. Log entry 10. -/

namespace Sys2Proof.Machine

/-- A binary32 value. A finite magnitude is counted in units of `2^-149`, the least subnormal, so that it is a natural number.
A NaN carries no payload here: no operation of CORE can see one, except by copying a word. -/
inductive Fp where
  | nan
  | inf (neg : Bool)
  | fin (neg : Bool) (mag : Nat)
  deriving DecidableEq, Repr

namespace Fp

/-- The first magnitude that overflows to infinity: `2^128`, in units of `2^-149`. -/
def overflow : Nat := 2 ^ 128 * 2 ^ 149

/-- The value of a binary32 pattern: sign in bit 31, exponent in bits 30:23 with bias 127, fraction in bits 22:0 (R14). -/
def ofWord (w : Word) : Fp :=
  let neg := decide (2 ^ 31 ≤ w.toNat)
  let e := w.toNat / 2 ^ 23 % 2 ^ 8
  let f := w.toNat % 2 ^ 23
  if e = 255 then (if f = 0 then .inf neg else .nan)
  else if e = 0 then .fin neg f
  else .fin neg ((2 ^ 23 + f) * 2 ^ (e - 1))

/-- The exponent and fraction bits of a representable finite magnitude. -/
def magBits (m : Nat) : Nat := (m.log2 - 23) * 2 ^ 23 + m / 2 ^ (m.log2 - 23)

/-- The sign bit, in place. -/
def signBit (neg : Bool) : Nat := if neg then 2 ^ 31 else 0

/-- A quiet NaN with the sign (bit 22) and payload (bits 21:0) of a draw (R14). -/
def quietNaN (q : BitVec 23) : Word :=
  BitVec.ofNat 32 (q.toNat / 2 ^ 22 * 2 ^ 31 + 0x7FC00000 + q.toNat % 2 ^ 22)

/-- The pattern of a value; `q` is the draw that a NaN takes its sign and payload from. -/
def toWord (q : BitVec 23) : Fp → Word
  | .nan => quietNaN q
  | .inf neg => BitVec.ofNat 32 (signBit neg + 0x7F800000)
  | .fin neg m => BitVec.ofNat 32 (signBit neg + magBits m)

/-- The spacing of binary32 values, in units of `2^-149`, in the binade of the real number `num / den`. -/
def spacing (num den : Nat) : Nat := 2 ^ ((num / den).log2 - 23)

/-- The multiple of the spacing nearest to `num / den` units, ties to even. -/
def nearest (num den : Nat) : Nat :=
  let u := spacing num den
  let q := num / (den * u)
  let r := num % (den * u)
  (if den * u < 2 * r ∨ (2 * r = den * u ∧ q % 2 = 1) then q + 1 else q) * u

/-- A magnitude with its sign, infinite when it overflows. -/
def ofMag (neg : Bool) (m : Nat) : Fp := if m < overflow then .fin neg m else .inf neg

/-- The one rounding of every operation: `num / den` units of `2^-149`, to nearest, ties to even (R14). -/
def round (neg : Bool) (num den : Nat) : Fp := ofMag neg (nearest num den)

/-- A magnitude with its sign, as an integer. -/
def signed (neg : Bool) (m : Nat) : Int := if neg then -(m : Int) else m

/-- IEEE 754 addition. An exact zero sum is `-0` only when both operands are negative zeros. -/
def add : Fp → Fp → Fp
  | .nan, _ => .nan
  | _, .nan => .nan
  | .inf a, .inf b => if a = b then .inf a else .nan
  | .inf a, .fin _ _ => .inf a
  | .fin _ _, .inf b => .inf b
  | .fin a m, .fin b k =>
    let x := signed a m + signed b k
    if x = 0 then .fin (a && b) 0 else round (decide (x < 0)) x.natAbs 1

/-- The value with its sign flipped; a NaN stays a NaN. -/
def neg : Fp → Fp
  | .nan => .nan
  | .inf a => .inf (!a)
  | .fin a m => .fin (!a) m

/-- IEEE 754 subtraction: `a - b` is `a + (-b)`. -/
def sub (a b : Fp) : Fp := add a (neg b)

/-- IEEE 754 multiplication; `0 * inf` is a NaN. -/
def mul : Fp → Fp → Fp
  | .nan, _ => .nan
  | _, .nan => .nan
  | .inf a, .inf b => .inf (a ^^ b)
  | .inf a, .fin b k => if k = 0 then .nan else .inf (a ^^ b)
  | .fin a m, .inf b => if m = 0 then .nan else .inf (a ^^ b)
  | .fin a m, .fin b k => round (a ^^ b) (m * k) (2 ^ 149)

/-- IEEE 754 division; `0/0` and `inf/inf` are NaNs, `x/0` is infinite for finite nonzero `x`. -/
def div : Fp → Fp → Fp
  | .nan, _ => .nan
  | _, .nan => .nan
  | .inf _, .inf _ => .nan
  | .inf a, .fin b _ => .inf (a ^^ b)
  | .fin a _, .inf b => .fin (a ^^ b) 0
  | .fin a m, .fin b k =>
    if k = 0 then (if m = 0 then .nan else .inf (a ^^ b)) else round (a ^^ b) (m * 2 ^ 149) k

/-- Where a value that is no NaN stands among the others; the two zeros stand together. -/
def key : Fp → Int
  | .nan => 0
  | .inf a => signed a overflow
  | .fin a m => signed a m

/-- `fgt`: neither operand is a NaN and the first is greater (R14). -/
def gt : Fp → Fp → Bool
  | .nan, _ => false
  | _, .nan => false
  | a, b => decide (key b < key a)

/-- The value is a NaN. -/
def isNaN : Fp → Bool
  | .nan => true
  | .inf _ => false
  | .fin _ _ => false

/-- `+0.0`. -/
def zero : Fp := .fin false 0

/-- `1.0`: `2^149` units. -/
def one : Fp := .fin false (2 ^ 149)

end Fp

/-! The primitive operations of R14 on patterns; `q` is the draw for a NaN result. -/

/-- `fadd` (R14). -/
def fadd (q : BitVec 23) (a b : Word) : Word := ((Fp.ofWord a).add (Fp.ofWord b)).toWord q

/-- `fsub` (R14). -/
def fsub (q : BitVec 23) (a b : Word) : Word := ((Fp.ofWord a).sub (Fp.ofWord b)).toWord q

/-- `fmul` (R14). -/
def fmul (q : BitVec 23) (a b : Word) : Word := ((Fp.ofWord a).mul (Fp.ofWord b)).toWord q

/-- `fdiv` (R14). -/
def fdiv (q : BitVec 23) (a b : Word) : Word := ((Fp.ofWord a).div (Fp.ofWord b)).toWord q

/-- `fgt` (R14). -/
def fgt (a b : Word) : Bool := (Fp.ofWord a).gt (Fp.ofWord b)

/-- `fabs`: bit 31 cleared, also on a NaN (R14). -/
def fabs (a : Word) : Word := a &&& 0x7FFFFFFF#32

/-- A complex value, real and imaginary part (R16). -/
structure Cpx where
  re : Fp
  im : Fp
  deriving DecidableEq, Repr

/-- `cadd` (R16). -/
def Cpx.add (u v : Cpx) : Cpx := { re := u.re.add v.re, im := u.im.add v.im }

/-- `csub` (R16). -/
def Cpx.sub (u v : Cpx) : Cpx := { re := u.re.sub v.re, im := u.im.sub v.im }

/-- `cmul`: four multiplies, one subtract, one add, each rounded (R16). -/
def Cpx.mul (t v : Cpx) : Cpx :=
  { re := (t.re.mul v.re).sub (t.im.mul v.im), im := (t.re.mul v.im).add (t.im.mul v.re) }

end Sys2Proof.Machine
end

