-- ==== Sys2Proof/Syntax.lean ====
section
/-! DEFINITION. The commands of CORE (30_encoding.md R83 to R87), the two command ports (R80) and the assembler's lines
(R91, R92). -/

namespace Sys2Proof

/-- The two command ports (R80). Which port a word arrives on is part of what it means (R86). -/
inductive Port where
  | producer
  | consumer
  deriving DecidableEq, Repr

/-- The ten commands of the opcode map (R86), each with its operands: `imm24` where it has a meaning (R87), and the payload
beats that its single step receives (R85). The payload of `write` is no operand here: its beats are received two at a time by
the frame steps that follow the header step (40_sample_ring.md R110), as log entry 21 says. -/
inductive Instr where
  /-- `P: WRITE count`: `count` stereo frames follow (R110). -/
  | write (count : Nat)
  /-- `C: SNAPSHOT` (R113). -/
  | snapshot
  /-- `C: WINDOW` (R130). -/
  | window
  /-- `C: FFT` (R140). -/
  | fft
  /-- `C: BUCKETIZE` (R161). -/
  | bucketize
  /-- `C: ADVANCE dt` (R175). -/
  | advance (dt : Word)
  /-- `C: FRAME dt` (R190). -/
  | frame (dt : Word)
  /-- `C: BCOUNT` (R160). -/
  | bcount
  /-- `C: LOGPOW re, im` (R159). -/
  | logpow (re im : Word)
  /-- `C: RDBIN j` (R180). -/
  | rdbin (j : Nat)
  deriving DecidableEq, Repr

/-- The port a command is defined on (R86): `WRITE` on the P-port, every other on the C-port. -/
def Instr.port : Instr → Port
  | .write _ => .producer
  | .snapshot => .consumer
  | .window => .consumer
  | .fft => .consumer
  | .bucketize => .consumer
  | .advance _ => .consumer
  | .frame _ => .consumer
  | .bcount => .consumer
  | .logpow _ _ => .consumer
  | .rdbin _ => .consumer

/-- A float literal of the assembler (R91): raw bits, or the decimal `±digits / 10^scale`. -/
inductive FloatLit where
  | bits (w : Word)
  | decimal (neg : Bool) (digits scale : Nat)
  deriving DecidableEq, Repr

/-- One line of the assembler: a command with its whole payload (R91) or a pseudo-instruction (R92). -/
inductive AsmLine where
  | write (frames : List (FloatLit × FloatLit))
  | snapshot
  | window
  | fft
  | bucketize
  | advance (dt : FloatLit)
  | frame (dt : FloatLit)
  | bcount
  | logpow (re im : FloatLit)
  | rdbin (j : Nat)
  | push (l r : FloatLit)
  | silence (n : Nat)
  | pipe (dt : FloatLit)
  deriving DecidableEq, Repr

end Sys2Proof
end

