-- ==== Sys2Proof/WellFormed.lean ====
section
/-! DEFINITION. Which commands and assembler lines can be written down as command words (30_encoding.md R83, R87). -/

namespace Sys2Proof

/-- `imm24` is an unsigned field of 24 bits (R83, R87): counts and bin indices reach 16 777 215. -/
def immLimit : Nat := 2 ^ 24

/-- A command is well formed when its immediate fits `imm24`. `RDBIN j` with `j >= M` is a well-formed word (R89). -/
abbrev Instr.wf : Instr → Prop
  | .write count => count < immLimit
  | .snapshot => True
  | .window => True
  | .fft => True
  | .bucketize => True
  | .advance _ => True
  | .frame _ => True
  | .bcount => True
  | .logpow _ _ => True
  | .rdbin j => j < immLimit

/-- `Instr.wf` as a Bool, for `decide` to run on. -/
def Instr.isWf : Instr → Bool
  | .write count => decide (count < immLimit)
  | .snapshot => true
  | .window => true
  | .fft => true
  | .bucketize => true
  | .advance _ => true
  | .frame _ => true
  | .bcount => true
  | .logpow _ _ => true
  | .rdbin j => decide (j < immLimit)

/-- An assembler line is well formed when its frame count or bin index fits `imm24` (R91). -/
def AsmLine.isWf : AsmLine → Bool
  | .write frames => decide (frames.length < immLimit)
  | .snapshot => true
  | .window => true
  | .fft => true
  | .bucketize => true
  | .advance _ => true
  | .frame _ => true
  | .bcount => true
  | .logpow _ _ => true
  | .rdbin j => decide (j < immLimit)
  | .push _ _ => true
  | .silence n => decide (n < immLimit)
  | .pipe _ => true

end Sys2Proof
end

