-- ==== Sys2Proof/Decode.lean ====
section
/-! DEFINITION. Reading a command from the beats of a port, and writing one as beats: format K (30_encoding.md R83), the length
rule (R85), the opcode map with its reserved words (R86, R88), the serialisation of words to bytes (20_memory.md R51), and the
assembler (R91, R92). -/

namespace Sys2Proof

/-! ## Fields -/

/-- `opcode = w[31:24]` (R83). -/
def opcodeOf (w : Word) : Nat := w.toNat / 2 ^ 24

/-- `imm24 = w[23:0]`, zero-extended (R83, R87). -/
def immOf (w : Word) : Nat := w.toNat % 2 ^ 24

/-- The command word of an opcode and an immediate (R83). -/
def commandWord (opcode imm : Nat) : Word := BitVec.ofNat 32 (opcode * 2 ^ 24 + imm)

/-! ## Decoding -/

/-- What the beats of a port say. -/
inductive Decoded where
  /-- A whole command, and the beats after it. -/
  | done (i : Instr) (rest : List Word)
  /-- No command word yet, or fewer payload beats than the command's length (R85): the agent waits for more. -/
  | incomplete
  /-- The first beat is a word that selects no row on this port (R88). -/
  | reserved (w : Word)
  deriving DecidableEq, Repr

/-- The P-port: opcode `0x01` only (R86, R88). The frames are received later, by the frame steps (R110). -/
def decodeProducer : List Word → Decoded
  | [] => .incomplete
  | w :: beats => if opcodeOf w = 0x01 then .done (.write (immOf w)) beats else .reserved w

/-- The payload of `ADVANCE` or `FRAME`: one beat (R85). -/
def withOneBeat (make : Word → Instr) : List Word → Decoded
  | [] => .incomplete
  | dt :: rest => .done (make dt) rest

/-- The payload of `LOGPOW`: the real part, then the imaginary part (R85). -/
def withTwoBeats (make : Word → Word → Instr) : List Word → Decoded
  | re :: im :: rest => .done (make re im) rest
  | _ => .incomplete

/-- The C-port: opcodes `0x10` to `0x17` with a zero immediate, `0x18` with any (R86, R88). -/
def decodeConsumer : List Word → Decoded
  | [] => .incomplete
  | w :: beats =>
    if opcodeOf w = 0x18 then .done (.rdbin (immOf w)) beats
    else if immOf w ≠ 0 then .reserved w
    else if opcodeOf w = 0x10 then .done .snapshot beats
    else if opcodeOf w = 0x11 then .done .window beats
    else if opcodeOf w = 0x12 then .done .fft beats
    else if opcodeOf w = 0x13 then .done .bucketize beats
    else if opcodeOf w = 0x14 then withOneBeat .advance beats
    else if opcodeOf w = 0x15 then withOneBeat .frame beats
    else if opcodeOf w = 0x16 then .done .bcount beats
    else if opcodeOf w = 0x17 then withTwoBeats .logpow beats
    else .reserved w

/-- The command at the front of a port's beats. A data beat is never decoded: it has been taken with its command (R90). -/
def decode : Port → List Word → Decoded
  | .producer, beats => decodeProducer beats
  | .consumer, beats => decodeConsumer beats

/-! ## Encoding -/

/-- The beats of a command: its word, then the payload of its single step (R83, R85, R86). -/
def encode : Instr → List Word
  | .write count => [commandWord 0x01 count]
  | .snapshot => [commandWord 0x10 0]
  | .window => [commandWord 0x11 0]
  | .fft => [commandWord 0x12 0]
  | .bucketize => [commandWord 0x13 0]
  | .advance dt => [commandWord 0x14 0, dt]
  | .frame dt => [commandWord 0x15 0, dt]
  | .bcount => [commandWord 0x16 0]
  | .logpow re im => [commandWord 0x17 0, re, im]
  | .rdbin j => [commandWord 0x18 j]

/-- The number of payload beats of a command after its word (R85). -/
def payloadBeats : Instr → Nat
  | .write count => 2 * count
  | .snapshot => 0
  | .window => 0
  | .fft => 0
  | .bucketize => 0
  | .advance _ => 1
  | .frame _ => 1
  | .bcount => 0
  | .logpow _ _ => 2
  | .rdbin _ => 0

/-- The number of response beats of a command, `m` being `M` (R85). -/
def responseBeats (m : Nat) : Instr → Nat
  | .write _ => 0
  | .snapshot => 0
  | .window => 0
  | .fft => 0
  | .bucketize => 0
  | .advance _ => 0
  | .frame _ => m
  | .bcount => 1
  | .logpow _ _ => 1
  | .rdbin _ => 1

/-! ## Bytes outside CORE -/

/-- A word as four bytes, `BYTE_ORDER = little`: byte 0 is bits 7:0 (R51). -/
def wordToBytes (w : Word) : List Byte :=
  [w.extractLsb' 0 8, w.extractLsb' 8 8, w.extractLsb' 16 8, w.extractLsb' 24 8]

/-- The word of four bytes in that order (R51). -/
def wordOfBytes (b0 b1 b2 b3 : Byte) : Word := b3 ++ b2 ++ b1 ++ b0

/-- The words of a byte stream, four bytes each; bytes left over make no word. -/
def wordsOfBytes : List Byte → List Word
  | b0 :: b1 :: b2 :: b3 :: rest => wordOfBytes b0 b1 b2 b3 :: wordsOfBytes rest
  | _ => []

/-- The byte stream of words. -/
def bytesOfWords (ws : List Word) : List Byte := ws.flatMap wordToBytes

/-- The command at the front of a port's byte stream: total on any bytes. -/
def decodeBytes (p : Port) (bytes : List Byte) : Decoded := decode p (wordsOfBytes bytes)

/-! ## The table's numbering -/

/-- The longest command that one step receives, in beats: `LOGPOW` (R85). -/
def longestCommand : Nat := 3

/-- The beats of a number whose low `nbits` bits are an instruction as the opcode table numbers it: beat 0 is bits 31:0; every
bit above `nbits` is 0. -/
def tableBeats (nbits w : Nat) : List Word :=
  (List.range longestCommand).map fun k => BitVec.ofNat 32 (w % 2 ^ nbits / 2 ^ (32 * k))

/-- The port whose rows a word selects, if any (R86): no word is legal on both ports (R88). -/
def tablePort (beats : List Word) : Option Port :=
  match decode .producer beats, decode .consumer beats with
  | .done _ _, _ => some .producer
  | _, .done _ _ => some .consumer
  | _, _ => none

/-- The instruction that the decoder reads from a table word, on the port whose row it is. -/
def decodeTableWord (nbits w : Nat) : Option Instr :=
  match tablePort (tableBeats nbits w) with
  | none => none
  | some p =>
    match decode p (tableBeats nbits w) with
    | .done i _ => some i
    | .incomplete => none
    | .reserved _ => none

/-! ## The assembler -/

/-- The pattern of a float literal: raw bits, or the binary32 nearest to the decimal, ties to even (R91). -/
def FloatLit.word : FloatLit → Word
  | .bits w => w
  | .decimal neg digits scale => (Machine.Fp.round neg (digits * 2 ^ 149) (10 ^ scale)).toWord 0

/-- A number in `width` digits of a base up to 16, leading zeros kept, letters in capitals. -/
def digitText (base width n : Nat) : String :=
  String.ofList ((List.range width).map fun k => (Nat.digitChar (n / base ^ (width - 1 - k) % base)).toUpper)

/-- A float literal as it is written (R91). -/
def FloatLit.text : FloatLit → String
  | .bits w => "0x" ++ digitText 16 8 w.toNat
  | .decimal neg digits scale =>
    (if neg then "-" else "") ++ toString (digits / 10 ^ scale) ++
      (if scale = 0 then "" else "." ++ digitText 10 scale (digits % 10 ^ scale))

/-- A line as it is written: the port, the command, its operands (R91, R92). -/
def AsmLine.text : AsmLine → String
  | .write frames =>
    frames.foldl (fun line f => line ++ ", (" ++ f.1.text ++ ", " ++ f.2.text ++ ")") ("P: WRITE " ++ toString frames.length)
  | .snapshot => "C: SNAPSHOT"
  | .window => "C: WINDOW"
  | .fft => "C: FFT"
  | .bucketize => "C: BUCKETIZE"
  | .advance dt => "C: ADVANCE " ++ dt.text
  | .frame dt => "C: FRAME " ++ dt.text
  | .bcount => "C: BCOUNT"
  | .logpow re im => "C: LOGPOW " ++ re.text ++ ", " ++ im.text
  | .rdbin j => "C: RDBIN " ++ toString j
  | .push l r => "P: PUSH " ++ l.text ++ ", " ++ r.text
  | .silence n => "P: SILENCE " ++ toString n
  | .pipe dt => "C: PIPE " ++ dt.text

/-- The payload of a list of stereo frames: left, right, left, right, ... (R85). -/
def framePayload : List (Word × Word) → List Word
  | [] => []
  | (l, r) :: rest => l :: r :: framePayload rest

/-- The port of a line and the beats it stands for (R91); a pseudo-instruction stands for its expansion (R92). -/
def assemble : AsmLine → Port × List Word
  | .write frames =>
    (.producer, encode (.write frames.length) ++ framePayload (frames.map fun f => (f.1.word, f.2.word)))
  | .snapshot => (.consumer, encode .snapshot)
  | .window => (.consumer, encode .window)
  | .fft => (.consumer, encode .fft)
  | .bucketize => (.consumer, encode .bucketize)
  | .advance dt => (.consumer, encode (.advance dt.word))
  | .frame dt => (.consumer, encode (.frame dt.word))
  | .bcount => (.consumer, encode .bcount)
  | .logpow re im => (.consumer, encode (.logpow re.word im.word))
  | .rdbin j => (.consumer, encode (.rdbin j))
  | .push l r => (.producer, encode (.write 1) ++ framePayload [(l.word, r.word)])
  | .silence n => (.producer, encode (.write n) ++ framePayload (List.replicate n (0#32, 0#32)))
  | .pipe dt =>
    (.consumer, encode .snapshot ++ encode .window ++ encode .fft ++ encode .bucketize ++ encode (.advance dt.word))

end Sys2Proof
end

