-- ==== Sys2Proof/Config.lean ====
section
/-! DEFINITION. What is fixed when CORE is built (00_scope.md R10), the memory spaces (10_state.md R24), the events that a run
is made of (R17, R52), and the free values: what the spec leaves open has no body here, so that nothing can be proved of it. -/

namespace Sys2Proof

/-- The stereo to mono rule (R10, R115). -/
inductive Downmix where
  /-- The algebraic maximum, the reference value. -/
  | algMax
  /-- The maximum of the absolute values. -/
  | absMax
  deriving DecidableEq, Repr

/-- What a constant of CORE that R10 lets a build choose (`HANN`, `TWID`, `ln32`) holds: the reference contents, or any other
contents with the properties that its rule names (93_implementation_defined.md U18). -/
inductive Contents where
  /-- The correctly rounded contents: the reference value of R10. -/
  | reference
  /-- Any contents with the named properties (H1 to H5, T1 to T4, L1 to L7): a free value (log entries 13 and 28). -/
  | other
  deriving DecidableEq, Repr

/-- The build parameters (R10). No command changes them (R33); they stand in State so that one step function covers every
legal build (log entry 2). -/
structure Config where
  /-- `LOG2N - 1`: the type leaves exactly the legal `LOG2N`, 1 to 20, so that no other size can be written down (R11). -/
  log2nPred : Fin 20
  /-- `DOWNMIX`. -/
  downmix : Downmix
  /-- `RATE`, a binary32 pattern, per second. -/
  rate : Word
  /-- The contents of `HANN` (R131). -/
  hannRom : Contents
  /-- The contents of `TWID` (R141). -/
  twidRom : Contents
  /-- The function `ln32` (R156). -/
  lnRom : Contents
  deriving DecidableEq, Repr

namespace Config

/-- `LOG2N` (R10). -/
def log2n (c : Config) : Nat := c.log2nPred.val + 1

/-- `N = 2^LOG2N` (R10). -/
def n (c : Config) : Nat := 2 ^ c.log2n

/-- `H = N/2` (R10). -/
def h (c : Config) : Nat := c.n / 2

/-- `RATE` is legal when it is a finite binary32 above zero (R10): the patterns `0x00000001` to `0x7F7FFFFF`. -/
def legal (c : Config) : Bool := decide (0 < c.rate.toNat ∧ c.rate.toNat < 0x7F800000)

/-- The reference design (R10): `LOG2N = 13`, the algebraic maximum, `RATE = 8.0`, correctly rounded tables and logarithm. -/
def reference : Config where
  log2nPred := 12
  downmix := .algMax
  rate := 0x41000000#32
  hannRom := .reference
  twidRom := .reference
  lnRom := .reference

end Config

/-- The six data memory spaces (10_state.md R24). They do not alias. -/
inductive Space where
  | ring
  | snap
  | frm
  | spec
  | tgt
  | bins
  deriving DecidableEq, Repr

/-- What every word of a space holds after reset (R35): `+0.0` in `RING` and `BINS`; nothing the spec states in the others. -/
def Space.resetWord : Space → Option Word
  | .ring => some 0#32
  | .bins => some 0#32
  | .snap => none
  | .frm => none
  | .spec => none
  | .tgt => none

/-- One event of a run: a step of one agent (R17, R52), or an act of the host at a port (R80) or at the resets (R220). -/
inductive Event where
  /-- Agent `P` takes a step. -/
  | producer
  /-- Agent `C` takes a step. -/
  | consumer
  /-- Agent `SYNC` takes its step (R57). -/
  | sync
  /-- The host presents a beat on the P-port. -/
  | presentP (beat : Word)
  /-- The host presents a beat on the C-port. -/
  | presentC (beat : Word)
  /-- The host accepts one response beat on the R-port. -/
  | acceptR
  /-- The host asserts and releases resets: the producer's `rst_p_n` and the consumer's `rst_c_n`, those that are true. -/
  | reset (producerSide consumerSide : Bool)
  deriving DecidableEq, Repr, Inhabited

namespace Config

/-- Free value (R52, R22; log entry 3): the event that comes when the listed schedule has ended, one for each value of the
counter `tick`. -/
opaque freeEvent : Nat → Event

/-- Free value (R35, U15; log entry 8): the word that a space without a stated reset content holds at an index after the
reset number `epoch`. -/
opaque scratchDraw : (epoch : Nat) → Space → (index : Nat) → Word

/-- Free value (R14, U17; log entry 9): the sign (bit 22) and payload (bits 21 to 0) of a NaN that arithmetic produces, one for
each value of the counter `draws` and each word the command writes. -/
opaque nanDraw : (draws : Nat) → (index : Nat) → BitVec 23

/-- Free value (R131, U18; log entry 28): the window table, one for each `LOG2N`, of a build whose `HANN` has other contents. It
counts only if it has the properties H1 to H5. -/
opaque hannTable : (log2n : Nat) → (index : Nat) → Word

/-- Free value (R141, U18; log entry 28): the twiddle table, real and imaginary part, one for each `LOG2N`, of a build whose
`TWID` has other contents. It counts only if it has the properties T1 to T4. -/
opaque twidTable : (log2n : Nat) → (index : Nat) → Word × Word

/-- Free value (R156, U18; log entry 13): the logarithm of positive finite patterns in a build whose `ln32` has other contents. It
counts only if it has the properties L4 to L7. -/
opaque lnTable : Word → Word

end Config

end Sys2Proof
end

