-- ==== Sys2Proof/Machine/State.lean ====
section
/-! DEFINITION. The state of CORE (10_state.md R20 to R38), the reasons a step can stop, and the state after reset (R35). -/

namespace Sys2Proof.Machine

/-- The words of one memory space that are listed, by index: indices strictly rise, and no entry equals the space's stated
reset word, which is what an unlisted index reads as (log entries 1 and 8). -/
abbrev Mem := List (Nat × Word)

/-- One beat on the response port: the data word and `r_last` (30_encoding.md R80, R85). -/
structure Response where
  data : Word
  last : Bool
  deriving DecidableEq, Repr

/-- CORE, its ports, and what the model needs to say which event comes next. Registers are natural numbers whose widths are
part of `State.Inv` (log entry 15). -/
structure State where
  /-- The build parameters; no step changes them (R33, R38; log entry 2). -/
  cfg : Config
  /-- `HEAD`, the write cursor (R21). -/
  head : Nat
  /-- `HEAD_C`, the synchronised copy of the cursor (R29). -/
  headC : Nat
  /-- `P_LEFT`: stereo frames of the current `WRITE` still to be received (R29). -/
  pLeft : Nat
  /-- `P_KEEP`: stereo frames of the current `WRITE` still to be stored (R29). -/
  pKeep : Nat
  /-- `S_H`: the cursor latched by the current or last snapshot (R29). -/
  sH : Nat
  /-- `S_I`: the next snapshot index; `N` when no snapshot is in progress (R29). -/
  sI : Nat
  /-- `RING` (R25). -/
  ring : Mem
  /-- `SNAP` (R26). -/
  snap : Mem
  /-- `FRM` (R27). -/
  frm : Mem
  /-- `SPEC` (R28). -/
  spec : Mem
  /-- `TGT` (R30). -/
  tgt : Mem
  /-- `BINS` (R31). -/
  bins : Mem
  /-- The `dt` of the `FRAME` in progress, absent otherwise (45_frame_driver.md R190; log entry 6). -/
  frameDt : Option Word
  /-- P-port: the beats the host presents and `P` has not taken, oldest first (R80, R81; log entry 4). -/
  pPort : List Word
  /-- The beats `P` has taken of the stereo frame or command it is still waiting to complete (R85; log entry 5). -/
  pTaken : List Word
  /-- C-port: the beats the host presents and `C` has not taken, oldest first. -/
  cPort : List Word
  /-- The beats `C` has taken of the command it is still waiting to complete. -/
  cTaken : List Word
  /-- R-port: the response beats the host has not accepted, oldest first (R82; log entry 7). -/
  rPort : List Response
  /-- The MODEL's: the events to come, the next first (log entry 3). -/
  schedule : List Event
  /-- The MODEL's: the counter that free events are drawn by (log entry 3). -/
  tick : Nat
  /-- The MODEL's: how often CORE has been reset again (log entry 8). -/
  epoch : Nat
  /-- The MODEL's: the counter that NaN signs and payloads are drawn by (log entry 9). -/
  draws : Nat
  deriving DecidableEq, Repr

/-- There is no fault: CORE raises no exception, every command is total, and nothing in it has a defined error outcome
(60_exceptions.md R200, R206; 93_implementation_defined.md, end of part 1). Log entry 22. -/
inductive Fault where
  deriving DecidableEq, Repr

/-- The host errors to which the spec gives no meaning (60_exceptions.md R203). -/
inductive Refusal where
  /-- Raised by `exec` for an instruction without a meaning in the model; no arm raises it. Safe. -/
  | notModelled (mnemonic : String)
  /-- Raised by a fetch that meets a word selecting no row on its port (R88). Safe: the spec gives it no meaning. -/
  | reservedEncoding (port : Port) (word : Word)
  /-- Raised by `RDBIN j` with `j >= M` (R180). Safe: the spec gives it no meaning. -/
  | rdbinIndexOutOfRange (j : Nat)
  /-- Raised by a reset event that asserts one of the two resets alone (R222). Safe: outside the spec. -/
  | resetsNotTogether
  /-- Raised by any step of a build whose `RATE` is not legal (R10; 93_implementation_defined.md U26). Safe: no such device
  is specified. -/
  | illegalConfiguration
  deriving DecidableEq, Repr

/-- The state at `init_done` of a build (R35, R220, R221), the given reset count and an empty host. `RING` and `BINS` list
nothing, so every word reads as `+0.0`; the other spaces list nothing, so every word reads as its draw. -/
def State.initial (c : Config) (epoch : Nat) : State where
  cfg := c
  head := 0
  headC := 0
  pLeft := 0
  pKeep := 0
  sH := 0
  sI := c.n
  ring := []
  snap := []
  frm := []
  spec := []
  tgt := []
  bins := []
  frameDt := none
  pPort := []
  pTaken := []
  cPort := []
  cTaken := []
  rPort := []
  schedule := []
  tick := 0
  epoch := epoch
  draws := 0

/-- The reference design right after reset (R10, R35). -/
def State.reset : State := State.initial Config.reference 0

end Sys2Proof.Machine
end

