-- ==== Sys2Proof/Machine/Tables.lean ====
section
/-! DEFINITION. The constant tables and functions of CORE: the bucket boundaries `F` and the bin count `M` (43_bucketizer.md
R157, R158), the window table `HANN` (41_hann_window.md R131), the twiddle table `TWID` (42_fft.md R141) and the logarithm
`ln32` (R156). The reference contents of `HANN`, `TWID` and `ln32` are the correctly rounded values of real numbers; the real
numbers are evaluated in fixed point with 192 bits after the point and rounded once by the rounding of R14 (log entries 11 and
12). A build may hold other contents with the properties that the rules name (log entries 13 and 28). -/

namespace Sys2Proof.Machine

/-! ## Bucket boundaries -/

/-- One step of the boundary recurrence: `ceil(F * 106/100)` in exact integers (R157). -/
def nextBound (f : Nat) : Nat := (106 * f + 99) / 100

/-- The bucket boundary `F[j]` (R157). -/
def bound : Nat → Nat
  | 0 => 1
  | j + 1 => nextBound (bound j)

/-- How many boundaries, counted from the boundary `f` on, are below `h`; `fuel` bounds the count. -/
def countBelow (h : Nat) : (fuel : Nat) → (f : Nat) → Nat
  | 0, _ => 0
  | fuel + 1, f => if f < h then countBelow h fuel (nextBound f) + 1 else 0

/-- `bucket_count(h)`: the number of `j` with `F[j] < h` (R158). Since `F[j] >= j + 1`, there are at most `h`. -/
def bucketCount (h : Nat) : Nat := countBelow h h (bound 0)

/-- `M = bucket_count(H)` (00_scope.md R10, R158). -/
def binCount (c : Config) : Nat := bucketCount c.h

/-- The table `F`: `F[0] .. F[M]` (10_state.md R24, R157). -/
def boundTable (c : Config) : List Nat := (List.range (binCount c + 1)).map bound

/-- The number of words of each space (10_state.md R24). -/
def spaceSize (c : Config) : Space → Nat
  | .ring => c.n
  | .snap => c.n
  | .frm => c.n
  | .spec => 2 * c.n
  | .tgt => binCount c
  | .bins => binCount c

/-! ## Fixed point -/

/-- One, in fixed point: 192 bits after the point. -/
def fxOne : Nat := 2 ^ 192

/-- Fixed-point numbers per unit of `2^-149`: what `Fp.round` divides by. -/
def fxUnit : Nat := 2 ^ 43

/-- The circle constant, in fixed point, rounded down. -/
def fxPi : Nat := 19720096697726538562396133364228268891463450865190089732560

/-- The natural logarithm of 2, in fixed point, rounded down. -/
def fxLn2 : Nat := 4350955369971217654477563090224794165364344896676135745069

/-- The alternating series of the sine from the term `t` of index `i` on, `k` terms; `x2` is the angle squared. -/
def sinSeries (x2 : Nat) : (k i t : Nat) → Nat
  | 0, _, _ => 0
  | k + 1, i, t => t - sinSeries x2 k (i + 1) (t * x2 / fxOne / ((2 * i + 2) * (2 * i + 3)))

/-- The sine, in fixed point, of `a/b` of a right angle, for `a <= b`. -/
def fxSin (a b : Nat) : Nat :=
  let x := fxPi * a / (2 * b)
  sinSeries (x * x / fxOne) 28 0 x

/-- The series `t + t·z2/3 + t·z2^2/5 + ...` from the term of index `i` on, `k` terms. -/
def atanhSeries (z2 : Nat) : (k i t : Nat) → Nat
  | 0, _, _ => 0
  | k + 1, i, t => t / (2 * i + 1) + atanhSeries z2 k (i + 1) (t * z2 / fxOne)

/-! ## Reference contents and others -/

/-- A constant's entry: the reference one, or in a build with other contents the free one, if the free contents have the named
properties (93_implementation_defined.md U18; log entries 13 and 28). -/
def entryOf {α : Type} (rom : Contents) (legal : Bool) (free reference : α) : α :=
  match rom with
  | .reference => reference
  | .other => if legal then free else reference

/-- A value with magnitude at most 1. -/
def Fp.atMostOne (x : Fp) : Bool := !x.isNaN && decide (x.key.natAbs ≤ 2 ^ 149)

/-! ## The window table -/

/-- The binary32 nearest to `0.5 - 0.5·cos(2π·i/(N-1))`, which is the square of the sine of `π·i/(N-1)`; the upper half is the
mirror image of the lower (R131). -/
def hannRounded (c : Config) (i : Nat) : Fp :=
  let j := min i (c.n - 1 - i)
  let s := fxSin (2 * j) (c.n - 1)
  Fp.round false (s * s / fxOne) fxUnit

/-- The properties H1 to H5 of a window table, in their order (R131). -/
def hannLegal (c : Config) (t : Nat → Fp) : Bool :=
  decide (t 0 = .zero ∧ t (c.n - 1) = .zero) &&
  decide (∀ i, i < c.n → t i = t (c.n - 1 - i)) &&
  decide (∀ i, i < c.n → (t i).atMostOne = true ∧ 0 ≤ (t i).key ∧ (4 ≤ c.n → 0 < i → i < c.n - 1 → 0 < (t i).key)) &&
  decide (∀ i, i < c.n / 2 - 1 → (t i).key ≤ (t (i + 1)).key) &&
  decide (t (c.n / 2 - 1) = hannRounded c (c.n / 2 - 1) ∧ t (c.n / 2) = hannRounded c (c.n / 2 - 1))

/-- The free window table of a build. -/
def hannFree (c : Config) (i : Nat) : Fp := Fp.ofWord (Config.hannTable c.log2n i)

/-- `HANN[i]` (R131). -/
def hann (c : Config) (i : Nat) : Fp := entryOf c.hannRom (hannLegal c (hannFree c)) (hannFree c i) (hannRounded c i)

/-- `HANN[i]` as the word the table holds. -/
def hannWord (c : Config) (i : Nat) : Word := (hann c i).toWord 0

/-! ## The twiddle table -/

/-- A sine of `a/b` of a right angle, rounded to binary32. -/
def sinFp (neg : Bool) (a b : Nat) : Fp := Fp.round neg (fxSin a b) fxUnit

/-- The binary32 nearest to `cos(2π·m/N)`, by the quarter of the circle that `m` lies in. -/
def twidCos (c : Config) (m : Nat) : Fp :=
  if 4 * m ≤ c.n then sinFp false (c.n - 4 * m) c.n else sinFp true (4 * m - c.n) c.n

/-- The binary32 nearest to `-sin(2π·m/N)`; a real zero is `+0.0` (R141). -/
def twidSin (c : Config) (m : Nat) : Fp :=
  if m = 0 then .zero
  else if 4 * m ≤ c.n then sinFp true (4 * m) c.n else sinFp true (2 * c.n - 4 * m) c.n

/-- The correctly rounded twiddle (R141). -/
def twidRounded (c : Config) (m : Nat) : Cpx := { re := twidCos c m, im := twidSin c m }

/-- The properties T1 to T4 of a twiddle table, in their order (R141). -/
def twidLegal (c : Config) (t : Nat → Cpx) : Bool :=
  decide (t 0 = { re := .one, im := .zero }) &&
  decide (4 ≤ c.n → t (c.n / 4) = { re := .zero, im := Fp.one.neg }) &&
  decide (∀ m, m < c.n / 2 → 0 < m → (t m).im.key < 0 ∧ (t m).re.atMostOne = true ∧ (t m).im.atMostOne = true) &&
  decide (∀ m, m < c.n / 4 → 0 < m → 8 ≤ c.n →
    t (c.n / 2 - m) = { re := (t m).re.neg, im := (t m).im } ∧ t (c.n / 4 + m) = { re := (t m).im, im := (t m).re.neg })

/-- The free twiddle table of a build. -/
def twidFree (c : Config) (m : Nat) : Cpx :=
  { re := Fp.ofWord (Config.twidTable c.log2n m).1, im := Fp.ofWord (Config.twidTable c.log2n m).2 }

/-- `TWID[m]`, for `m` below `N/2` (R141). -/
def twid (c : Config) (m : Nat) : Cpx := entryOf c.twidRom (twidLegal c (twidFree c)) (twidFree c m) (twidRounded c m)

/-! ## The natural logarithm -/

/-- The exponent `e` and the divisor `d` with `x = (mag/d)·2^e` and `mag/d` between the square roots of 1/2 and 2, for a
magnitude `mag` in units of `2^-149`. -/
def lnSplit (mag : Nat) : Int × Nat :=
  let l := mag.log2
  if mag * mag < 2 ^ (2 * l + 1) then ((l : Int) - 149, 2 ^ l) else ((l : Int) - 148, 2 ^ (l + 1))

/-- The natural logarithm of a positive magnitude in units of `2^-149`, in fixed point:
`e·ln 2 + 2·atanh((mag - d)/(mag + d))`. -/
def fxLn (mag : Nat) : Int :=
  let p := lnSplit mag
  let z := (max mag p.2 - min mag p.2) * fxOne / (mag + p.2)
  let s : Int := (2 * atanhSeries (z * z / fxOne) 40 0 z : Nat)
  p.1 * fxLn2 + (if mag < p.2 then -s else s)

/-- The binary32 value nearest to the logarithm of a positive magnitude, ties to even: the reference instance (R156). -/
def lnRounded (mag : Nat) : Fp := Fp.round (decide (fxLn mag < 0)) (fxLn mag).natAbs fxUnit

/-- The result differs from the real logarithm of the magnitude by at most one unit in the last place: of the coarser of the two
binades that they lie in (L7; log entry 13). -/
def withinUlp (mag : Nat) (result : Fp) : Bool :=
  match result with
  | .nan => false
  | .inf _ => false
  | .fin neg m =>
    decide ((Fp.signed neg m * fxUnit - fxLn mag).natAbs ≤
      max (Fp.spacing (fxLn mag).natAbs fxUnit) (Fp.spacing m 1) * fxUnit)

/-- What L6 and L7 ask of the result at one positive finite magnitude: finite, on the right side of zero, within one unit in the
last place of the real logarithm (R156). -/
def lnEntryLegal (mag : Nat) (result : Fp) : Bool :=
  decide (2 ^ 149 < mag → 0 < result.key) && decide (mag < 2 ^ 149 → result.key < 0) && withinUlp mag result

/-- The number of the pattern of `+inf`: the positive finite patterns are those of the numbers above 0 and below it. -/
def infinityNumber : Nat := 0x7F800000

/-- The value of the pattern of number `k`. -/
def patternValue (k : Nat) : Fp := Fp.ofWord (BitVec.ofNat 32 k)

/-- The magnitude of the positive finite pattern of number `k`. -/
def patternMag (k : Nat) : Nat := (patternValue k).key.natAbs

/-- The properties L4, L6 with L7, and L5 of a function on the positive finite patterns. Their numbers follow the order of their
values, so that L5 is asked of neighbours (R156). -/
def lnLegal (t : Nat → Fp) : Bool :=
  decide (t 0x3F800000 = .zero) &&
  decide (∀ k, k < infinityNumber → 0 < k → lnEntryLegal (patternMag k) (t k) = true) &&
  decide (∀ k, k < infinityNumber - 1 → 0 < k → (t k).key ≤ (t (k + 1)).key)

/-- The free logarithm, by the number of the operand's pattern. -/
def lnFree (k : Nat) : Fp := Fp.ofWord (Config.lnTable (BitVec.ofNat 32 k))

/-- The logarithm of a positive magnitude as the build has it. -/
def lnMag (c : Config) (mag : Nat) : Fp := entryOf c.lnRom (lnLegal lnFree) (lnFree (Fp.magBits mag)) (lnRounded mag)

/-- `ln32` of a build, a function of its operand alone (R156): (L1) a NaN or a negative number gives a NaN; (L2) a zero gives
`-inf`; (L3) `+inf` gives `+inf`; on positive finite numbers see `lnMag`. -/
def ln32 (c : Config) : Fp → Fp
  | .nan => .nan
  | .inf true => .nan
  | .inf false => .inf false
  | .fin neg m => if m = 0 then .inf true else if neg then .nan else lnMag c m

/-- `log_power(z) = ln32(fadd(fmul(re, re), fmul(im, im)))` (R155). -/
def logPower (c : Config) (z : Cpx) : Fp := ln32 c ((z.re.mul z.re).add (z.im.mul z.im))

end Sys2Proof.Machine
end

