-- ==== Sys2Proof/Machine/Ops.lean ====
section
/-! DEFINITION. The named operations over memory, registers and ports that the meanings share: reading and writing a word of a
space (20_memory.md R54, R56), the store step of the ring (40_sample_ring.md R112), the snapshot's latch and read steps
(R113, R114), responding (30_encoding.md R82, R85), reset (70_reset_and_hazards.md R220, R222). There is no operation that takes an
exception and none that returns from one: CORE has neither (60_exceptions.md R200, R206, R207). -/

namespace Sys2Proof.Machine

/-! ## A memory space as data -/

/-- The listed word of an index. -/
def Mem.find? : Mem → Nat → Option Word
  | [], _ => none
  | (k, w) :: rest, a => if k = a then some w else Mem.find? rest a

/-- List a word at an index, in its place in the rising order. -/
def Mem.insert : Mem → Nat → Word → Mem
  | [], a, w => [(a, w)]
  | (k, v) :: rest, a, w =>
    if k < a then (k, v) :: Mem.insert rest a w
    else if k = a then (a, w) :: rest
    else (a, w) :: (k, v) :: rest

/-- List nothing at an index. -/
def Mem.erase : Mem → Nat → Mem
  | [], _ => []
  | (k, v) :: rest, a => if k = a then rest else (k, v) :: Mem.erase rest a

/-- Write a word; the word that an unlisted index is known to read as is not listed. -/
def Mem.write (unlisted : Option Word) (m : Mem) (a : Nat) (w : Word) : Mem :=
  if unlisted = some w then m.erase a else m.insert a w

/-- The memory whose words `0 .. n-1` are `f 0 .. f (n-1)`. -/
def Mem.ofWords (unlisted : Option Word) (n : Nat) (f : Nat → Word) : Mem :=
  (List.range n).filterMap fun i => if unlisted = some (f i) then none else some (i, f i)

/-- The canonical form: indices strictly rise, all below `size`, and no entry equals what an unlisted index is known to read
as. -/
def Mem.wf (unlisted : Option Word) (size : Nat) (m : Mem) : Bool :=
  decide (m.Pairwise fun x y => x.1 < y.1) && m.all fun x => decide (x.1 < size) && decide (unlisted ≠ some x.2)

/-! ## The six spaces -/

/-- The listed words of a space. -/
def State.mem (s : State) : Space → Mem
  | .ring => s.ring
  | .snap => s.snap
  | .frm => s.frm
  | .spec => s.spec
  | .tgt => s.tgt
  | .bins => s.bins

/-- The state with other listed words in a space. -/
def State.withMem (s : State) (sp : Space) (m : Mem) : State :=
  match sp with
  | .ring => { s with ring := m }
  | .snap => { s with snap := m }
  | .frm => { s with frm := m }
  | .spec => { s with spec := m }
  | .tgt => { s with tgt := m }
  | .bins => { s with bins := m }

/-- What an unlisted index of a space reads as: the stated reset word (R35), or the draw made at the last reset. -/
def State.unlisted (s : State) (sp : Space) (i : Nat) : Word :=
  match sp.resetWord with
  | some w => w
  | none => Config.scratchDraw s.epoch sp i

/-- `MemRead(SPACE[i], 4)` (00_scope.md R15). A read changes nothing (R54). -/
def State.read (s : State) (sp : Space) (i : Nat) : Word :=
  ((s.mem sp).find? i).getD (s.unlisted sp i)

/-- `MemWrite(SPACE[i], 4, w)` (R15). -/
def State.write (s : State) (sp : Space) (i : Nat) (w : Word) : State :=
  s.withMem sp ((s.mem sp).write sp.resetWord i w)

/-- `MemWrite(SPACE[i], 4, f i)` for `i` in `0 .. n-1`, where these are all the words of the space (R15). -/
def State.writeAll (s : State) (sp : Space) (n : Nat) (f : Nat → Word) : State :=
  s.withMem sp (Mem.ofWords sp.resetWord n f)

/-- The value of a word of a space. -/
def State.readFp (s : State) (sp : Space) (i : Nat) : Fp := Fp.ofWord (s.read sp i)

/-! ## NaN draws -/

/-- The draw for word `i` of what the current command writes (R14, U17; log entry 9). -/
def State.nanDraw (s : State) (i : Nat) : BitVec 23 := Config.nanDraw s.draws i

/-- The next command draws anew. -/
def State.nextDraws (s : State) : State := { s with draws := s.draws + 1 }

/-! ## The ring -/

/-- The store step: the sample goes to the slot at `HEAD`, and `HEAD` moves on, wrapping from `N - 1` to 0 (R112, R59). -/
def State.storeSample (s : State) (v : Word) : State :=
  { s.write .ring s.head v with head := (s.head + 1) % s.cfg.n }

/-- The slot that snapshot index `i` reads: `(S_H - i) mod N` on unsigned values of `LOG2N` bits (R114). -/
def State.snapSlot (s : State) (i : Nat) : Nat := (s.sH + (s.cfg.n - i % s.cfg.n)) % s.cfg.n

/-- The latch step of a snapshot (R113). -/
def State.latch (s : State) : State := { s with sH := s.headC, sI := 0 }

/-- One read step of a snapshot (R113, R114). -/
def State.readSlot (s : State) : State :=
  { s.write .snap s.sI (s.read .ring (s.snapSlot s.sI)) with sI := s.sI + 1 }

/-! ## The response port -/

/-- `send_r` (R15): one more response beat. -/
def State.respond (s : State) (w : Word) (last : Bool) : State := { s with rPort := s.rPort ++ [⟨w, last⟩] }

/-- The response of a whole array of `n` words, `r_last` on the last; none when `n = 0` (R85). -/
def State.respondAll (s : State) (n : Nat) (f : Nat → Word) : State :=
  { s with rPort := s.rPort ++ (List.range n).map fun i => ⟨f i, decide (i + 1 = n)⟩ }

/-- The host accepts the oldest response beat, if there is one (R82). -/
def State.acceptResponse (s : State) : State := { s with rPort := s.rPort.tail }

/-! ## The synchroniser and reset -/

/-- The step of `SYNC` (R57). -/
def State.synchronise (s : State) : State := { s with headC := s.head }

/-- Both resets asserted and released: every command in progress is abandoned, undelivered response beats are dropped, and the
state is the reset state with fresh draws (R222). The beats the host goes on presenting stay the host's; they are parsed as new
command words. -/
def State.resetBoth (s : State) : State :=
  { State.initial s.cfg (s.epoch + 1) with
    pPort := s.pPort, cPort := s.cPort, schedule := s.schedule, tick := s.tick, draws := s.draws }

end Sys2Proof.Machine
end

