-- ==== Sys2Proof/Machine/Flags.lean ====
section
/-! DEFINITION. CORE has no flags, condition codes or status registers (10_state.md R23, R33): no command computes one. What can
be seen of its condition from outside are the signals of the three ports (30_encoding.md R80, R82; 70_reset_and_hazards.md
R220, R221), computed here from the state. -/

namespace Sys2Proof.Machine

/-- `P` is in a `WRITE` (R29: `P_LEFT` is 0 when `P` is idle). -/
def State.producerBusy (s : State) : Bool := decide (0 < s.pLeft)

/-- A snapshot is in progress, of a `SNAPSHOT` or of a `FRAME` (R29: `S_I` is `N` when none is). -/
def State.snapshotting (s : State) : Bool := decide (s.sI < s.cfg.n)

/-- `C` has no command left to execute and no response left to deliver, so it takes the next command (R81, R229). -/
def State.consumerIdle (s : State) : Bool :=
  !s.snapshotting && s.frameDt.isNone && s.rPort.isEmpty

/-- `p_ready`: 1 in every cycle after `init_done_p` (R82). -/
def State.pReady (_ : State) : Bool := true

/-- `c_ready`: 0 while `C` executes a command, 1 otherwise (R82); a command with a response completes with its last beat
accepted (R229). -/
def State.cReady (s : State) : Bool := s.consumerIdle

/-- `r_valid`: a response beat waits for `r_ready` (R82). -/
def State.rValid (s : State) : Bool := !s.rPort.isEmpty

/-- `r_data` and `r_last` of the waiting beat (R80). -/
def State.rBeat (s : State) : Option Response := s.rPort.head?

/-- `init_done_p`: the model has no state before initialisation (R221). -/
def State.initDoneP (_ : State) : Bool := true

/-- `init_done_c`: likewise, and it implies `init_done_p` (R221). -/
def State.initDoneC (_ : State) : Bool := true

end Sys2Proof.Machine
end

