-- ==== Sys2Proof/Machine/Operands.lean ====
section
/-! DEFINITION. How the commands form their operands: the downmix of a stereo frame (40_sample_ring.md R115), the number of
frames kept (R111), the span of a bucket (43_bucketizer.md R162), complex entries of `SPEC` (00_scope.md R16), the beats of a
stereo frame (30_encoding.md R85). -/

namespace Sys2Proof.Machine

/-- `downmix(l, r)` (R115): one of the operands' patterns, in `ABS_MAX` with bit 31 cleared; nothing is rounded. On a tie or a
NaN the right channel's. -/
def downmix (d : Downmix) (l r : Word) : Word :=
  match d with
  | .algMax => if fgt l r then l else r
  | .absMax => if fgt (fabs l) (fabs r) then fabs l else fabs r

/-- `kept = min(count, N - 1)` (R111). -/
def keptFrames (c : Config) (count : Nat) : Nat := min count (c.n - 1)

/-- Complex element `q` of `SPEC`: words `2q` and `2q + 1` (R16). -/
def State.specEntry (s : State) (q : Nat) : Cpx := { re := s.readFp .spec (2 * q), im := s.readFp .spec (2 * q + 1) }

/-- The bins of bucket `j`: `F[j] <= q < min(F[j+1], H)`, ascending (R162). -/
def span (c : Config) (j : Nat) : List Nat :=
  List.range' (bound j) (min (bound (j + 1)) c.h - bound j)

/-- A stereo frame at the front of the beats, the left sample then the right, and the beats after it (R85). -/
def takeFrame : List Word → Option (Word × Word × List Word)
  | l :: r :: rest => some (l, r, rest)
  | _ => none

end Sys2Proof.Machine
end

