-- ==== Sys2Proof/Machine/Bucketizer.lean ====
section
/-! DEFINITION. The log-bucket power aggregator: `LOGPOW`, `BCOUNT`, `BUCKETIZE` (43_bucketizer.md R155 to R168). -/

namespace Sys2Proof.Machine

/-- `LOGPOW re, im`: one response beat, `log_power((re, im))` (R159, R155). -/
def execLogpow (re im : Word) (s : State) : Host.Outcome State Fault Refusal :=
  .next (s.respond ((logPower s.cfg { re := Fp.ofWord re, im := Fp.ofWord im }).toWord (s.nanDraw 0)) true).nextDraws

/-- `BCOUNT`: one response beat, `M` (R160). -/
def execBcount (s : State) : Host.Outcome State Fault Refusal :=
  .next (s.respond (BitVec.ofNat 32 (binCount s.cfg)) true)

/-- Keep the greater under `fgt`: a candidate replaces the value only if it is strictly greater, so a NaN never does (R163,
R164). -/
def keepGreater (acc x : Fp) : Fp := if x.gt acc then x else acc

/-- The bucket value `T[j]`: the greatest log-power of the span, from `+0.0` up (R161, R163). -/
def State.bucketValue (s : State) (j : Nat) : Fp :=
  ((span s.cfg j).map fun q => logPower s.cfg (s.specEntry q)).foldl keepGreater .zero

/-- All bucket values, in order. -/
def State.bucketValues (s : State) : List Fp := (List.range (binCount s.cfg)).map s.bucketValue

/-- The denominator: the greatest bucket value, from `1.0` up (R164). -/
def State.denominator (s : State) : Fp := s.bucketValues.foldl keepGreater .one

/-- The stage: `TGT[j] = fdiv(T[j], den)` for every `j` below `M` (R161). -/
def State.bucketizeStage (s : State) : State :=
  let values := s.bucketValues
  let den := s.denominator
  (s.writeAll .tgt (binCount s.cfg) fun j => ((values.getD j .zero).div den).toWord (s.nanDraw j)).nextDraws

/-- `BUCKETIZE` (R161). -/
def execBucketize (s : State) : Host.Outcome State Fault Refusal := .next s.bucketizeStage

end Sys2Proof.Machine
end

