-- ==== Sys2Proof/Machine/Fft.lean ====
section
/-! DEFINITION. The radix-2 transform: `FFT` (42_fft.md R140 to R148). -/

namespace Sys2Proof.Machine

/-- The combination of the transforms of the even and odd sub-sequences (R142): `t` is the twiddled entry `k` of the odd one, then
`E[k] + t` in the lower half and `E[k] - t` in the upper half. -/
def butterflies {β : Type} (twiddle : Nat → β → β) (add sub : β → β → β) (stride : Nat) (evens odds : List β) : List β :=
  let ts := odds.mapIdx fun k o => twiddle (k * stride) o
  List.zipWith add evens ts ++ List.zipWith sub evens ts

/-- The dataflow graph that the recursion of R142 fixes (R144), whatever the arithmetic at its nodes: `leaf` makes an input a
complex value, `twiddle m` multiplies by `TWID[m]`. The sub-problem of `2^level` inputs halves at each level. -/
def fftGraph {α β : Type} (leaf : α → β) (twiddle : Nat → β → β) (add sub : β → β → β) (x : Nat → α) :
    (level base stride : Nat) → List β
  | 0, base, _ => [leaf (x base)]
  | level + 1, base, stride =>
    butterflies twiddle add sub stride (fftGraph leaf twiddle add sub x level base (2 * stride))
      (fftGraph leaf twiddle add sub x level (base + stride) (2 * stride))

/-- `fft_rec(x, base, stride, 2^level)` (R142): the graph with the rounded operations of R14 and R16, the twiddle the first operand
of `cmul`, and the imaginary part `+0.0` at the base (R143). What R147 lists of it: in exact arithmetic the same graph is the
discrete Fourier transform, hence linear and concentrated on a sinusoid's index; in CORE's arithmetic it is conjugate symmetric up
to the sign of zeros (Laws/Fft.lean, and the statements). -/
def fftRec (c : Config) (x : Nat → Fp) : (level base stride : Nat) → List Cpx :=
  fftGraph (fun v => { re := v, im := .zero }) (fun m o => (twid c m).mul o) Cpx.add Cpx.sub x

/-- The words of `SPEC` for a list of complex values: word `2q` real, word `2q + 1` imaginary (R16, R140). -/
def specWord (xs : List Cpx) (draw : Nat → BitVec 23) (i : Nat) : Word :=
  match xs[i / 2]? with
  | none => 0
  | some z => (if i % 2 = 0 then z.re else z.im).toWord (draw i)

/-- The stage: `SPEC` is the transform of `FRM`, all `N` entries in natural order, unscaled (R140). -/
def State.fftStage (s : State) : State :=
  (s.writeAll .spec (2 * s.cfg.n) (specWord (fftRec s.cfg (s.readFp .frm) s.cfg.log2n 0 1) s.nanDraw)).nextDraws

/-- `FFT` (R140). -/
def execFft (s : State) : Host.Outcome State Fault Refusal := .next s.fftStage

end Sys2Proof.Machine
end

