-- ==== Sys2Proof/Machine/HannWindow.lean ====
section
/-! DEFINITION. The Hann window: `WINDOW` (41_hann_window.md R130 to R134). -/

namespace Sys2Proof.Machine

/-- The stage: `FRM[i] = fmul(SNAP[i], HANN[i])` for every `i` below `N` (R130). -/
def State.windowStage (s : State) : State :=
  (s.writeAll .frm s.cfg.n fun i => ((s.readFp .snap i).mul (hann s.cfg i)).toWord (s.nanDraw i)).nextDraws

/-- `WINDOW` (R130). -/
def execWindow (s : State) : Host.Outcome State Fault Refusal := .next s.windowStage

end Sys2Proof.Machine
end

