-- ==== Sys2Proof/Machine/SampleRing.lean ====
section
/-! DEFINITION. The sample ring: `WRITE` and `SNAPSHOT` (40_sample_ring.md R110 to R119). -/

namespace Sys2Proof.Machine

/-- `WRITE count`, the header step (R110, R111): the frames follow, one step each (`State.frameStep`). -/
def execWrite (count : Nat) (s : State) : Host.Outcome State Fault Refusal :=
  .next { s with pLeft := count, pKeep := keptFrames s.cfg count }

/-- The frame step of `WRITE` on the frame `(l, r)` (R110): while frames are still kept the downmixed sample is stored and `HEAD`
advances; afterwards frames are discarded. -/
def State.frameStep (s : State) (l r : Word) : State :=
  if 0 < s.pKeep then
    { s.storeSample (downmix s.cfg.downmix l r) with pKeep := s.pKeep - 1, pLeft := s.pLeft - 1 }
  else { s with pLeft := s.pLeft - 1 }

/-- `SNAPSHOT`, the latch step (R113): the reads follow, one step each (`State.readSlot`). -/
def execSnapshot (s : State) : Host.Outcome State Fault Refusal := .next s.latch

end Sys2Proof.Machine
end

