-- ==== Sys2Proof/Machine/Smoother.lean ====
section
/-! DEFINITION. The temporal smoother: `ADVANCE` and `RDBIN` (44_smoother.md R175 to R181). -/

namespace Sys2Proof.Machine

/-- One smoothing step of a bin: `fadd(c, fmul(fmul(fsub(t, c), RATE), dt))`, four rounded operations left to right (R176). -/
def smooth (rate dt current target : Fp) : Fp := current.add (((target.sub current).mul rate).mul dt)

/-- The stage: every bin takes one smoothing step toward its target (R175). -/
def State.advanceStage (s : State) (dt : Word) : State :=
  (s.writeAll .bins (binCount s.cfg) fun j =>
    (smooth (Fp.ofWord s.cfg.rate) (Fp.ofWord dt) (s.readFp .bins j) (s.readFp .tgt j)).toWord (s.nanDraw j)).nextDraws

/-- `ADVANCE dt` (R175). -/
def execAdvance (dt : Word) (s : State) : Host.Outcome State Fault Refusal := .next (s.advanceStage dt)

/-- `RDBIN j`: one response beat, `BINS[j]`; an index past the last bin is refused (R180). -/
def execRdbin (j : Nat) (s : State) : Host.Outcome State Fault Refusal :=
  if j < binCount s.cfg then .next (s.respond (s.read .bins j) true) else .refused (.rdbinIndexOutOfRange j)

end Sys2Proof.Machine
end

