-- ==== Sys2Proof/Machine/FrameDriver.lean ====
section
/-! DEFINITION. The frame sequencer: `FRAME` (45_frame_driver.md R190 to R194). -/

namespace Sys2Proof.Machine

/-- `FRAME dt`, the first step: `dt` is received and the snapshot latches (R190). The read steps follow (`State.readSlot`), then
the last step (`State.frameTail`). -/
def execFrame (dt : Word) (s : State) : Host.Outcome State Fault Refusal := .next { s.latch with frameDt := some dt }

/-- The four stages after the snapshot, in the pipeline's order (R190). -/
def State.laterStages (s : State) (dt : Word) : State :=
  s.windowStage.fftStage.bucketizeStage.advanceStage dt

/-- `FRAME` completes: the response is `BINS[0] .. BINS[M-1]`, `r_last` on the last (R190, R85). -/
def State.endFrame (s : State) : State :=
  { s.respondAll (binCount s.cfg) (s.read .bins) with frameDt := none }

/-- The last step of `FRAME`: everything after the snapshot phase is one step (R190, R52). -/
def State.frameTail (s : State) (dt : Word) : State := (s.laterStages dt).endFrame

end Sys2Proof.Machine
end

