-- ==== Sys2Proof/Machine/Agents.lean ====
section
/-! DEFINITION. What each agent does when it steps, short of executing a command: taking the next event, fetching a command from
a port (30_encoding.md R81, R85), going on with a command of several steps (20_memory.md R52), and the acts of the host. -/

namespace Sys2Proof.Machine

/-- The next event and the state without it: the first of the schedule, or a free one when the schedule has ended. -/
def State.nextEvent (s : State) : Event × State :=
  match s.schedule with
  | e :: rest => (e, { s with schedule := rest })
  | [] => (Config.freeEvent s.tick, { s with tick := s.tick + 1 })

/-- What an agent does at its step: execute a command it has fetched, go on without one, or meet a reserved word. -/
inductive Action where
  /-- Execute this command in this state. -/
  | execute (i : Instr) (s : State)
  /-- The step of a command in progress, or waiting for the host. -/
  | goOn (s : State)
  /-- A word that selects no row on this port (R88). -/
  | reserved (port : Port) (w : Word)
  deriving DecidableEq, Repr

/-- `P` between commands: it takes the beats it is presented until they make a command (R81, R85). -/
def State.fetchProducer (s : State) : Action :=
  match decode .producer (s.pTaken ++ s.pPort) with
  | .done i rest => .execute i { s with pTaken := [], pPort := rest }
  | .incomplete => .goOn { s with pTaken := s.pTaken ++ s.pPort, pPort := [] }
  | .reserved w => .reserved .producer w

/-- `P` inside a `WRITE`: the next frame when both its beats have come, waiting otherwise (R110, R203). -/
def State.receiveFrame (s : State) : State :=
  match takeFrame (s.pTaken ++ s.pPort) with
  | some (l, r, rest) => { s with pTaken := [], pPort := rest }.frameStep l r
  | none => { s with pTaken := s.pTaken ++ s.pPort, pPort := [] }

/-- The step of agent `P`. -/
def State.producerAction (s : State) : Action :=
  if s.producerBusy then .goOn s.receiveFrame else s.fetchProducer

/-- `C` between commands (R81, R85). -/
def State.fetchConsumer (s : State) : Action :=
  match decode .consumer (s.cTaken ++ s.cPort) with
  | .done i rest => .execute i { s with cTaken := [], cPort := rest }
  | .incomplete => .goOn { s with cTaken := s.cTaken ++ s.cPort, cPort := [] }
  | .reserved w => .reserved .consumer w

/-- The step of agent `C`: the next read of a snapshot in progress; else the last step of a `FRAME` in progress; else waiting
until the host has accepted the response (R229); else the next command. -/
def State.consumerAction (s : State) : Action :=
  if s.snapshotting then .goOn s.readSlot
  else
    match s.frameDt with
    | some dt => .goOn (s.frameTail dt)
    | none => if s.rPort.isEmpty then s.fetchConsumer else .goOn s

/-- The host presents a beat on the P-port. -/
def State.presentP (s : State) (beat : Word) : State := { s with pPort := s.pPort ++ [beat] }

/-- The host presents a beat on the C-port. -/
def State.presentC (s : State) (beat : Word) : State := { s with cPort := s.cPort ++ [beat] }

/-- The host asserts resets: both together lead to the reset state, one alone is outside the spec, none is no act (R222). -/
def State.hostReset (s : State) (producerSide consumerSide : Bool) : Host.Outcome State Fault Refusal :=
  match producerSide, consumerSide with
  | true, true => .next s.resetBoth
  | false, false => .next s
  | true, false => .refused .resetsNotTogether
  | false, true => .refused .resetsNotTogether

/-- The state in which `P` steps next, is idle, and is presented exactly these beats. -/
def State.presentedToProducer (s : State) (beats : List Word) : State :=
  { s with schedule := .producer :: s.schedule, pLeft := 0, pTaken := [], pPort := beats }

/-- The state in which `C` steps next, is idle, and is presented exactly these beats. -/
def State.presentedToConsumer (s : State) (beats : List Word) : State :=
  { s with
    schedule := .consumer :: s.schedule, sI := s.cfg.n, frameDt := none, rPort := [], cTaken := [], cPort := beats }

/-- The beats of a table word's command: its word and the payload beats its single step receives; for a word that selects no
row, the word alone. -/
def fetchBeats (nbits w : Nat) : List Word :=
  match decodeTableWord nbits w with
  | some i => encode i
  | none => (tableBeats nbits w).take 1

end Sys2Proof.Machine
end

