-- ==== Sys2Proof/Machine/Dispatch.lean ====
section
/-! DEFINITION. `exec`: one arm per command, each the command's own meaning. -/

namespace Sys2Proof.Machine

/-- What a command does in the step that executes it (20_memory.md R52). -/
def exec (i : Instr) (s : State) : Host.Outcome State Fault Refusal :=
  match i with
  | .write count => Sys2Proof.Machine.execWrite count s
  | .snapshot => Sys2Proof.Machine.execSnapshot s
  | .window => Sys2Proof.Machine.execWindow s
  | .fft => Sys2Proof.Machine.execFft s
  | .bucketize => Sys2Proof.Machine.execBucketize s
  | .advance dt => Sys2Proof.Machine.execAdvance dt s
  | .frame dt => Sys2Proof.Machine.execFrame dt s
  | .bcount => Sys2Proof.Machine.execBcount s
  | .logpow re im => Sys2Proof.Machine.execLogpow re im s
  | .rdbin j => Sys2Proof.Machine.execRdbin j s

end Sys2Proof.Machine
end

