-- ==== Sys2Proof/Machine/Step.lean ====
section
/-! DEFINITION. One step: the next event, and what it does (20_memory.md R52). -/

namespace Sys2Proof.Machine

/-- Carry out an agent's action. -/
def Action.perform : Action → Host.Outcome State Fault Refusal
  | .execute i s => exec i s
  | .goOn s => .next s
  | .reserved p w => .refused (.reservedEncoding p w)

/-- What an event does. -/
def State.handle (s : State) : Event → Host.Outcome State Fault Refusal
  | .producer => s.producerAction.perform
  | .consumer => s.consumerAction.perform
  | .sync => .next s.synchronise
  | .presentP beat => .next (s.presentP beat)
  | .presentC beat => .next (s.presentC beat)
  | .acceptR => .next s.acceptResponse
  | .reset p c => s.hostReset p c

/-- One step of CORE and its host: the next event takes place. A build outside the legal parameters has no meaning (U26). -/
def step (s : State) : Host.Outcome State Fault Refusal :=
  if s.cfg.legal then s.nextEvent.2.handle s.nextEvent.1 else .refused .illegalConfiguration

/-- The state with a table word's command presented on its port and that port's agent idle and next to step, so that the very
next step fetches and executes it (log entry 19). A word that selects no row is presented on the C-port. -/
def State.withFetchWord (s : State) (nbits w : Nat) : State :=
  match tablePort (tableBeats nbits w) with
  | some .producer => s.presentedToProducer (fetchBeats nbits w)
  | some .consumer => s.presentedToConsumer (fetchBeats nbits w)
  | none => s.presentedToConsumer (fetchBeats nbits w)

end Sys2Proof.Machine
end

