-- ==== Sys2Proof/Safety.lean ====
section
/-! DEFINITION. The terms in which claims speak: the invariant of a state, what "unchanged" means,
runs and fairness (20_memory.md R52, R60), and the history of stored samples (10_state.md R25). -/

namespace Sys2Proof.Machine

/-! ## The invariant -/

/-- What holds in every state that a run reaches: the build is legal (R10), every register is within its width (R21, R29), every
memory space is in its canonical form and within its size (R24, R56), and the ports and the commands in progress fit together
(R81, R85, R229). -/
structure State.Inv (s : State) : Prop where
  legal : s.cfg.legal = true
  head_lt : s.head < s.cfg.n
  headC_lt : s.headC < s.cfg.n
  sH_lt : s.sH < s.cfg.n
  sI_le : s.sI ≤ s.cfg.n
  pLeft_lt : s.pLeft < immLimit
  pKeep_lt : s.pKeep < s.cfg.n
  pKeep_le : s.pKeep ≤ s.pLeft
  mem_wf : ∀ sp, (s.mem sp).wf sp.resetWord (spaceSize s.cfg sp) = true
  pTaken_idle : s.pLeft = 0 → s.pTaken = []
  pTaken_short : s.pTaken.length ≤ 1
  cTaken_incomplete : decode .consumer s.cTaken = .incomplete
  cTaken_busy : s.consumerIdle = false → s.cTaken = []
  rPort_busy : s.snapshotting = true ∨ s.frameDt ≠ none → s.rPort = []

/-! ## What stays unchanged -/

/-- Every word of a space reads as before. -/
def SameWords (s t : State) (sp : Space) : Prop := ∀ i, t.read sp i = s.read sp i

/-- The six registers (R21, R29) are as before. -/
def SameRegisters (s t : State) : Prop :=
  t.head = s.head ∧ t.headC = s.headC ∧ t.pLeft = s.pLeft ∧ t.pKeep = s.pKeep ∧ t.sH = s.sH ∧ t.sI = s.sI

/-- Both command ports are as before. -/
def SameCommandPorts (s t : State) : Prop :=
  t.pPort = s.pPort ∧ t.pTaken = s.pTaken ∧ t.cPort = s.cPort ∧ t.cTaken = s.cTaken

/-- The build, the reset count and the schedule are as before. -/
def SameBuild (s t : State) : Prop :=
  t.cfg = s.cfg ∧ t.epoch = s.epoch ∧ t.schedule = s.schedule ∧ t.tick = s.tick

/-- Everything that belongs to agent `P` (R34) is the same: `HEAD`, `P_LEFT`, `P_KEEP`, `RING` and the P-port. -/
def SameProducerPart (s t : State) : Prop :=
  t.head = s.head ∧ t.pLeft = s.pLeft ∧ t.pKeep = s.pKeep ∧ t.ring = s.ring ∧ t.pPort = s.pPort ∧ t.pTaken = s.pTaken

/-- Everything that belongs to agent `C` (R34) is the same: `S_H`, `S_I`, the five private spaces, the `FRAME` in progress, the
C-port and the R-port. -/
def SameConsumerPart (s t : State) : Prop :=
  t.sH = s.sH ∧ t.sI = s.sI ∧ t.snap = s.snap ∧ t.frm = s.frm ∧ t.spec = s.spec ∧ t.tgt = s.tgt ∧ t.bins = s.bins ∧
    t.frameDt = s.frameDt ∧ t.cPort = s.cPort ∧ t.cTaken = s.cTaken ∧ t.rPort = s.rPort

/-! ## Conditions on states -/

/-- `C` is idle, has taken no part of a command, and its command port begins with these beats. -/
def ConsumerPresented (s : State) (beats : List Word) : Prop :=
  s.consumerIdle = true ∧ s.cTaken = [] ∧ s.cPort = beats

/-- `P` is idle, has taken no part of a command, and its command port begins with these beats. -/
def ProducerPresented (s : State) (beats : List Word) : Prop :=
  s.pLeft = 0 ∧ s.pTaken = [] ∧ s.pPort = beats

/-- A binary32 pattern that is neither infinite nor a NaN. -/
def isFinite (w : Word) : Prop := ∃ neg m, Fp.ofWord w = .fin neg m

/-- A value in `[+0.0, 1.0]`. -/
def Fp.InUnit (x : Fp) : Prop := ∃ m, x = .fin false m ∧ m ≤ 2 ^ 149

/-- A value without the sign of a zero: two values agree up to the sign of a zero when these are equal. -/
def Fp.value : Fp → Fp
  | .nan => .nan
  | .inf neg => .inf neg
  | .fin neg m => .fin (neg && decide (m ≠ 0)) m

/-! ## The transform in exact arithmetic -/

/-- The dataflow graph of `fft_rec` (42_fft.md R142, R144) on `2^level` inputs, with the exact operations of a ring and the powers of
`w` in place of the twiddles. -/
def exactTransform {K : Type} [CommRing K] (w : K) (x : Nat → K) (level : Nat) : List K :=
  fftGraph id (fun m o => w ^ m * o) (· + ·) (· - ·) x level 0 1

/-! ## Runs -/

/-- `σ` is a run in which event `f k` leads from state `σ k` to state `σ (k+1)` (R52). -/
def IsRun (f : Nat → Event) (σ : Nat → State) : Prop := ∀ k, (σ k).handle (f k) = .next (σ (k + 1))

/-- Weak fairness of `SYNC` (R60): in an infinite run it fires infinitely often. -/
def FairToSync (f : Nat → Event) : Prop := ∀ k, ∃ m, k ≤ m ∧ f m = .sync

/-! ## Histories of samples -/

/-- The store steps of a list of samples, the first sample first (R112). -/
def storeAll (s : State) : List Word → State
  | [] => s
  | v :: rest => storeAll (s.storeSample v) rest

/-- The samples that `WRITE` stores of a batch: the first `N - 1` frames at most, downmixed (R111, R115). -/
def storedSamples (c : Config) (frames : List (Word × Word)) : List Word :=
  (frames.take (keptFrames c frames.length)).map fun f => downmix c.downmix f.1 f.2

end Sys2Proof.Machine
end

