-- ==== Sys2Proof/Certificates/Slice0/Obligations.lean ====
section
/-! DEFINITION. The statements about CORE that the provers are asked for. Each docstring names the rule of spec/ it rests on.
`exec` is what a command does in the step that executes it; `Host.Core.run Sys2Proof.core k` is `k` steps. Where a statement
speaks of the model's own choices (the schedule, the beats taken, the draws), its docstring names the log entry. -/

open Sys2Proof Sys2Proof.Machine

/-! ## Encoding -/

/-- Decoding the beats of a well-formed command, with any beats after them, gives the command back with every operand
(30_encoding.md R83, R85, R86, R87). -/
def Obligations.DecodeUndoesEncode : Prop :=
  ∀ (i : Instr) (rest : List Word), i.wf → decode i.port (encode i ++ rest) = .done i rest

/-- Whatever the decoder reads is a well-formed command of that port, and the beats it took are that command's encoding: each
word has one meaning (R86, R88, R90). -/
def Obligations.DecodedBeatsAreTheEncoding : Prop :=
  ∀ (p : Port) (beats : List Word) (i : Instr) (rest : List Word),
    decode p beats = .done i rest → i.wf ∧ i.port = p ∧ beats = encode i ++ rest

/-- Words of the opcode map, written out, decode to their commands (R86; 95_test_vectors.md section 2.7). -/
def Obligations.OpcodeMapWordsDecode : Prop :=
  decode .producer [0x01000002#32] = .done (.write 2) [] ∧
  decode .consumer [0x10000000#32] = .done .snapshot [] ∧
  decode .consumer [0x11000000#32] = .done .window [] ∧
  decode .consumer [0x12000000#32] = .done .fft [] ∧
  decode .consumer [0x13000000#32] = .done .bucketize [] ∧
  decode .consumer [0x14000000#32, 0x3C888889#32] = .done (.advance 0x3C888889#32) [] ∧
  decode .consumer [0x15000000#32, 0x3C888889#32] = .done (.frame 0x3C888889#32) [] ∧
  decode .consumer [0x16000000#32] = .done .bcount [] ∧
  decode .consumer [0x17000000#32, 0x40400000#32, 0x40800000#32] = .done (.logpow 0x40400000#32 0x40800000#32) [] ∧
  decode .consumer [0x18000025#32] = .done (.rdbin 37) []

/-- The P-port takes opcode `0x01` only; the C-port takes the eight words `0x10000000` to `0x17000000` and opcode `0x18`. An
idle agent that is presented any other word refuses the step, naming the port and the word (R86, R88). -/
def Obligations.ReservedWordsAreRefused : Prop :=
  (∀ (s : State) (w : Word) (rest : List Word) (later : List Event), s.cfg.legal = true →
    s.schedule = .producer :: later → ProducerPresented s (w :: rest) → w &&& 0xFF000000#32 ≠ 0x01000000#32 →
    step s = .refused (.reservedEncoding .producer w)) ∧
  (∀ (s : State) (w : Word) (rest : List Word) (later : List Event), s.cfg.legal = true →
    s.schedule = .consumer :: later → ConsumerPresented s (w :: rest) →
    w ∉ [0x10000000#32, 0x11000000#32, 0x12000000#32, 0x13000000#32, 0x14000000#32, 0x15000000#32, 0x16000000#32,
      0x17000000#32] →
    w &&& 0xFF000000#32 ≠ 0x18000000#32 →
    step s = .refused (.reservedEncoding .consumer w))

/-- Outside CORE a word is four bytes, byte 0 its bits 7:0 and byte 3 its bits 31:24, and a byte stream so written is read back as
the same words (20_memory.md R51). -/
def Obligations.SerialisationIsLittleEndian : Prop :=
  (∀ w : Word, (wordToBytes w).map BitVec.toNat =
    [w.toNat % 256, w.toNat / 256 % 256, w.toNat / 65536 % 256, w.toNat / 16777216]) ∧
  ∀ ws : List Word, wordsOfBytes (bytesOfWords ws) = ws

/-! ## Binary32 arithmetic -/

/-- The rounding of every operation (00_scope.md R14). To nearest, ties to even: the magnitude is one that binary32 holds or
overflows, no magnitude of a pattern is nearer to the exact `num/den`, and where another is as near the chosen pattern is the
even one; a magnitude of `2^128` or more becomes infinite. On finite operands `fadd`, `fsub`, `fmul` and `fdiv` (by a nonzero) give
the exact result so rounded, in units of `2^-149`; the sign of an exact zero sum is the model's (log entry 10). -/
def Obligations.RoundingIsToNearestTiesToEven : Prop :=
  (∀ num den : Nat, 0 < den →
    (Fp.nearest num den < Fp.overflow → ∃ w, Fp.ofWord w = .fin false (Fp.nearest num den)) ∧
    ∀ (w : Word) (neg : Bool) (m : Nat), Fp.ofWord w = .fin neg m →
      ((Fp.nearest num den * den : Int) - num).natAbs ≤ ((m * den : Int) - num).natAbs ∧
      (m ≠ Fp.nearest num den → Fp.nearest num den < Fp.overflow →
        ((Fp.nearest num den * den : Int) - num).natAbs = ((m * den : Int) - num).natAbs →
        Fp.magBits (Fp.nearest num den) % 2 = 0)) ∧
  (∀ (neg : Bool) (num den : Nat),
    Fp.round neg num den = if Fp.nearest num den < 2 ^ 128 * 2 ^ 149 then .fin neg (Fp.nearest num den) else .inf neg) ∧
  ∀ (q : BitVec 23) (a b : Word) (s r : Bool) (m k : Nat), Fp.ofWord a = .fin s m → Fp.ofWord b = .fin r k →
    let x := if s then -(m : Int) else m
    let y := if r then -(k : Int) else k
    Fp.ofWord (fadd q a b) = (if x + y = 0 then .fin (s && r) 0 else Fp.round (decide (x + y < 0)) (x + y).natAbs 1) ∧
    Fp.ofWord (fsub q a b) = (if x - y = 0 then .fin (s && !r) 0 else Fp.round (decide (x - y < 0)) (x - y).natAbs 1) ∧
    Fp.ofWord (fmul q a b) = Fp.round (s ^^ r) (m * k) (2 ^ 149) ∧
    (k ≠ 0 → Fp.ofWord (fdiv q a b) = Fp.round (s ^^ r) (m * 2 ^ 149) k)

/-- `fadd` and `fmul` are commutative bit for bit, for every draw of a NaN's sign and payload (log entry 9), and a NaN that an operation
produces is quiet: its exponent bits and its top fraction bit are ones. The special operands: a NaN operand gives a NaN; so do
`inf - inf`, `0 * inf`, `inf/inf` and `0/0`; other sums with an infinity are that infinity, other products and quotients of one are
infinite with the product sign, as is `x/0` for nonzero finite `x`; a finite value over an infinity is a zero (R14; the cases that its
words leave to IEEE 754, log entry 10). -/
def Obligations.SumsAndProductsCommuteAndNaNsAreQuiet : Prop :=
  (∀ (q : BitVec 23) (a b : Word), fadd q a b = fadd q b a ∧ fmul q a b = fmul q b a) ∧
  (∀ (q : BitVec 23) (a b z : Word), z ∈ [fadd q a b, fsub q a b, fmul q a b, fdiv q a b] →
    (Fp.ofWord z = .nan → z &&& 0x7FC00000#32 = 0x7FC00000#32) ∧
    (Fp.ofWord a = .nan ∨ Fp.ofWord b = .nan → Fp.ofWord z = .nan)) ∧
  (∀ (q : BitVec 23) (a b : Word) (s r : Bool), Fp.ofWord a = .inf s → Fp.ofWord b = .inf r →
    Fp.ofWord (fadd q a b) = (if s = r then .inf s else .nan) ∧ Fp.ofWord (fsub q a b) = (if s = r then .nan else .inf s) ∧
    Fp.ofWord (fmul q a b) = .inf (s ^^ r) ∧ Fp.ofWord (fdiv q a b) = .nan) ∧
  (∀ (q : BitVec 23) (a b : Word) (s r : Bool) (m : Nat), Fp.ofWord a = .inf s → Fp.ofWord b = .fin r m →
    Fp.ofWord (fadd q a b) = .inf s ∧ Fp.ofWord (fsub q a b) = .inf s ∧ Fp.ofWord (fsub q b a) = .inf (!s) ∧
    Fp.ofWord (fmul q a b) = (if m = 0 then .nan else .inf (s ^^ r)) ∧
    Fp.ofWord (fdiv q a b) = .inf (s ^^ r) ∧ Fp.ofWord (fdiv q b a) = .fin (r ^^ s) 0) ∧
  ∀ (q : BitVec 23) (a b : Word) (s r : Bool) (m : Nat), Fp.ofWord a = .fin s m → Fp.ofWord b = .fin r 0 →
    Fp.ofWord (fdiv q a b) = (if m = 0 then .nan else .inf (s ^^ r))

/-- Multiplying by 1.0 and dividing a finite nonzero value by itself are exact (R14; 41_hann_window.md R133, 43_bucketizer.md
R165). -/
def Obligations.UnitProductAndQuotientAreExact : Prop :=
  ∀ (q : BitVec 23) (x : Word),
    (Fp.ofWord x ≠ .nan → fmul q 0x3F800000#32 x = x) ∧
    ((∃ neg m, Fp.ofWord x = .fin neg m ∧ m ≠ 0) → fdiv q x x = 0x3F800000#32)

/-- `fgt` is false on a NaN, and otherwise the strict order of the values: true exactly when the first value is the greater, where an
infinity stands beyond every finite value; so it is false between the two zeros, irreflexive and transitive (R14). -/
def Obligations.GreaterThanIgnoresNaNsAndZeroSigns : Prop :=
  (∀ a b : Word, Fp.ofWord a = .nan ∨ Fp.ofWord b = .nan → fgt a b = false) ∧
  (∀ a b : Word, Fp.ofWord a ≠ .nan → Fp.ofWord b ≠ .nan → (fgt a b = true ↔ (Fp.ofWord b).key < (Fp.ofWord a).key)) ∧
  (∀ (a : Word) (neg : Bool) (m : Nat), Fp.ofWord a = .fin neg m →
    (Fp.ofWord a).key = (if neg then -(m : Int) else m) ∧ (Fp.ofWord a).key < (Fp.ofWord 0x7F800000#32).key ∧
      (Fp.ofWord 0xFF800000#32).key < (Fp.ofWord a).key) ∧
  fgt 0x00000000#32 0x80000000#32 = false ∧ fgt 0x80000000#32 0x00000000#32 = false ∧
  (∀ a b : Word, fgt a b = true → fgt b a = false) ∧
  (∀ a b c : Word, fgt a b = true → fgt b c = true → fgt a c = true)

/-! ## Tables -/

/-- The window table is zero at both ends, symmetric bit for bit, and positive and finite in between, for every legal size and
whatever legal contents the build has (41_hann_window.md R131, H1, H2 and the second half of H3). -/
def Obligations.HannTableIsSymmetricWithZeroEnds : Prop :=
  ∀ c : Config, hannWord c 0 = 0#32 ∧ hannWord c (c.n - 1) = 0#32 ∧
    (∀ i, i < c.n → hannWord c i = hannWord c (c.n - 1 - i)) ∧
    ∀ i, 4 ≤ c.n → 0 < i → i < c.n - 1 → ∃ m, 0 < m ∧ Fp.ofWord (hannWord c i) = .fin false m

/-- The twiddle table at 0 and at a quarter turn, its negative imaginary parts elsewhere, and its two symmetries, for every legal
size and whatever legal contents the build has (42_fft.md R141, T1, T2, the first part of T3, T4). -/
def Obligations.TwiddleTableSymmetries : Prop :=
  ∀ c : Config, twid c 0 = { re := .one, im := .zero } ∧
    (4 ≤ c.n → twid c (c.n / 4) = { re := .zero, im := Fp.one.neg }) ∧
    (∀ m, 0 < m → m < c.n / 2 → ∃ k, 0 < k ∧ (twid c m).im = .fin true k) ∧
    (8 ≤ c.n → ∀ m, 0 < m → m < c.n / 4 →
      twid c (c.n / 2 - m) = { re := (twid c m).re.neg, im := (twid c m).im } ∧
      twid c (c.n / 4 + m) = { re := (twid c m).im, im := (twid c m).re.neg })

/-- `M` for each legal `LOG2N`, 1 to 20 (00_scope.md R12). -/
def Obligations.BinCountTable : Prop :=
  (List.finRange 20).map (fun k => binCount { Config.reference with log2nPred := k }) =
    [0, 1, 3, 7, 15, 24, 34, 45, 56, 68, 80, 92, 104, 115, 127, 139, 151, 163, 175, 187]

/-- `bucket_count(h)` is the number of boundaries below `h`, with the values that the rule lists; `M` is `bucket_count(H)` and at
most `H - 1`, because `F[j]` is at least `j + 1` (43_bucketizer.md R158). -/
def Obligations.BucketCountCountsBoundaries : Prop :=
  (∀ h j, bound j < h ↔ j < bucketCount h) ∧ (∀ j, j + 1 ≤ bound j) ∧ bucketCount 0 = 0 ∧ bucketCount 1 = 0 ∧ bucketCount 2 = 1 ∧
    (∀ h, 2 ≤ h → h ≤ 18 → bucketCount h = h - 1) ∧ bucketCount 4096 = 104 ∧
    ∀ c : Config, binCount c = bucketCount c.h ∧ binCount c ≤ c.h - 1

/-- The boundary recurrence is the ceiling of `F·106/100`, strictly increasing, and counts up by one as far as 17 (R157);
unclamped widths never decrease (R166). -/
def Obligations.BoundariesGrowByTheCeilingRecurrence : Prop :=
  bound 0 = 1 ∧ (∀ j, 106 * bound j ≤ 100 * bound (j + 1) ∧ 100 * bound (j + 1) < 106 * bound j + 100) ∧
    (∀ j, bound j + 1 ≤ bound (j + 1)) ∧ (∀ j, j ≤ 16 → bound j = j + 1) ∧ bound 17 = 19 ∧
    ∀ j, bound (j + 1) - bound j ≤ bound (j + 2) - bound (j + 1)

/-- Bucket `j` covers the bins `q` with `F[j] <= q < min(F[j+1], H)`, and only the last bucket is clamped; the spans are disjoint
and cover exactly the bins `1 .. H-1`: every such bin lies in the span of exactly one bucket, and no other bin lies in any
(R162). -/
def Obligations.SpansPartitionTheHalfSpectrum : Prop :=
  ∀ (c : Config) (q : Nat),
    (∀ j, q ∈ span c j ↔ bound j ≤ q ∧ q < min (bound (j + 1)) c.h) ∧
    (∀ j, j + 1 < binCount c → bound (j + 1) < c.h) ∧
    ((1 ≤ q ∧ q < c.h) ↔ ∃ j, j < binCount c ∧ q ∈ span c j) ∧
    ∀ j k, j < binCount c → k < binCount c → q ∈ span c j → q ∈ span c k → j = k

/-- The special values of the logarithm, and its sign on every positive finite operand, where it is finite: positive above 1,
negative below 1. For every build, whatever legal `ln32` it has (R156, L1 to L4 and L6; log entry 13). -/
def Obligations.LogarithmSpecialValues : Prop :=
  ∀ c : Config, ln32 c .nan = .nan ∧ (∀ m, m ≠ 0 → ln32 c (.fin true m) = .nan) ∧ ln32 c (.inf true) = .nan ∧
    ln32 c (.fin false 0) = .inf true ∧ ln32 c (.fin true 0) = .inf true ∧
    ln32 c (.inf false) = .inf false ∧ ln32 c .one = .zero ∧
    ∀ x : Word, 0 < x.toNat → x.toNat < 0x7F800000 → ∃ neg m, ln32 c (Fp.ofWord x) = .fin neg m ∧
      (0x3F800000 < x.toNat → neg = false ∧ 0 < m) ∧ (x.toNat < 0x3F800000 → neg = true ∧ 0 < m)

/-! ## The ring -/

/-- `WRITE count`, the header step (40_sample_ring.md R110, R111): it completes in every state, sets `P_LEFT` to the count and
`P_KEEP` to `min(count, N-1)`, and changes nothing else. -/
def Obligations.WriteHeaderSetsTheCounts : Prop :=
  ∀ (count : Nat) (s : State), ∃ t, exec (.write count) s = .next t ∧ t.pLeft = count ∧ t.pKeep = min count (s.cfg.n - 1) ∧
    (∀ sp, SameWords s t sp) ∧ t.head = s.head ∧ t.headC = s.headC ∧ t.sH = s.sH ∧ t.sI = s.sI ∧
    SameCommandPorts s t ∧ t.rPort = s.rPort ∧ t.frameDt = s.frameDt ∧ SameBuild s t ∧ t.draws = s.draws

/-- The downmix returns one operand's pattern; in `ALG_MAX` the left one exactly when it is greater; a NaN in either channel, or
a tie, gives the right one; `ABS_MAX` does the same on the absolute values (R115). -/
def Obligations.DownmixSelectsAnOperand : Prop :=
  ∀ l r : Word,
    downmix .algMax l r = (if fgt l r then l else r) ∧
    downmix .absMax l r = downmix .algMax (l &&& 0x7FFFFFFF#32) (r &&& 0x7FFFFFFF#32) ∧
    (Fp.ofWord l = .nan ∨ Fp.ofWord r = .nan →
      downmix .algMax l r = r ∧ downmix .absMax l r = r &&& 0x7FFFFFFF#32) ∧
    ((Fp.ofWord l).key = (Fp.ofWord r).key → downmix .algMax l r = r)

/-- One step of `P` inside a `WRITE` with a whole frame at the port (R110, R112, R115): while frames are kept the downmixed
sample goes to the slot at `HEAD` and `HEAD` moves on modulo `N`; otherwise the frame is discarded. Every other slot, space and
register is unchanged. -/
def Obligations.FrameStepStoresOrDiscards : Prop :=
  ∀ (s : State) (later : List Event) (l r : Word) (rest : List Word), s.Inv → s.schedule = .producer :: later →
    0 < s.pLeft → s.pTaken ++ s.pPort = l :: r :: rest →
    ∃ t, step s = .next t ∧ t.pLeft = s.pLeft - 1 ∧ t.pKeep = s.pKeep - 1 ∧ t.pTaken = [] ∧ t.pPort = rest ∧
      (0 < s.pKeep → t.head = (s.head + 1) % s.cfg.n ∧ t.read .ring s.head = downmix s.cfg.downmix l r ∧
        ∀ i, i ≠ s.head → t.read .ring i = s.read .ring i) ∧
      (s.pKeep = 0 → t.head = s.head ∧ SameWords s t .ring) ∧
      (∀ sp, sp ≠ .ring → SameWords s t sp) ∧ SameConsumerPart s t ∧ t.headC = s.headC

/-- A whole `WRITE` (R110, R111, R118), run by `P` with its payload at the port: after the header step and one step per frame,
the first `min(count, N-1)` frames are stored in order and the others discarded and change no state; all the payload is
consumed. -/
def Obligations.WriteStoresTheFirstFrames : Prop :=
  ∀ (s : State) (frames : List (Word × Word)) (rest : List Word) (later : List Event), s.Inv →
    frames.length < immLimit →
    ProducerPresented s (encode (.write frames.length) ++ framePayload frames ++ rest) →
    s.schedule = List.replicate (1 + frames.length) .producer ++ later →
    Host.Core.run Sys2Proof.core (1 + frames.length) s =
      .next { storeAll s (storedSamples s.cfg frames) with
        pLeft := 0, pKeep := 0, pTaken := [], pPort := rest, schedule := later }

/-- Storing samples moves `HEAD` by their number modulo `N`, and from a ring of zeros the `k`-th most recent sample is in slot
`(HEAD - k) mod N`, for every `k` up to `N`; slots not yet stored to read `+0.0` (10_state.md R21, R25). -/
def Obligations.RingHoldsTheMostRecentSamples : Prop :=
  ∀ (s : State) (vs : List Word), s.ring = [] → s.head < s.cfg.n →
    (storeAll s vs).head = (s.head + vs.length) % s.cfg.n ∧
    ∀ k, 1 ≤ k → k ≤ s.cfg.n →
      (storeAll s vs).read .ring (((storeAll s vs).head + (s.cfg.n - k)) % s.cfg.n) = (vs.reverse[k - 1]?).getD 0#32

/-! ## The snapshot -/

/-- `SNAPSHOT`, the latch step (40_sample_ring.md R113): it completes in every state, `S_H` takes `HEAD_C`, `S_I` takes 0, and
nothing else changes. -/
def Obligations.SnapshotLatchesTheCursor : Prop :=
  ∀ s : State, ∃ t, exec .snapshot s = .next t ∧ t.sH = s.headC ∧ t.sI = 0 ∧
    (∀ sp, SameWords s t sp) ∧ t.head = s.head ∧ t.headC = s.headC ∧ t.pLeft = s.pLeft ∧ t.pKeep = s.pKeep ∧
    SameCommandPorts s t ∧ t.rPort = s.rPort ∧ t.frameDt = s.frameDt ∧ SameBuild s t ∧ t.draws = s.draws

/-- One read step (R113, R114, 20_memory.md R61): with a snapshot in progress, a step of `C` copies the slot
`(S_H - S_I) mod N` as it is at that moment into `SNAP[S_I]`, and counts up; nothing else changes. -/
def Obligations.ReadStepCopiesOneSlot : Prop :=
  ∀ (s : State) (later : List Event), s.Inv → s.schedule = .consumer :: later → s.sI < s.cfg.n →
    ∃ t, step s = .next t ∧ t.sI = s.sI + 1 ∧ t.sH = s.sH ∧
      t.read .snap s.sI = s.read .ring ((s.sH + s.cfg.n - s.sI) % s.cfg.n) ∧
      (∀ i, i ≠ s.sI → t.read .snap i = s.read .snap i) ∧ (∀ sp, sp ≠ .snap → SameWords s t sp) ∧
      SameProducerPart s t ∧ t.headC = s.headC ∧ SameCommandPorts s t ∧ t.rPort = s.rPort ∧ t.frameDt = s.frameDt

/-- A quiescent snapshot is exact (20_memory.md R62): with `HEAD_C = HEAD` at the latch step of a `SNAPSHOT` or a `FRAME` and no step of `P`
(and no reset) until its `N` read steps are done, whatever steps of `SYNC` and acts of the host fall between them, `SNAP[i]` is
`RING[(HEAD - i) mod N]` for every `i`, all read from the ring as it was; `RING`, the other spaces and both cursors are
unchanged. -/
def Obligations.QuiescentSnapshotIsExact : Prop :=
  ∀ (s : State) (i : Instr) (rest : List Word) (es later : List Event), s.Inv → s.headC = s.head →
    (i = .snapshot ∨ ∃ dt, i = .frame dt) → ConsumerPresented s (encode i ++ rest) → s.schedule = .consumer :: (es ++ later) →
    es.count .consumer = s.cfg.n → .producer ∉ es → (∀ p c, .reset p c ∉ es) →
    ∃ t, Host.Core.run Sys2Proof.core (1 + es.length) s = .next t ∧
      (∀ i, i < s.cfg.n → t.read .snap i = s.read .ring ((s.head + s.cfg.n - i) % s.cfg.n)) ∧
      t.sH = s.head ∧ t.sI = s.cfg.n ∧ (∀ sp, sp ≠ .snap → SameWords s t sp) ∧ t.head = s.head ∧ t.headC = s.headC ∧
      t.schedule = later

/-- The ring-wrap property (40_sample_ring.md R116): from a ring of zeros and any cursor, after storing any samples, a quiescent
snapshot holds at index `k` the `k`-th most recent sample, at index 0 the `N`-th most recent, and `+0.0` where fewer were
stored. -/
def Obligations.SnapshotHoldsTheMostRecentSamples : Prop :=
  ∀ (s : State) (vs : List Word) (later : List Event), s.Inv → s.ring = [] →
    ConsumerPresented s (encode .snapshot) →
    s.schedule = List.replicate (1 + s.cfg.n) .consumer ++ later →
    ∃ t, Host.Core.run Sys2Proof.core (1 + s.cfg.n) (storeAll s vs).synchronise = .next t ∧
      (∀ k, 1 ≤ k → k < s.cfg.n → t.read .snap k = (vs.reverse[k - 1]?).getD 0#32) ∧
      t.read .snap 0 = (vs.reverse[s.cfg.n - 1]?).getD 0#32

/-! ## The window -/

/-- `WINDOW` (41_hann_window.md R130): it completes in every state; every `FRM[i]` is `fmul(SNAP[i], HANN[i])`, and every other
space, register and port is unchanged. A NaN takes its sign and payload from a free draw (log entry 9), here and below. -/
def Obligations.WindowMultipliesByTheTable : Prop :=
  ∀ s : State, ∃ t, exec .window s = .next t ∧
    (∀ i, i < s.cfg.n → t.read .frm i = fmul (s.nanDraw i) (s.read .snap i) (hannWord s.cfg i)) ∧
    (∀ sp, sp ≠ .frm → SameWords s t sp) ∧ SameRegisters s t ∧ SameCommandPorts s t ∧ t.rPort = s.rPort ∧
    t.frameDt = s.frameDt ∧ SameBuild s t

/-- `WINDOW` on an all-ones snapshot gives the table itself, symmetric, with `+0.0` at both ends (R133, R134). -/
def Obligations.WindowOfOnesIsTheTable : Prop :=
  ∀ s : State, (∀ i, i < s.cfg.n → s.read .snap i = 0x3F800000#32) → ∃ t, exec .window s = .next t ∧
    (∀ i, i < s.cfg.n → t.read .frm i = hannWord s.cfg i ∧ t.read .frm i = t.read .frm (s.cfg.n - 1 - i)) ∧
    t.read .frm 0 = 0#32 ∧ t.read .frm (s.cfg.n - 1) = 0#32

/-! ## The transform -/

/-- `FFT` (42_fft.md R140): it completes in every state; the transform of `FRM` has `N` entries, and entry `q` is stored as words
`2q` and `2q + 1` of `SPEC`; every other space, register and port is unchanged. -/
def Obligations.FftStoresTheTransform : Prop :=
  ∀ s : State, ∃ t, exec .fft s = .next t ∧
    (fftRec s.cfg (s.readFp .frm) s.cfg.log2n 0 1).length = s.cfg.n ∧
    (∀ q z, (fftRec s.cfg (s.readFp .frm) s.cfg.log2n 0 1)[q]? = some z →
      t.read .spec (2 * q) = z.re.toWord (s.nanDraw (2 * q)) ∧
      t.read .spec (2 * q + 1) = z.im.toWord (s.nanDraw (2 * q + 1))) ∧
    (∀ sp, sp ≠ .spec → SameWords s t sp) ∧ SameRegisters s t ∧ SameCommandPorts s t ∧ t.rPort = s.rPort ∧
    t.frameDt = s.frameDt ∧ SameBuild s t

/-- The recursion (R142, R143): a sub-problem of size `2^level` gives as many values; at size 1 the value with imaginary part
`+0.0`; at size `2·2^level`, with `t` the product of `TWID[k·stride]` and entry `k` of the odd half (four products, their difference
the real part and their sum the imaginary part), entry `k` is `E[k] + t` and entry `k + 2^level` is `E[k] - t`: ten rounded
operations. The stride of a sub-problem is `N` divided by its size (R16 for the complex operations). -/
def Obligations.TransformRecursion : Prop :=
  ∀ (c : Config) (x : Nat → Fp) (base stride : Nat),
    (∀ level, (fftRec c x level base stride).length = 2 ^ level) ∧
    fftRec c x 0 base stride = [{ re := x base, im := Fp.ofWord 0x00000000#32 }] ∧
    ∀ level k, k < 2 ^ level → ∃ e o,
      (fftRec c x level base (2 * stride))[k]? = some e ∧
      (fftRec c x level (base + stride) (2 * stride))[k]? = some o ∧
      let w := twid c (k * stride)
      let re := (w.re.mul o.re).sub (w.im.mul o.im)
      let im := (w.re.mul o.im).add (w.im.mul o.re)
      (fftRec c x (level + 1) base stride)[k]? = some { re := e.re.add re, im := e.im.add im } ∧
      (fftRec c x (level + 1) base stride)[k + 2 ^ level]? = some { re := e.re.sub re, im := e.im.sub im }

/-- Frames whose transform is exact in binary32, for every legal size they have. (R146) An all-zero frame gives all `+0.0`; at size 2
and for finite `x1` the transform is the sum and the difference, with imaginary parts `+0.0`. (R147, the sinusoid, at the three
frequencies where its samples are exact) A constant `A`, with `N·A` in range, is `N·A` at index 0; the tone `A, -A, A, -A, …` is
`N·A` at index `N/2`; the tone `0, A, 0, -A, …` is `-i·(N/2)·A` at `N/4` and `+i·(N/2)·A` at the mirror `3·N/4`; every other index,
and every other part, is zero. The tones are up to the sign of zeros. -/
def Obligations.TransformOfExactFrames : Prop :=
  (∀ s : State, (∀ i, i < s.cfg.n → s.read .frm i = 0#32) → ∃ t, exec .fft s = .next t ∧
    ∀ i, i < 2 * s.cfg.n → t.read .spec i = 0#32) ∧
  (∀ s : State, s.cfg.log2n = 1 → isFinite (s.read .frm 1) → ∃ t, exec .fft s = .next t ∧
    t.read .spec 0 = fadd (s.nanDraw 0) (s.read .frm 0) (s.read .frm 1) ∧ t.read .spec 1 = 0#32 ∧
    t.read .spec 2 = fsub (s.nanDraw 2) (s.read .frm 0) (s.read .frm 1) ∧ t.read .spec 3 = 0#32) ∧
  ∀ (c : Config) (a : Word) (s : Bool) (m : Nat), Fp.ofWord a = .fin s m → m * c.n < Fp.overflow →
    ∀ (x : Nat → Fp) (q : Nat) (z : Cpx), (fftRec c x c.log2n 0 1)[q]? = some z →
      ((∀ i, i < c.n → x i = .fin s m) →
        z.re.value = (if q = 0 then (Fp.fin s (m * c.n)).value else .zero) ∧ z.im.value = .zero) ∧
      ((∀ i, i < c.n → x i = .fin (s ^^ decide (i % 2 = 1)) m) →
        z.re.value = (if q = c.n / 2 then (Fp.fin s (m * c.n)).value else .zero) ∧ z.im.value = .zero) ∧
      (4 ≤ c.n → (∀ i, i < c.n → x i = if i % 2 = 0 then .zero else .fin (s ^^ decide (i % 4 = 3)) m) →
        z.re.value = .zero ∧
        z.im.value = if q = c.n / 4 then (Fp.fin (!s) (m * (c.n / 2))).value
          else if q = 3 * (c.n / 4) then (Fp.fin s (m * (c.n / 2))).value else .zero)

/-- The properties that R147 lists, in the form that needs no tolerance (R147 gives none). The transform is one dataflow graph (R144)
at CORE's operations. The same graph at exact operations, over any commutative ring, with a `w` whose power `N/2` is -1 for the
twiddles, is the discrete Fourier transform `X[q] = Σ x[i]·w^(q·i)`; (b) it is linear; (a) a sinusoid of index `k`, which is
`a·w^(k·i) + b·w^((N-k)·i)`, is `N·b` at index `k`, `N·a` at the mirror `N-k` and 0 everywhere else, for every `k` strictly between 0 and `N`
but `N/2`. And in CORE's own rounded operations, in every legal build, up to the sign of zeros: (c) entry `N-q` is the conjugate of entry
`q`, for every frame, and entry 0 has imaginary part zero or NaN; (b) negating the frame negates the transform. -/
def Obligations.TransformHasTheListedProperties : Prop :=
  (∀ (c : Config) (x : Nat → Fp) (level base stride : Nat), fftRec c x level base stride =
    fftGraph (fun v => ({ re := v, im := .zero } : Cpx)) (fun m o => (twid c m).mul o) Cpx.add Cpx.sub x level base stride) ∧
  (∀ (K : Type) [CommRing K] (w : K) (level : Nat), w ^ 2 ^ level = -1 →
    (∀ (x : Nat → K) (q : Nat), q < 2 ^ (level + 1) →
      (exactTransform w x (level + 1))[q]? = some (∑ i ∈ Finset.range (2 ^ (level + 1)), x i * w ^ (q * i))) ∧
    (∀ (a b : K) (x y : Nat → K), exactTransform w (fun i => a * x i + b * y i) (level + 1) =
      List.zipWith (fun u v => a * u + b * v) (exactTransform w x (level + 1)) (exactTransform w y (level + 1))) ∧
    ∀ (a b : K) (k q : Nat), 0 < k → k < 2 ^ (level + 1) → 2 * k ≠ 2 ^ (level + 1) → q < 2 ^ (level + 1) →
      (exactTransform w (fun i => a * w ^ (k * i) + b * w ^ ((2 ^ (level + 1) - k) * i)) (level + 1))[q]? =
        some (if q = k then 2 ^ (level + 1) * b else if q = 2 ^ (level + 1) - k then 2 ^ (level + 1) * a else 0)) ∧
  ∀ (c : Config) (x : Nat → Fp),
    (∀ z : Cpx, (fftRec c x c.log2n 0 1)[0]? = some z → z.im.value = .zero ∨ z.im = .nan) ∧
    (∀ (q : Nat) (u v : Cpx), 0 < q → q < c.n → (fftRec c x c.log2n 0 1)[q]? = some u →
      (fftRec c x c.log2n 0 1)[c.n - q]? = some v → v.re.value = u.re.value ∧ v.im.value = u.im.neg.value) ∧
    ∀ (q : Nat) (u v : Cpx), (fftRec c x c.log2n 0 1)[q]? = some u →
      (fftRec c (fun i => (x i).neg) c.log2n 0 1)[q]? = some v → v.re.value = u.re.neg.value ∧ v.im.value = u.im.neg.value

/-! ## The bucketizer -/

/-- `log_power` is the logarithm of the rounded sum of the two rounded squares, formed by the word operations of R14
(43_bucketizer.md R155); its argument is never negative and never `-0.0`. -/
def Obligations.LogPowerIsTheLogarithmOfTheSquaredMagnitude : Prop :=
  ∀ (c : Config) (q1 q2 q3 : BitVec 23) (re im : Word),
    logPower c { re := Fp.ofWord re, im := Fp.ofWord im } =
      ln32 c (Fp.ofWord (fadd q1 (fmul q2 re re) (fmul q3 im im))) ∧
    (∀ m, Fp.ofWord (fadd q1 (fmul q2 re re) (fmul q3 im im)) ≠ .fin true m) ∧
    Fp.ofWord (fadd q1 (fmul q2 re re) (fmul q3 im im)) ≠ .inf true

/-- `LOGPOW` (R159): it completes in every state; one response beat, the log-power with `r_last`; no register or memory word
changes. -/
def Obligations.LogpowRespondsWithTheLogPower : Prop :=
  ∀ (re im : Word) (s : State), ∃ t, exec (.logpow re im) s = .next t ∧
    t.rPort = s.rPort ++ [⟨(logPower s.cfg { re := Fp.ofWord re, im := Fp.ofWord im }).toWord (s.nanDraw 0), true⟩] ∧
    (∀ sp, SameWords s t sp) ∧ SameRegisters s t ∧ SameCommandPorts s t ∧ t.frameDt = s.frameDt ∧ SameBuild s t

/-- The corner cases of `LOGPOW`, which hold for every instance of `ln32` (R159): `(0,0)` gives `-inf`, `(1,0)` gives `+0.0`; with
no NaN, an infinite real or imaginary part gives `+inf`; a NaN part gives a NaN; `(1e-30,0)` gives `-inf` and `(1e20,0)` gives
`+inf`, their squares leaving the range. -/
def Obligations.LogpowCornerCases : Prop :=
  ∀ s : State,
    (∃ t, exec (.logpow 0x00000000#32 0x00000000#32) s = .next t ∧ t.rPort = s.rPort ++ [⟨0xFF800000#32, true⟩]) ∧
    (∃ t, exec (.logpow 0x3F800000#32 0x00000000#32) s = .next t ∧ t.rPort = s.rPort ++ [⟨0x00000000#32, true⟩]) ∧
    (∀ (re im : Word) (neg : Bool), Fp.ofWord re = .inf neg → Fp.ofWord im ≠ .nan →
      ∃ t, exec (.logpow re im) s = .next t ∧ t.rPort = s.rPort ++ [⟨0x7F800000#32, true⟩]) ∧
    (∀ (re im : Word) (neg : Bool), Fp.ofWord im = .inf neg → Fp.ofWord re ≠ .nan →
      ∃ t, exec (.logpow re im) s = .next t ∧ t.rPort = s.rPort ++ [⟨0x7F800000#32, true⟩]) ∧
    (∀ re im : Word, Fp.ofWord re = .nan ∨ Fp.ofWord im = .nan →
      ∃ t w, exec (.logpow re im) s = .next t ∧ t.rPort = s.rPort ++ [⟨w, true⟩] ∧ Fp.ofWord w = .nan) ∧
    (∃ t, exec (.logpow 0x0DA24260#32 0x00000000#32) s = .next t ∧ t.rPort = s.rPort ++ [⟨0xFF800000#32, true⟩]) ∧
    (∃ t, exec (.logpow 0x60AD78EC#32 0x00000000#32) s = .next t ∧ t.rPort = s.rPort ++ [⟨0x7F800000#32, true⟩])

/-- `BCOUNT` (R160): it completes in every state; one response beat, `M` with `r_last`; no state of the core changes. -/
def Obligations.BcountRespondsWithTheBinCount : Prop :=
  ∀ s : State, ∃ t, exec .bcount s = .next t ∧
    t.rPort = s.rPort ++ [⟨BitVec.ofNat 32 (bucketCount s.cfg.h), true⟩] ∧ (bucketCount s.cfg.h) < 2 ^ 32 ∧
    (∀ sp, SameWords s t sp) ∧ SameRegisters s t ∧ SameCommandPorts s t ∧ t.frameDt = s.frameDt ∧ SameBuild s t ∧
    t.draws = s.draws

/-- A bucket's value is the greatest log-power of its span or `+0.0`: it is no NaN and not negative, no log-power of the span is
greater, and it is `+0.0` or one of them; NaN and negative log-powers never show (R163). -/
def Obligations.BucketValueIsTheGreatestLogPower : Prop :=
  ∀ (s : State) (j : Nat), s.bucketValue j ≠ .nan ∧ Fp.gt .zero (s.bucketValue j) = false ∧
    (∀ q, q ∈ span s.cfg j → (logPower s.cfg (s.specEntry q)).gt (s.bucketValue j) = false) ∧
    (s.bucketValue j = .zero ∨ ∃ q, q ∈ span s.cfg j ∧ s.bucketValue j = logPower s.cfg (s.specEntry q))

/-- The denominator is the greatest bucket value or `1.0`, that is the greatest log-power of the bins `1 .. H-1` or `1.0`: it is no
NaN and at least `1.0`, no bucket value and no such log-power is greater, and it is `1.0` or one of them; the DC bin takes no
part (R164). -/
def Obligations.DenominatorIsTheGreatestBucketValue : Prop :=
  ∀ s : State, s.denominator ≠ .nan ∧ Fp.gt .one s.denominator = false ∧
    (∀ j, j < binCount s.cfg → (s.bucketValue j).gt s.denominator = false) ∧
    (∀ q, 1 ≤ q → q < s.cfg.h → (logPower s.cfg (s.specEntry q)).gt s.denominator = false) ∧
    (s.denominator = .one ∨
      ((∃ j, j < binCount s.cfg ∧ s.denominator = s.bucketValue j) ∧
        ∃ q, 1 ≤ q ∧ q < s.cfg.h ∧ s.denominator = logPower s.cfg (s.specEntry q)))

/-- `BUCKETIZE` (R161): it completes in every state; every `TGT[j]` is `fdiv(T[j], den)`, and every other space, register and
port is unchanged. -/
def Obligations.BucketizeDividesByTheDenominator : Prop :=
  ∀ s : State, ∃ t, exec .bucketize s = .next t ∧
    (∀ (j : Nat) (q1 q2 : BitVec 23), j < binCount s.cfg →
      t.read .tgt j = fdiv (s.nanDraw j) ((s.bucketValue j).toWord q1) (s.denominator.toWord q2)) ∧
    (∀ sp, sp ≠ .tgt → SameWords s t sp) ∧ SameRegisters s t ∧ SameCommandPorts s t ∧ t.rPort = s.rPort ∧
    t.frameDt = s.frameDt ∧ SameBuild s t

/-- The normalisation bound (R166): if no covered log-power is `+inf`, every `TGT[j]` lies in `[+0.0, 1.0]`; if moreover some
bucket value exceeds `1.0`, some `TGT[j]` is exactly `1.0`. -/
def Obligations.NormalisedBucketsLieInTheUnitInterval : Prop :=
  ∀ s : State, (∀ q, 1 ≤ q → q < s.cfg.h → logPower s.cfg (s.specEntry q) ≠ .inf false) →
    ∃ t, exec .bucketize s = .next t ∧ (∀ j, j < binCount s.cfg → (t.readFp .tgt j).InUnit) ∧
      ((∃ j, j < binCount s.cfg ∧ (s.bucketValue j).gt .one = true) →
        ∃ j, j < binCount s.cfg ∧ t.read .tgt j = 0x3F800000#32)

/-- `BUCKETIZE` reads only the bins `1 .. H-1`: two states of one build that agree on those entries of `SPEC` (and on the draws)
get the same `TGT`, whatever the DC bin and the mirror bins hold (R162, R164, R165). -/
def Obligations.BucketizeReadsOnlyCoveredBins : Prop :=
  ∀ s s' : State, s'.cfg = s.cfg → s'.draws = s.draws →
    (∀ q, 1 ≤ q → q < s.cfg.h → s'.specEntry q = s.specEntry q) →
    ∃ t t', exec .bucketize s = .next t ∧ exec .bucketize s' = .next t' ∧
      ∀ j, j < binCount s.cfg → t'.read .tgt j = t.read .tgt j

/-- Silence (R165): if both parts of every covered entry of `SPEC` are zeros, of either sign, every `TGT[j]` is `+0.0`. -/
def Obligations.SilenceGivesZeroTargets : Prop :=
  ∀ s : State, (∀ q, 1 ≤ q → q < s.cfg.h → ∃ a b, s.specEntry q = { re := .fin a 0, im := .fin b 0 }) →
    ∃ t, exec .bucketize s = .next t ∧ ∀ j, j < binCount s.cfg → t.read .tgt j = 0#32

/-! ## The smoother -/

/-- `ADVANCE dt` (44_smoother.md R175, R176): it completes in every state; every `BINS[j]` takes the four rounded word operations
`fadd(c, fmul(fmul(fsub(t, c), RATE), dt))` in this order, whatever draws an intermediate NaN would take; every other space,
register and port is unchanged. -/
def Obligations.AdvanceIsFourRoundedOperations : Prop :=
  ∀ (dt : Word) (s : State), ∃ t, exec (.advance dt) s = .next t ∧
    (∀ (j : Nat) (q1 q2 q3 : BitVec 23), j < binCount s.cfg →
      t.read .bins j = fadd (s.nanDraw j) (s.read .bins j)
        (fmul q1 (fmul q2 (fsub q3 (s.read .tgt j) (s.read .bins j)) s.cfg.rate) dt)) ∧
    (∀ sp, sp ≠ .bins → SameWords s t sp) ∧ SameRegisters s t ∧ SameCommandPorts s t ∧ t.rPort = s.rPort ∧
    t.frameDt = s.frameDt ∧ SameBuild s t

/-- A bin at its target stays there: for finite `dt`, a finite bin equal to its target and not `-0.0` is unchanged (R179). A NaN
bin stays a NaN, and a NaN `dt` makes every bin a NaN (R178). -/
def Obligations.BinsAtRestAndNaNBinsStay : Prop :=
  ∀ (dt : Word) (s : State), s.cfg.legal = true → ∃ t, exec (.advance dt) s = .next t ∧
    ∀ j, j < binCount s.cfg →
      (isFinite dt → isFinite (s.read .bins j) → s.read .bins j ≠ 0x80000000#32 →
        s.read .tgt j = s.read .bins j → t.read .bins j = s.read .bins j) ∧
      (Fp.ofWord (s.read .bins j) = .nan ∨ Fp.ofWord dt = .nan → Fp.ofWord (t.read .bins j) = .nan)

/-- `RDBIN j` (R180): with `j` below `M` it completes, one response beat `BINS[j]` with `r_last`, and nothing else changes; with
`j` at or above `M` it is refused. -/
def Obligations.RdbinRespondsOrIsRefused : Prop :=
  ∀ (j : Nat) (s : State),
    (j < binCount s.cfg → ∃ t, exec (.rdbin j) s = .next t ∧ t.rPort = s.rPort ++ [⟨s.read .bins j, true⟩] ∧
      (∀ sp, SameWords s t sp) ∧ SameRegisters s t ∧ SameCommandPorts s t ∧ t.frameDt = s.frameDt ∧ SameBuild s t ∧
      t.draws = s.draws) ∧
    (binCount s.cfg ≤ j → exec (.rdbin j) s = .refused (.rdbinIndexOutOfRange j))

/-! ## The frame sequencer -/

/-- `FRAME dt`, the first step (45_frame_driver.md R190): it completes in every state, latches the cursor as `SNAPSHOT` does,
keeps `dt`, and changes nothing else. That `dt` is received in the step that latches is deduced (log entry 6). -/
def Obligations.FrameLatchesTheCursor : Prop :=
  ∀ (dt : Word) (s : State), ∃ t, exec (.frame dt) s = .next t ∧ t.sH = s.headC ∧ t.sI = 0 ∧ t.frameDt = some dt ∧
    (∀ sp, SameWords s t sp) ∧ t.head = s.head ∧ t.headC = s.headC ∧ t.pLeft = s.pLeft ∧ t.pKeep = s.pKeep ∧
    SameCommandPorts s t ∧ t.rPort = s.rPort ∧ SameBuild s t ∧ t.draws = s.draws

/-- `FRAME dt` is the five stages (R190, R191). Whatever steps of `P` and of `SYNC` fell between its reads, the step of `C` that follows
the last read is `WINDOW`, `FFT`, `BUCKETIZE` and `ADVANCE dt` in turn, one step in all, which touches nothing of `P`'s, the
snapshot or a cursor, ends the command and returns `BINS[0] .. BINS[M-1]`, `r_last` on the last. And run by `C` alone, `FRAME dt`
and `SNAPSHOT; WINDOW; FFT; BUCKETIZE; ADVANCE dt` end in the same state but for the response, the sequence returning nothing. -/
def Obligations.FrameIsThePipeline : Prop :=
  (∀ (s : State) (dt : Word) (later : List Event), s.Inv → s.schedule = .consumer :: later → s.sI = s.cfg.n →
    s.frameDt = some dt →
    ∃ windowed transformed bucketed t, exec .window { s with schedule := later, frameDt := none } = .next windowed ∧
      exec .fft windowed = .next transformed ∧ exec .bucketize transformed = .next bucketed ∧
      exec (.advance dt) bucketed = .next t ∧
      step s = .next { t with
        rPort := (List.range (binCount s.cfg)).map fun j => ⟨t.read .bins j, decide (j + 1 = binCount s.cfg)⟩ } ∧
      t.frameDt = none ∧ SameProducerPart s t ∧ SameWords s t .snap ∧ SameRegisters s t ∧ SameCommandPorts s t) ∧
  ∀ (s : State) (dt : Word) (rest : List Word) (later : List Event), s.Inv → s.consumerIdle = true →
    ∃ t, Host.Core.run Sys2Proof.core (s.cfg.n + 5)
        { s with
          cTaken := [], cPort := (assemble (.pipe (.bits dt))).2 ++ rest,
          schedule := List.replicate (s.cfg.n + 5) .consumer ++ later } = .next t ∧
      t.rPort = [] ∧
      Host.Core.run Sys2Proof.core (s.cfg.n + 2)
        { s with
          cTaken := [], cPort := (assemble (.frame (.bits dt))).2 ++ rest,
          schedule := List.replicate (s.cfg.n + 2) .consumer ++ later } =
        .next { t with
          rPort := (List.range (binCount s.cfg)).map fun j => ⟨t.read .bins j, decide (j + 1 = binCount s.cfg)⟩ }

/-- The first `FRAME` after reset with no `WRITE` yet, for every legal build and every finite `dt`: the response is `M` words
`0x00000000`, and `SNAP`, `FRM`, `SPEC`, `TGT` and `BINS` are all `+0.0`, whatever the reset draw was (R192, R230). -/
def Obligations.FirstFrameAfterResetIsZero : Prop :=
  ∀ (c : Config) (epoch : Nat) (dt : Word) (later : List Event), c.legal = true → isFinite dt →
    ∃ t, Host.Core.run Sys2Proof.core (c.n + 2)
        { State.initial c epoch with
          cPort := encode (.frame dt), schedule := List.replicate (c.n + 2) .consumer ++ later } = .next t ∧
      t.rPort = (List.range (binCount c)).map (fun j => ⟨0#32, decide (j + 1 = binCount c)⟩) ∧
      ∀ sp i, i < spaceSize c sp → t.read sp i = 0#32

/-! ## Steps, agents and the host -/

/-- A step of an idle agent runs the command that the beats at its port decode to, in the state without those beats (R81;
log entries 3 and 5 name the schedule and the beats taken). -/
def Obligations.StepRunsTheDecodedCommand : Prop :=
  (∀ (s : State) (later : List Event) (i : Instr) (rest : List Word), s.cfg.legal = true →
    s.schedule = .consumer :: later → s.consumerIdle = true → decode .consumer (s.cTaken ++ s.cPort) = .done i rest →
    step s = exec i { s with schedule := later, cTaken := [], cPort := rest }) ∧
  (∀ (s : State) (later : List Event) (i : Instr) (rest : List Word), s.cfg.legal = true →
    s.schedule = .producer :: later → s.pLeft = 0 → decode .producer (s.pTaken ++ s.pPort) = .done i rest →
    step s = exec i { s with schedule := later, pTaken := [], pPort := rest })

/-- A payload that has not arrived (30_encoding.md R85, 60_exceptions.md R203): the agent takes the beats there are and waits;
nothing else changes. That it takes them at once is the model's choice (log entry 5). -/
def Obligations.ShortPayloadWaits : Prop :=
  (∀ (s : State) (later : List Event), s.cfg.legal = true → s.schedule = .consumer :: later → s.consumerIdle = true →
    decode .consumer (s.cTaken ++ s.cPort) = .incomplete →
    step s = .next { s with schedule := later, cTaken := s.cTaken ++ s.cPort, cPort := [] }) ∧
  (∀ (s : State) (later : List Event), s.cfg.legal = true → s.schedule = .producer :: later → 0 < s.pLeft →
    (s.pTaken ++ s.pPort).length ≤ 1 →
    step s = .next { s with schedule := later, pTaken := s.pTaken ++ s.pPort, pPort := [] })

/-- A response that the host has not accepted holds agent `C`: it takes no beat of the next command and changes nothing; `P` is
not held (R82, 70_reset_and_hazards.md R229). The acts of the host: a beat presented on a command port stands behind those
presented before it; accepting takes away the oldest response beat, the one offered; nothing else changes (R80, R82). That the host's
offers are a queue, and that accepting is no act when nothing is offered, is the model's choice (log entries 4 and 7). -/
def Obligations.UndrainedResponseHoldsOnlyTheConsumer : Prop :=
  (∀ (s : State) (later : List Event), s.Inv → s.rPort ≠ [] →
    s.cReady = false ∧
    (s.schedule = .consumer :: later → step s = .next { s with schedule := later }) ∧
    (∀ count rest, s.schedule = .producer :: later → ProducerPresented s (encode (.write count) ++ rest) →
      count < immLimit → ∃ t, step s = .next t ∧ t.pLeft = count)) ∧
  (∀ (s : State) (later : List Event) (beat : Word), s.cfg.legal = true →
    (s.schedule = .presentP beat :: later → step s = .next { s with schedule := later, pPort := s.pPort ++ [beat] }) ∧
    (s.schedule = .presentC beat :: later → step s = .next { s with schedule := later, cPort := s.cPort ++ [beat] })) ∧
  ∀ (s : State) (later : List Event), s.cfg.legal = true → s.schedule = .acceptR :: later →
    (∀ oldest others, s.rPort = oldest :: others →
      s.rValid = true ∧ s.rBeat = some oldest ∧ step s = .next { s with schedule := later, rPort := others }) ∧
    (s.rPort = [] → s.rValid = false ∧ step s = .next { s with schedule := later })

/-- `SYNC` copies `HEAD` to `HEAD_C` and changes nothing else (20_memory.md R57). -/
def Obligations.SyncCopiesTheCursor : Prop :=
  ∀ (s : State) (later : List Event), s.cfg.legal = true → s.schedule = .sync :: later →
    step s = .next { s with schedule := later, headC := s.head }

/-- Agent `P` writes nothing but `RING`, `HEAD`, `P_LEFT`, `P_KEEP` and its port; agent `C` writes none of these, and neither
writes `HEAD_C` (10_state.md R34). -/
def Obligations.AgentsWriteOnlyWhatTheyOwn : Prop :=
  (∀ s t : State, s.handle .producer = .next t →
    SameConsumerPart s t ∧ t.headC = s.headC ∧ SameBuild s t ∧ t.draws = s.draws) ∧
  (∀ s t : State, s.handle .consumer = .next t → SameProducerPart s t ∧ t.headC = s.headC ∧ SameBuild s t)

/-- Neither side blocks the other (20_memory.md R68): what `P`'s step does to `P`'s part does not depend on anything of `C`'s or of
`SYNC`'s; whether `C`'s step gives a next state, and `c_ready` and the response port, do not depend on anything of `P`'s. -/
def Obligations.NeitherSideBlocksTheOther : Prop :=
  ∀ s s' : State, s'.cfg = s.cfg →
    (SameProducerPart s s' →
      (∃ t t', s.handle .producer = .next t ∧ s'.handle .producer = .next t' ∧ SameProducerPart t t') ∨
      (∃ w, s.handle .producer = .refused (.reservedEncoding .producer w) ∧
        s'.handle .producer = .refused (.reservedEncoding .producer w))) ∧
    (SameConsumerPart s s' →
      s'.cReady = s.cReady ∧ s'.rBeat = s.rBeat ∧
      ((∃ t t', s.handle .consumer = .next t ∧ s'.handle .consumer = .next t') ∨
        (∃ r, s.handle .consumer = .refused r ∧ s'.handle .consumer = .refused r)))

/-- `HEAD` moves only by a store, by exactly one modulo `N`, or by a reset of both domains: where it moves, `P` stepped inside a `WRITE`
with frames to keep and a whole frame at the port, and the slot at the old `HEAD` holds the downmixed sample; `HEAD_C` takes no value but the present
`HEAD` or, at a reset, 0; no step changes the build (10_state.md R21, R33, 20_memory.md R57, 40_sample_ring.md R112). -/
def Obligations.CursorsMoveOnlyAsTheRulesSay : Prop :=
  ∀ s t : State, step s = .next t → t.cfg = s.cfg ∧
    (t.head = s.head ∨
      (t.head = (s.head + 1) % s.cfg.n ∧ s.nextEvent.1 = .producer ∧ 0 < s.pLeft ∧ 0 < s.pKeep ∧
        ∃ l r rest, s.pTaken ++ s.pPort = l :: r :: rest ∧
          (s.Inv → t.read .ring s.head = downmix s.cfg.downmix l r)) ∨
      (t.head = 0 ∧ s.nextEvent.1 = .reset true true)) ∧
    (t.headC = s.headC ∨ (t.headC = s.head ∧ t.head = s.head ∧ s.nextEvent.1 = .sync) ∨
      (t.headC = 0 ∧ s.nextEvent.1 = .reset true true))

/-- Eventual visibility (R60): in a run in which `SYNC` fires infinitely often, if `HEAD` keeps one value from some point on,
then `HEAD_C` equals it from some point on. -/
def Obligations.FairRunsCatchUp : Prop :=
  ∀ (f : Nat → Event) (σ : Nat → State) (k h : Nat), IsRun f σ → FairToSync f → (∀ m, k ≤ m → (σ m).head = h) →
    ∃ m, k ≤ m ∧ ∀ m', m ≤ m' → (σ m').headC = h

/-- After reset (10_state.md R35): the registers, `RING` and `BINS` hold the values the spec states, both command ports are idle
and the response port is empty; the other spaces hold the draw. The reset of the model's own counters and schedule is the
model's choice (log entries 3, 8 and 9) and not part of this. -/
def Obligations.ResetValues : Prop :=
  ∀ (c : Config) (epoch i : Nat), (State.initial c epoch).head = 0 ∧ (State.initial c epoch).headC = 0 ∧
    (State.initial c epoch).pLeft = 0 ∧ (State.initial c epoch).pKeep = 0 ∧ (State.initial c epoch).sH = 0 ∧
    (State.initial c epoch).sI = c.n ∧ (State.initial c epoch).read .ring i = 0#32 ∧
    (State.initial c epoch).read .bins i = 0#32 ∧
    (∀ sp, sp ≠ .ring → sp ≠ .bins → (State.initial c epoch).read sp i = Config.scratchDraw epoch sp i) ∧
    (State.initial c epoch).cReady = true ∧ (State.initial c epoch).rValid = false ∧
    (State.initial c epoch).producerBusy = false ∧ State.reset = State.initial Config.reference 0

/-- Both resets asserted at any time lead to the reset state with a fresh draw, whatever was in progress; the beats that the host
goes on presenting are still presented. One reset alone is refused (70_reset_and_hazards.md R222). That both are one event and
that the schedule and the counters go on is the model's choice (log entry 18). -/
def Obligations.ResetAbandonsEverything : Prop :=
  ∀ (s : State) (later : List Event), s.cfg.legal = true →
    (s.schedule = .reset true true :: later →
      step s = .next { State.initial s.cfg (s.epoch + 1) with
        pPort := s.pPort, cPort := s.cPort, schedule := later, tick := s.tick, draws := s.draws }) ∧
    (s.schedule = .reset true false :: later ∨ s.schedule = .reset false true :: later →
      step s = .refused .resetsNotTogether)

/-- The reset state of every legal build meets the invariant. -/
def Obligations.ResetMeetsTheInvariant : Prop :=
  ∀ (c : Config) (epoch : Nat), c.legal = true → (State.initial c epoch).Inv

/-- Every step keeps the invariant: registers within their widths (10_state.md R21, R29), memories canonical and within their
sizes (R24, 20_memory.md R56), ports and commands in progress consistent (30_encoding.md R81, R85). The form of memory and of
the registers is the model's choice (log entries 1, 8 and 15). -/
def Obligations.StepKeepsTheInvariant : Prop :=
  ∀ s t : State, s.Inv → step s = .next t → t.Inv

/-- From a state that meets the invariant a step fails to give a next state only for the host errors of 60_exceptions.md R203, and
each only for its cause: an idle agent is presented a reserved word, an idle `C` is presented `RDBIN` with an index out of range,
or one reset comes alone (log entries 16, 17 and 18). -/
def Obligations.OnlyHostErrorsStop : Prop :=
  ∀ s : State, s.Inv → (∃ t, step s = .next t) ∨
    (s.nextEvent.1 = .producer ∧ s.pLeft = 0 ∧ ∃ w, decode .producer (s.pTaken ++ s.pPort) = .reserved w ∧
      step s = .refused (.reservedEncoding .producer w)) ∨
    (s.nextEvent.1 = .consumer ∧ s.consumerIdle = true ∧ ∃ w, decode .consumer (s.cTaken ++ s.cPort) = .reserved w ∧
      step s = .refused (.reservedEncoding .consumer w)) ∨
    (s.nextEvent.1 = .consumer ∧ s.consumerIdle = true ∧ ∃ j rest, binCount s.cfg ≤ j ∧
      decode .consumer (s.cTaken ++ s.cPort) = .done (.rdbin j) rest ∧ step s = .refused (.rdbinIndexOutOfRange j)) ∨
    ((s.nextEvent.1 = .reset true false ∨ s.nextEvent.1 = .reset false true) ∧ step s = .refused .resetsNotTogether)
end

