-- ==== Sys2Proof/Laws/Decode.lean ====
section
/-! SUPPORT. The fields of a command word, and what the decoder's helpers answer. -/

namespace Sys2Proof

/-- The opcode field of a command word whose fields fit. -/
theorem opcodeOf_commandWord {op imm : Nat} (ho : op < 256) (hi : imm < 2 ^ 24) : opcodeOf (commandWord op imm) = op := by
  simp only [opcodeOf, commandWord, BitVec.toNat_ofNat]
  omega

/-- The immediate field of a command word whose fields fit. -/
theorem immOf_commandWord {op imm : Nat} (hi : imm < 2 ^ 24) : immOf (commandWord op imm) = imm := by
  simp only [immOf, commandWord, BitVec.toNat_ofNat]
  omega

/-- A word is the command word of its two fields: they have no gap and no overlap (R83). -/
theorem commandWord_fields (w : Word) : commandWord (opcodeOf w) (immOf w) = w := by
  apply BitVec.eq_of_toNat_eq
  have := w.isLt
  simp only [commandWord, opcodeOf, immOf, BitVec.toNat_ofNat]
  omega

/-- The immediate field has 24 bits (R83). -/
theorem immOf_lt (w : Word) : immOf w < immLimit := Nat.mod_lt _ (by norm_num)

/-- Masking all but the opcode field leaves the opcode in place. -/
theorem toNat_and_opcode (w : Word) : (w &&& 0xFF000000#32).toNat = opcodeOf w * 2 ^ 24 := by
  have h : w &&& 0xFF000000#32 = (w >>> 24) <<< 24 := by
    ext i hi
    have hb : (0xFF000000#32).getLsbD i = decide (24 ≤ i) := by
      interval_cases i <;> decide
    rw [BitVec.getElem_and, BitVec.getElem_shiftLeft, BitVec.getElem_eq_testBit_toNat (0xFF000000#32)]
    rw [BitVec.getLsbD] at hb
    rw [hb]
    by_cases h24 : i < 24
    · simp [h24]
    · have h24' : 24 ≤ i := by omega
      simp [h24, h24', BitVec.getElem_ushiftRight, BitVec.getLsbD_eq_getElem, hi]
  rw [h]
  have := w.isLt
  simp only [opcodeOf, BitVec.toNat_shiftLeft, BitVec.toNat_ushiftRight, Nat.shiftLeft_eq, Nat.shiftRight_eq_div_pow]
  omega

/-- Four bytes cut from a word make it again (R51). -/
theorem wordOfBytes_wordToBytes (w : Word) :
    wordOfBytes (w.extractLsb' 0 8) (w.extractLsb' 8 8) (w.extractLsb' 16 8) (w.extractLsb' 24 8) = w := by
  apply BitVec.eq_of_toNat_eq
  have h := w.isLt
  unfold wordOfBytes
  simp only [BitVec.toNat_append, BitVec.extractLsb'_toNat, Nat.shiftRight_eq_div_pow, Nat.shiftLeft_eq]
  rw [← Nat.shiftLeft_eq, ← Nat.shiftLeft_add_eq_or_of_lt (by omega), ← Nat.shiftLeft_eq,
    ← Nat.shiftLeft_add_eq_or_of_lt (by omega), ← Nat.shiftLeft_eq, ← Nat.shiftLeft_add_eq_or_of_lt (by omega)]
  simp only [Nat.shiftLeft_eq]
  omega

/-- What the C-port's decoder still waits for is the payload of `ADVANCE`, `FRAME` or `LOGPOW`, at most two beats taken. -/
theorem length_le_of_incomplete {beats : List Word} (h : decodeConsumer beats = .incomplete) : beats.length ≤ 2 := by
  match beats with
  | [] => simp
  | [_] => simp
  | [_, _] => simp
  | w :: x :: y :: rest =>
    simp only [decodeConsumer, withOneBeat, withTwoBeats] at h
    repeat' split at h
    all_goals cases h

end Sys2Proof
end

