-- ==== Sys2Proof/Laws/Float.lean ====
section
/-! SUPPORT. Binary32 values and patterns: which magnitudes the format holds, that rounding gives one of them and leaves it
unchanged, and that unpacking undoes packing. -/

namespace Sys2Proof.Machine.Fp

/-- A magnitude, in units of `2^-149`, that binary32 holds: at most 24 significant bits. -/
def Held (m : Nat) : Prop := ∃ q e, q < 2 ^ 24 ∧ m = q * 2 ^ e

/-- A value that binary32 holds. -/
def Canonical : Fp → Prop
  | .nan => True
  | .inf _ => True
  | .fin _ m => Held m ∧ m < overflow

theorem held_zero : Held 0 := ⟨0, 0, by norm_num, by norm_num⟩

theorem held_pow (e : Nat) : Held (2 ^ e) := ⟨1, e, by norm_num, (Nat.one_mul _).symm⟩

/-- A magnitude below `2^24` units is held: all subnormals and the first normals. -/
theorem held_of_lt {m : Nat} (h : m < 2 ^ 24) : Held m := ⟨m, 0, h, by simp⟩

/-- The spacing of a magnitude divides it when the format holds it. -/
theorem spacing_dvd {m : Nat} (h : Held m) : 2 ^ (m.log2 - 23) ∣ m := by
  obtain ⟨q, e, hq, rfl⟩ := h
  rcases Nat.eq_zero_or_pos q with rfl | hpos
  · simp
  have hlog : (q * 2 ^ e).log2 - 23 ≤ e := by
    have h1 : (q * 2 ^ e).log2 < 24 + e := by
      rw [Nat.log2_lt (by positivity)]
      calc q * 2 ^ e < 2 ^ 24 * 2 ^ e := by
            exact Nat.mul_lt_mul_of_pos_right hq (by positivity)
        _ = 2 ^ (24 + e) := by rw [pow_add]
    omega
  exact Dvd.dvd.mul_left (pow_dvd_pow 2 hlog) q

theorem div_spacing_lt (x : Nat) : x / 2 ^ (x.log2 - 23) < 2 ^ 24 := by
  rcases Nat.eq_zero_or_pos x with rfl | hpos
  · simp
  rw [Nat.div_lt_iff_lt_mul (by positivity), ← pow_add]
  refine lt_of_lt_of_le (Nat.lt_log2_self (n := x)) (Nat.pow_le_pow_right (by norm_num) (by omega))

/-- The quotient that `nearest` rounds has at most 24 bits. -/
theorem quotient_lt (num den : Nat) : num / (den * spacing num den) < 2 ^ 24 := by
  unfold spacing
  rw [← Nat.div_div_eq_div_mul]
  exact div_spacing_lt _

/-- Rounding gives a magnitude that the format holds, but for overflow. -/
theorem held_nearest (num den : Nat) : Held (nearest num den) := by
  have hq := quotient_lt num den
  unfold nearest
  simp only
  split
  · rcases Nat.lt_or_ge (num / (den * spacing num den) + 1) (2 ^ 24) with h | h
    · exact ⟨_, _, h, rfl⟩
    · have : num / (den * spacing num den) + 1 = 2 ^ 24 := by omega
      rw [this]
      exact ⟨1, 24 + ((num / den).log2 - 23), by norm_num, by unfold spacing; rw [pow_add]; ring⟩
  · exact ⟨_, _, hq, rfl⟩

/-- A magnitude that the format holds is unchanged by rounding. -/
theorem nearest_held {m : Nat} (h : Held m) : nearest m 1 = m := by
  have hd := spacing_dvd h
  have hs : spacing m 1 = 2 ^ (m.log2 - 23) := by simp [spacing]
  have hpos : 0 < 2 ^ (m.log2 - 23) := by positivity
  unfold nearest
  simp only [hs, Nat.one_mul]
  rw [Nat.mod_eq_zero_of_dvd hd, if_neg (by omega)]
  exact Nat.div_mul_cancel hd

theorem canonical_ofMag {neg : Bool} {m : Nat} (h : Held m) : (ofMag neg m).Canonical := by
  unfold ofMag
  split
  · rename_i hlt
    exact ⟨h, hlt⟩
  · trivial

theorem canonical_round (neg : Bool) (num den : Nat) : (round neg num den).Canonical :=
  canonical_ofMag (held_nearest num den)

/-- A canonical magnitude is its own rounding. -/
theorem round_held {neg : Bool} {m : Nat} (h : Held m) (hlt : m < overflow) : round neg m 1 = .fin neg m := by
  simp [round, ofMag, nearest_held h, hlt]

/-! ## Every operation gives a canonical value -/

theorem canonical_zero : Canonical zero := ⟨held_zero, by simp [overflow]⟩

theorem canonical_one : Canonical one := ⟨held_pow 149, by norm_num [overflow]⟩

theorem canonical_neg {x : Fp} (h : x.Canonical) : x.neg.Canonical := by
  cases x <;> exact h

theorem canonical_add (a b : Fp) (ha : a.Canonical) (hb : b.Canonical) : (a.add b).Canonical := by
  cases a <;> cases b <;> simp only [add] <;> try trivial
  · split <;> trivial
  · split
    · exact canonical_zero
    · exact canonical_round ..

theorem canonical_sub (a b : Fp) (ha : a.Canonical) (hb : b.Canonical) : (a.sub b).Canonical :=
  canonical_add _ _ ha (canonical_neg hb)

theorem canonical_mul (a b : Fp) : (a.mul b).Canonical := by
  cases a <;> cases b <;> simp only [mul] <;> try trivial
  · split <;> trivial
  · split <;> trivial
  · exact canonical_round ..

theorem canonical_div (a b : Fp) : (a.div b).Canonical := by
  cases a <;> cases b <;> simp only [div] <;> try trivial
  · exact canonical_zero
  · split
    · split <;> trivial
    · exact canonical_round ..

theorem ofWord_canonical (w : Word) : (ofWord w).Canonical := by
  have hf : w.toNat % 2 ^ 23 < 2 ^ 23 := Nat.mod_lt _ (by norm_num)
  have he : w.toNat / 2 ^ 23 % 2 ^ 8 < 2 ^ 8 := Nat.mod_lt _ (by norm_num)
  unfold ofWord
  simp only
  generalize w.toNat % 2 ^ 23 = f at hf ⊢
  generalize w.toNat / 2 ^ 23 % 2 ^ 8 = e at he ⊢
  split
  · split <;> trivial
  · split
    · refine ⟨held_of_lt (by omega), ?_⟩
      have : (2 : Nat) ^ 23 < overflow := by norm_num [overflow]
      omega
    · refine ⟨⟨2 ^ 23 + f, e - 1, by omega, rfl⟩, ?_⟩
      have h1 : 2 ^ 23 + f < 2 ^ 24 := by omega
      have h2 : (2 : Nat) ^ (e - 1) ≤ 2 ^ 253 := Nat.pow_le_pow_right (by norm_num) (by omega)
      calc (2 ^ 23 + f) * 2 ^ (e - 1) < 2 ^ 24 * 2 ^ (e - 1) := Nat.mul_lt_mul_of_pos_right h1 (by positivity)
        _ ≤ 2 ^ 24 * 2 ^ 253 := Nat.mul_le_mul_left _ h2
        _ = overflow := by norm_num [overflow]

/-! ## Packing and unpacking -/

theorem signBit_cases (neg : Bool) : signBit neg = 0 ∨ signBit neg = 2 ^ 31 := by
  cases neg <;> simp [signBit]

/-- The magnitude bits of a canonical finite value are below those of infinity. -/
theorem magBits_lt {m : Nat} (hlt : m < overflow) : magBits m < 0x7F800000 := by
  have hq := div_spacing_lt m
  have hk : m.log2 - 23 ≤ 253 := by
    rcases Nat.eq_zero_or_pos m with rfl | hpos
    · simp
    have : m.log2 < 277 := by
      rw [Nat.log2_lt (by omega)]
      exact hlt.trans_eq (by rw [overflow, ← pow_add])
    omega
  unfold magBits
  have : (m.log2 - 23) * 2 ^ 23 ≤ 253 * 2 ^ 23 := Nat.mul_le_mul_right _ hk
  omega

/-- The exponent and fraction fields of a canonical magnitude give it back. -/
theorem unpack_magBits {m : Nat} (h : Held m) (hlt : m < overflow) :
    (if magBits m / 2 ^ 23 = 0 then magBits m % 2 ^ 23
      else (2 ^ 23 + magBits m % 2 ^ 23) * 2 ^ (magBits m / 2 ^ 23 - 1)) = m := by
  have hd := Nat.div_mul_cancel (spacing_dvd h)
  have hq := div_spacing_lt m
  unfold magBits
  rcases Nat.eq_zero_or_pos (m.log2 - 23) with hk | hk
  · rw [hk] at hq ⊢
    simp only [Nat.zero_mul, Nat.zero_add, pow_zero, Nat.div_one] at hq ⊢
    split
    · omega
    · have : m / 2 ^ 23 = 1 := by omega
      rw [this]
      simp only [Nat.sub_self, pow_zero, Nat.mul_one]
      omega
  · have hm : m ≠ 0 := by rintro rfl; simp at hk
    have hlo : 2 ^ 23 ≤ m / 2 ^ (m.log2 - 23) := by
      rw [Nat.le_div_iff_mul_le (by positivity), ← pow_add]
      have : 23 + (m.log2 - 23) = m.log2 := by omega
      rw [this]
      exact Nat.log2_self_le hm
    generalize hk' : m.log2 - 23 = k at *
    generalize hq' : m / 2 ^ k = q at *
    have h1 : (k * 2 ^ 23 + q) / 2 ^ 23 = k + 1 := by omega
    have h2 : (k * 2 ^ 23 + q) % 2 ^ 23 = q - 2 ^ 23 := by omega
    rw [h1, h2, if_neg (by omega), Nat.add_sub_cancel, Nat.add_sub_cancel' hlo]
    exact hd

/-- The pattern of a canonical finite value, as a number. -/
theorem toNat_toWord_fin (q : BitVec 23) (neg : Bool) {m : Nat} (hlt : m < overflow) :
    ((fin neg m).toWord q).toNat = signBit neg + magBits m := by
  have hb := magBits_lt hlt
  rcases signBit_cases neg with h0 | h0 <;>
    simp only [toWord, BitVec.toNat_ofNat, h0] <;> exact Nat.mod_eq_of_lt (by omega)

/-- Unpacking undoes packing, for a canonical value that is no NaN, whatever the draw. -/
theorem ofWord_toWord (q : BitVec 23) {x : Fp} (h : x.Canonical) (hn : x ≠ .nan) : ofWord (x.toWord q) = x := by
  cases x with
  | nan => exact absurd rfl hn
  | inf neg =>
    cases neg
    · exact (by decide : ofWord (BitVec.ofNat 32 (signBit false + 0x7F800000)) = .inf false)
    · exact (by decide : ofWord (BitVec.ofNat 32 (signBit true + 0x7F800000)) = .inf true)
  | fin neg m =>
    obtain ⟨hh, hlt⟩ := h
    have hb := magBits_lt hlt
    have hu := unpack_magBits hh hlt
    have hw := toNat_toWord_fin q neg hlt
    have hsign : decide (2 ^ 31 ≤ signBit neg + magBits m) = neg := by
      cases neg <;> simp [signBit] <;> omega
    have hfrac : (signBit neg + magBits m) % 2 ^ 23 = magBits m % 2 ^ 23 := by
      rcases signBit_cases neg with h0 | h0 <;> omega
    have hexp : (signBit neg + magBits m) / 2 ^ 23 % 2 ^ 8 = magBits m / 2 ^ 23 := by
      rcases signBit_cases neg with h0 | h0 <;> omega
    unfold ofWord
    rw [hw, hsign, hfrac, hexp, if_neg (by omega)]
    split at hu <;> rename_i he
    · rw [if_pos he, hu]
    · rw [if_neg he, hu]

theorem isNaN_iff (x : Fp) : x.isNaN = true ↔ x = .nan := by cases x <;> simp [isNaN]

/-- A drawn NaN is a quiet NaN: unpacking gives a NaN whatever the sign and payload. -/
theorem ofWord_quietNaN (q : BitVec 23) : ofWord (quietNaN q) = .nan := by
  have hq := q.isLt
  have hw : (quietNaN q).toNat = q.toNat / 2 ^ 22 * 2 ^ 31 + 0x7FC00000 + q.toNat % 2 ^ 22 := by
    simp only [quietNaN, BitVec.toNat_ofNat]
    apply Nat.mod_eq_of_lt
    omega
  unfold ofWord
  simp only [hw]
  rw [if_pos (by omega), if_neg (by omega)]

/-- Unpacking undoes packing, NaNs taken as one value, whatever the draw. -/
theorem ofWord_toWord_canonical (q : BitVec 23) {x : Fp} (h : x.Canonical) : ofWord (x.toWord q) = x := by
  by_cases hn : x = .nan
  · subst hn
    exact ofWord_quietNaN q
  · exact ofWord_toWord q h hn

/-- Packing undoes unpacking of every pattern that is no NaN. -/
theorem toWord_ofWord (q : BitVec 23) (w : Word) (h : ofWord w ≠ .nan) : (ofWord w).toWord q = w := by
  have hw := w.isLt
  apply BitVec.eq_of_toNat_eq
  unfold ofWord at h ⊢
  simp only at h ⊢
  have hneg : signBit (decide (2^31 ≤ w.toNat)) = w.toNat / 2^31 * 2^31 := by
    by_cases h' : 2^31 ≤ w.toNat
    · rw [decide_eq_true h', signBit, if_pos rfl]; omega
    · rw [decide_eq_false h', signBit, if_neg (by simp)]; omega
  split
  · rename_i he
    rw [if_pos he] at h
    split
    · rename_i hf
      simp only [toWord, BitVec.toNat_ofNat, hneg]
      omega
    · rename_i hf; rw [if_neg hf] at h; contradiction
  · rename_i he
    split
    · rename_i h0
      simp only [toWord, BitVec.toNat_ofNat, hneg]
      have : magBits (w.toNat % 2^23) = w.toNat % 2^23 := by
        unfold magBits
        have : (w.toNat % 2^23).log2 - 23 = 0 := by
          have : (w.toNat % 2^23).log2 < 24 := by
            rcases Nat.eq_zero_or_pos (w.toNat % 2^23) with h | h
            · rw [h]; simp
            · rw [Nat.log2_lt (by omega)]; omega
          omega
        rw [this]; simp
      rw [this]; omega
    · rename_i h0
      simp only [toWord, BitVec.toNat_ofNat, hneg]
      set e := w.toNat / 2^23 % 2^8
      set f := w.toNat % 2^23
      have hf : f < 2^23 := Nat.mod_lt _ (by norm_num)
      have hl : ((2^23 + f) * 2^(e-1)).log2 = 23 + (e-1) := by
        rw [Nat.log2_eq_iff (by positivity)]
        constructor
        · rw [pow_add]; exact Nat.mul_le_mul_right _ (by omega)
        · rw [show 23 + (e-1) + 1 = 24 + (e-1) by omega, pow_add]; exact Nat.mul_lt_mul_of_pos_right (by omega) (by positivity)
      have : magBits ((2^23 + f) * 2^(e-1)) = e * 2^23 + f := by
        unfold magBits
        rw [hl, show 23 + (e-1) - 23 = e - 1 by omega, Nat.mul_div_cancel _ (by positivity)]
        omega
      rw [this]; omega

/-- A canonical value is what some pattern stands for. -/
theorem exists_word {x : Fp} (h : x.Canonical) : ∃ w, ofWord w = x := ⟨x.toWord 0, ofWord_toWord_canonical 0 h⟩

end Sys2Proof.Machine.Fp
end

