-- ==== Sys2Proof/Laws/State.lean ====
section
/-! SUPPORT. One lemma for each field under each shared update of the state, so that no proof unfolds a record update. The
updates through a memory space (`withMem`, `write`, `writeAll`) leave every register and port alone whichever the space. -/

namespace Sys2Proof.Machine

variable (s : State)

/-! ## Updates of a memory space -/

@[simp] theorem withMem_cfg (sp : Space) (m : Mem) : (s.withMem sp m).cfg = s.cfg := by cases sp <;> rfl
@[simp] theorem withMem_head (sp : Space) (m : Mem) : (s.withMem sp m).head = s.head := by cases sp <;> rfl
@[simp] theorem withMem_headC (sp : Space) (m : Mem) : (s.withMem sp m).headC = s.headC := by cases sp <;> rfl
@[simp] theorem withMem_pLeft (sp : Space) (m : Mem) : (s.withMem sp m).pLeft = s.pLeft := by cases sp <;> rfl
@[simp] theorem withMem_pKeep (sp : Space) (m : Mem) : (s.withMem sp m).pKeep = s.pKeep := by cases sp <;> rfl
@[simp] theorem withMem_sH (sp : Space) (m : Mem) : (s.withMem sp m).sH = s.sH := by cases sp <;> rfl
@[simp] theorem withMem_sI (sp : Space) (m : Mem) : (s.withMem sp m).sI = s.sI := by cases sp <;> rfl
@[simp] theorem withMem_frameDt (sp : Space) (m : Mem) : (s.withMem sp m).frameDt = s.frameDt := by cases sp <;> rfl
@[simp] theorem withMem_pPort (sp : Space) (m : Mem) : (s.withMem sp m).pPort = s.pPort := by cases sp <;> rfl
@[simp] theorem withMem_pTaken (sp : Space) (m : Mem) : (s.withMem sp m).pTaken = s.pTaken := by cases sp <;> rfl
@[simp] theorem withMem_cPort (sp : Space) (m : Mem) : (s.withMem sp m).cPort = s.cPort := by cases sp <;> rfl
@[simp] theorem withMem_cTaken (sp : Space) (m : Mem) : (s.withMem sp m).cTaken = s.cTaken := by cases sp <;> rfl
@[simp] theorem withMem_rPort (sp : Space) (m : Mem) : (s.withMem sp m).rPort = s.rPort := by cases sp <;> rfl
@[simp] theorem withMem_schedule (sp : Space) (m : Mem) : (s.withMem sp m).schedule = s.schedule := by cases sp <;> rfl
@[simp] theorem withMem_tick (sp : Space) (m : Mem) : (s.withMem sp m).tick = s.tick := by cases sp <;> rfl
@[simp] theorem withMem_epoch (sp : Space) (m : Mem) : (s.withMem sp m).epoch = s.epoch := by cases sp <;> rfl
@[simp] theorem withMem_draws (sp : Space) (m : Mem) : (s.withMem sp m).draws = s.draws := by cases sp <;> rfl

@[simp] theorem write_cfg (sp : Space) (i : Nat) (w : Word) : (s.write sp i w).cfg = s.cfg := by cases sp <;> rfl
@[simp] theorem write_head (sp : Space) (i : Nat) (w : Word) : (s.write sp i w).head = s.head := by cases sp <;> rfl
@[simp] theorem write_headC (sp : Space) (i : Nat) (w : Word) : (s.write sp i w).headC = s.headC := by cases sp <;> rfl
@[simp] theorem write_pLeft (sp : Space) (i : Nat) (w : Word) : (s.write sp i w).pLeft = s.pLeft := by cases sp <;> rfl
@[simp] theorem write_pKeep (sp : Space) (i : Nat) (w : Word) : (s.write sp i w).pKeep = s.pKeep := by cases sp <;> rfl
@[simp] theorem write_sH (sp : Space) (i : Nat) (w : Word) : (s.write sp i w).sH = s.sH := by cases sp <;> rfl
@[simp] theorem write_sI (sp : Space) (i : Nat) (w : Word) : (s.write sp i w).sI = s.sI := by cases sp <;> rfl
@[simp] theorem write_frameDt (sp : Space) (i : Nat) (w : Word) : (s.write sp i w).frameDt = s.frameDt := by cases sp <;> rfl
@[simp] theorem write_pPort (sp : Space) (i : Nat) (w : Word) : (s.write sp i w).pPort = s.pPort := by cases sp <;> rfl
@[simp] theorem write_pTaken (sp : Space) (i : Nat) (w : Word) : (s.write sp i w).pTaken = s.pTaken := by cases sp <;> rfl
@[simp] theorem write_cPort (sp : Space) (i : Nat) (w : Word) : (s.write sp i w).cPort = s.cPort := by cases sp <;> rfl
@[simp] theorem write_cTaken (sp : Space) (i : Nat) (w : Word) : (s.write sp i w).cTaken = s.cTaken := by cases sp <;> rfl
@[simp] theorem write_rPort (sp : Space) (i : Nat) (w : Word) : (s.write sp i w).rPort = s.rPort := by cases sp <;> rfl
@[simp] theorem write_schedule (sp : Space) (i : Nat) (w : Word) : (s.write sp i w).schedule = s.schedule := by cases sp <;> rfl
@[simp] theorem write_tick (sp : Space) (i : Nat) (w : Word) : (s.write sp i w).tick = s.tick := by cases sp <;> rfl
@[simp] theorem write_epoch (sp : Space) (i : Nat) (w : Word) : (s.write sp i w).epoch = s.epoch := by cases sp <;> rfl
@[simp] theorem write_draws (sp : Space) (i : Nat) (w : Word) : (s.write sp i w).draws = s.draws := by cases sp <;> rfl

@[simp] theorem writeAll_cfg (sp : Space) (n : Nat) (g : Nat → Word) : (s.writeAll sp n g).cfg = s.cfg := by cases sp <;> rfl
@[simp] theorem writeAll_head (sp : Space) (n : Nat) (g : Nat → Word) : (s.writeAll sp n g).head = s.head := by cases sp <;> rfl
@[simp] theorem writeAll_headC (sp : Space) (n : Nat) (g : Nat → Word) : (s.writeAll sp n g).headC = s.headC := by cases sp <;> rfl
@[simp] theorem writeAll_pLeft (sp : Space) (n : Nat) (g : Nat → Word) : (s.writeAll sp n g).pLeft = s.pLeft := by cases sp <;> rfl
@[simp] theorem writeAll_pKeep (sp : Space) (n : Nat) (g : Nat → Word) : (s.writeAll sp n g).pKeep = s.pKeep := by cases sp <;> rfl
@[simp] theorem writeAll_sH (sp : Space) (n : Nat) (g : Nat → Word) : (s.writeAll sp n g).sH = s.sH := by cases sp <;> rfl
@[simp] theorem writeAll_sI (sp : Space) (n : Nat) (g : Nat → Word) : (s.writeAll sp n g).sI = s.sI := by cases sp <;> rfl
@[simp] theorem writeAll_frameDt (sp : Space) (n : Nat) (g : Nat → Word) : (s.writeAll sp n g).frameDt = s.frameDt := by cases sp <;> rfl
@[simp] theorem writeAll_pPort (sp : Space) (n : Nat) (g : Nat → Word) : (s.writeAll sp n g).pPort = s.pPort := by cases sp <;> rfl
@[simp] theorem writeAll_pTaken (sp : Space) (n : Nat) (g : Nat → Word) : (s.writeAll sp n g).pTaken = s.pTaken := by cases sp <;> rfl
@[simp] theorem writeAll_cPort (sp : Space) (n : Nat) (g : Nat → Word) : (s.writeAll sp n g).cPort = s.cPort := by cases sp <;> rfl
@[simp] theorem writeAll_cTaken (sp : Space) (n : Nat) (g : Nat → Word) : (s.writeAll sp n g).cTaken = s.cTaken := by cases sp <;> rfl
@[simp] theorem writeAll_rPort (sp : Space) (n : Nat) (g : Nat → Word) : (s.writeAll sp n g).rPort = s.rPort := by cases sp <;> rfl
@[simp] theorem writeAll_schedule (sp : Space) (n : Nat) (g : Nat → Word) : (s.writeAll sp n g).schedule = s.schedule := by cases sp <;> rfl
@[simp] theorem writeAll_tick (sp : Space) (n : Nat) (g : Nat → Word) : (s.writeAll sp n g).tick = s.tick := by cases sp <;> rfl
@[simp] theorem writeAll_epoch (sp : Space) (n : Nat) (g : Nat → Word) : (s.writeAll sp n g).epoch = s.epoch := by cases sp <;> rfl
@[simp] theorem writeAll_draws (sp : Space) (n : Nat) (g : Nat → Word) : (s.writeAll sp n g).draws = s.draws := by cases sp <;> rfl

@[simp] theorem mem_withMem (sp : Space) (m : Mem) : (s.withMem sp m).mem sp = m := by cases sp <;> rfl
theorem mem_withMem_ne {sp sp' : Space} (h : sp' ≠ sp) (m : Mem) : (s.withMem sp m).mem sp' = s.mem sp' := by
  cases sp <;> cases sp' <;> first | rfl | exact absurd rfl h

@[simp] theorem mem_ring : s.mem .ring = s.ring := rfl
@[simp] theorem mem_snap : s.mem .snap = s.snap := rfl
@[simp] theorem mem_frm : s.mem .frm = s.frm := rfl
@[simp] theorem mem_spec : s.mem .spec = s.spec := rfl
@[simp] theorem mem_tgt : s.mem .tgt = s.tgt := rfl
@[simp] theorem mem_bins : s.mem .bins = s.bins := rfl

/-! ## nextDraws -/

@[simp] theorem nextDraws_cfg : (s.nextDraws).cfg = s.cfg := rfl
@[simp] theorem nextDraws_head : (s.nextDraws).head = s.head := rfl
@[simp] theorem nextDraws_headC : (s.nextDraws).headC = s.headC := rfl
@[simp] theorem nextDraws_pLeft : (s.nextDraws).pLeft = s.pLeft := rfl
@[simp] theorem nextDraws_pKeep : (s.nextDraws).pKeep = s.pKeep := rfl
@[simp] theorem nextDraws_sH : (s.nextDraws).sH = s.sH := rfl
@[simp] theorem nextDraws_sI : (s.nextDraws).sI = s.sI := rfl
@[simp] theorem nextDraws_ring : (s.nextDraws).ring = s.ring := rfl
@[simp] theorem nextDraws_snap : (s.nextDraws).snap = s.snap := rfl
@[simp] theorem nextDraws_frm : (s.nextDraws).frm = s.frm := rfl
@[simp] theorem nextDraws_spec : (s.nextDraws).spec = s.spec := rfl
@[simp] theorem nextDraws_tgt : (s.nextDraws).tgt = s.tgt := rfl
@[simp] theorem nextDraws_bins : (s.nextDraws).bins = s.bins := rfl
@[simp] theorem nextDraws_frameDt : (s.nextDraws).frameDt = s.frameDt := rfl
@[simp] theorem nextDraws_pPort : (s.nextDraws).pPort = s.pPort := rfl
@[simp] theorem nextDraws_pTaken : (s.nextDraws).pTaken = s.pTaken := rfl
@[simp] theorem nextDraws_cPort : (s.nextDraws).cPort = s.cPort := rfl
@[simp] theorem nextDraws_cTaken : (s.nextDraws).cTaken = s.cTaken := rfl
@[simp] theorem nextDraws_rPort : (s.nextDraws).rPort = s.rPort := rfl
@[simp] theorem nextDraws_schedule : (s.nextDraws).schedule = s.schedule := rfl
@[simp] theorem nextDraws_tick : (s.nextDraws).tick = s.tick := rfl
@[simp] theorem nextDraws_epoch : (s.nextDraws).epoch = s.epoch := rfl
@[simp] theorem nextDraws_draws : (s.nextDraws).draws = s.draws + 1 := rfl

/-! ## storeSample -/

@[simp] theorem storeSample_cfg (v : Word) : (s.storeSample v).cfg = s.cfg := rfl
@[simp] theorem storeSample_head (v : Word) : (s.storeSample v).head = (s.head + 1) % s.cfg.n := rfl
@[simp] theorem storeSample_headC (v : Word) : (s.storeSample v).headC = s.headC := rfl
@[simp] theorem storeSample_pLeft (v : Word) : (s.storeSample v).pLeft = s.pLeft := rfl
@[simp] theorem storeSample_pKeep (v : Word) : (s.storeSample v).pKeep = s.pKeep := rfl
@[simp] theorem storeSample_sH (v : Word) : (s.storeSample v).sH = s.sH := rfl
@[simp] theorem storeSample_sI (v : Word) : (s.storeSample v).sI = s.sI := rfl
@[simp] theorem storeSample_ring (v : Word) : (s.storeSample v).ring = s.ring.write (some 0) s.head v := rfl
@[simp] theorem storeSample_snap (v : Word) : (s.storeSample v).snap = s.snap := rfl
@[simp] theorem storeSample_frm (v : Word) : (s.storeSample v).frm = s.frm := rfl
@[simp] theorem storeSample_spec (v : Word) : (s.storeSample v).spec = s.spec := rfl
@[simp] theorem storeSample_tgt (v : Word) : (s.storeSample v).tgt = s.tgt := rfl
@[simp] theorem storeSample_bins (v : Word) : (s.storeSample v).bins = s.bins := rfl
@[simp] theorem storeSample_frameDt (v : Word) : (s.storeSample v).frameDt = s.frameDt := rfl
@[simp] theorem storeSample_pPort (v : Word) : (s.storeSample v).pPort = s.pPort := rfl
@[simp] theorem storeSample_pTaken (v : Word) : (s.storeSample v).pTaken = s.pTaken := rfl
@[simp] theorem storeSample_cPort (v : Word) : (s.storeSample v).cPort = s.cPort := rfl
@[simp] theorem storeSample_cTaken (v : Word) : (s.storeSample v).cTaken = s.cTaken := rfl
@[simp] theorem storeSample_rPort (v : Word) : (s.storeSample v).rPort = s.rPort := rfl
@[simp] theorem storeSample_schedule (v : Word) : (s.storeSample v).schedule = s.schedule := rfl
@[simp] theorem storeSample_tick (v : Word) : (s.storeSample v).tick = s.tick := rfl
@[simp] theorem storeSample_epoch (v : Word) : (s.storeSample v).epoch = s.epoch := rfl
@[simp] theorem storeSample_draws (v : Word) : (s.storeSample v).draws = s.draws := rfl

/-! ## latch -/

@[simp] theorem latch_cfg : (s.latch).cfg = s.cfg := rfl
@[simp] theorem latch_head : (s.latch).head = s.head := rfl
@[simp] theorem latch_headC : (s.latch).headC = s.headC := rfl
@[simp] theorem latch_pLeft : (s.latch).pLeft = s.pLeft := rfl
@[simp] theorem latch_pKeep : (s.latch).pKeep = s.pKeep := rfl
@[simp] theorem latch_sH : (s.latch).sH = s.headC := rfl
@[simp] theorem latch_sI : (s.latch).sI = 0 := rfl
@[simp] theorem latch_ring : (s.latch).ring = s.ring := rfl
@[simp] theorem latch_snap : (s.latch).snap = s.snap := rfl
@[simp] theorem latch_frm : (s.latch).frm = s.frm := rfl
@[simp] theorem latch_spec : (s.latch).spec = s.spec := rfl
@[simp] theorem latch_tgt : (s.latch).tgt = s.tgt := rfl
@[simp] theorem latch_bins : (s.latch).bins = s.bins := rfl
@[simp] theorem latch_frameDt : (s.latch).frameDt = s.frameDt := rfl
@[simp] theorem latch_pPort : (s.latch).pPort = s.pPort := rfl
@[simp] theorem latch_pTaken : (s.latch).pTaken = s.pTaken := rfl
@[simp] theorem latch_cPort : (s.latch).cPort = s.cPort := rfl
@[simp] theorem latch_cTaken : (s.latch).cTaken = s.cTaken := rfl
@[simp] theorem latch_rPort : (s.latch).rPort = s.rPort := rfl
@[simp] theorem latch_schedule : (s.latch).schedule = s.schedule := rfl
@[simp] theorem latch_tick : (s.latch).tick = s.tick := rfl
@[simp] theorem latch_epoch : (s.latch).epoch = s.epoch := rfl
@[simp] theorem latch_draws : (s.latch).draws = s.draws := rfl

/-! ## readSlot -/

@[simp] theorem readSlot_cfg : (s.readSlot).cfg = s.cfg := rfl
@[simp] theorem readSlot_head : (s.readSlot).head = s.head := rfl
@[simp] theorem readSlot_headC : (s.readSlot).headC = s.headC := rfl
@[simp] theorem readSlot_pLeft : (s.readSlot).pLeft = s.pLeft := rfl
@[simp] theorem readSlot_pKeep : (s.readSlot).pKeep = s.pKeep := rfl
@[simp] theorem readSlot_sH : (s.readSlot).sH = s.sH := rfl
@[simp] theorem readSlot_sI : (s.readSlot).sI = s.sI + 1 := rfl
@[simp] theorem readSlot_ring : (s.readSlot).ring = s.ring := rfl
@[simp] theorem readSlot_snap : (s.readSlot).snap = s.snap.write none s.sI (s.read .ring (s.snapSlot s.sI)) := rfl
@[simp] theorem readSlot_frm : (s.readSlot).frm = s.frm := rfl
@[simp] theorem readSlot_spec : (s.readSlot).spec = s.spec := rfl
@[simp] theorem readSlot_tgt : (s.readSlot).tgt = s.tgt := rfl
@[simp] theorem readSlot_bins : (s.readSlot).bins = s.bins := rfl
@[simp] theorem readSlot_frameDt : (s.readSlot).frameDt = s.frameDt := rfl
@[simp] theorem readSlot_pPort : (s.readSlot).pPort = s.pPort := rfl
@[simp] theorem readSlot_pTaken : (s.readSlot).pTaken = s.pTaken := rfl
@[simp] theorem readSlot_cPort : (s.readSlot).cPort = s.cPort := rfl
@[simp] theorem readSlot_cTaken : (s.readSlot).cTaken = s.cTaken := rfl
@[simp] theorem readSlot_rPort : (s.readSlot).rPort = s.rPort := rfl
@[simp] theorem readSlot_schedule : (s.readSlot).schedule = s.schedule := rfl
@[simp] theorem readSlot_tick : (s.readSlot).tick = s.tick := rfl
@[simp] theorem readSlot_epoch : (s.readSlot).epoch = s.epoch := rfl
@[simp] theorem readSlot_draws : (s.readSlot).draws = s.draws := rfl

/-! ## respond -/

@[simp] theorem respond_cfg (w : Word) (last : Bool) : (s.respond w last).cfg = s.cfg := rfl
@[simp] theorem respond_head (w : Word) (last : Bool) : (s.respond w last).head = s.head := rfl
@[simp] theorem respond_headC (w : Word) (last : Bool) : (s.respond w last).headC = s.headC := rfl
@[simp] theorem respond_pLeft (w : Word) (last : Bool) : (s.respond w last).pLeft = s.pLeft := rfl
@[simp] theorem respond_pKeep (w : Word) (last : Bool) : (s.respond w last).pKeep = s.pKeep := rfl
@[simp] theorem respond_sH (w : Word) (last : Bool) : (s.respond w last).sH = s.sH := rfl
@[simp] theorem respond_sI (w : Word) (last : Bool) : (s.respond w last).sI = s.sI := rfl
@[simp] theorem respond_ring (w : Word) (last : Bool) : (s.respond w last).ring = s.ring := rfl
@[simp] theorem respond_snap (w : Word) (last : Bool) : (s.respond w last).snap = s.snap := rfl
@[simp] theorem respond_frm (w : Word) (last : Bool) : (s.respond w last).frm = s.frm := rfl
@[simp] theorem respond_spec (w : Word) (last : Bool) : (s.respond w last).spec = s.spec := rfl
@[simp] theorem respond_tgt (w : Word) (last : Bool) : (s.respond w last).tgt = s.tgt := rfl
@[simp] theorem respond_bins (w : Word) (last : Bool) : (s.respond w last).bins = s.bins := rfl
@[simp] theorem respond_frameDt (w : Word) (last : Bool) : (s.respond w last).frameDt = s.frameDt := rfl
@[simp] theorem respond_pPort (w : Word) (last : Bool) : (s.respond w last).pPort = s.pPort := rfl
@[simp] theorem respond_pTaken (w : Word) (last : Bool) : (s.respond w last).pTaken = s.pTaken := rfl
@[simp] theorem respond_cPort (w : Word) (last : Bool) : (s.respond w last).cPort = s.cPort := rfl
@[simp] theorem respond_cTaken (w : Word) (last : Bool) : (s.respond w last).cTaken = s.cTaken := rfl
@[simp] theorem respond_rPort (w : Word) (last : Bool) : (s.respond w last).rPort = s.rPort ++ [⟨w, last⟩] := rfl
@[simp] theorem respond_schedule (w : Word) (last : Bool) : (s.respond w last).schedule = s.schedule := rfl
@[simp] theorem respond_tick (w : Word) (last : Bool) : (s.respond w last).tick = s.tick := rfl
@[simp] theorem respond_epoch (w : Word) (last : Bool) : (s.respond w last).epoch = s.epoch := rfl
@[simp] theorem respond_draws (w : Word) (last : Bool) : (s.respond w last).draws = s.draws := rfl

/-! ## respondAll -/

@[simp] theorem respondAll_cfg (n : Nat) (g : Nat → Word) : (s.respondAll n g).cfg = s.cfg := rfl
@[simp] theorem respondAll_head (n : Nat) (g : Nat → Word) : (s.respondAll n g).head = s.head := rfl
@[simp] theorem respondAll_headC (n : Nat) (g : Nat → Word) : (s.respondAll n g).headC = s.headC := rfl
@[simp] theorem respondAll_pLeft (n : Nat) (g : Nat → Word) : (s.respondAll n g).pLeft = s.pLeft := rfl
@[simp] theorem respondAll_pKeep (n : Nat) (g : Nat → Word) : (s.respondAll n g).pKeep = s.pKeep := rfl
@[simp] theorem respondAll_sH (n : Nat) (g : Nat → Word) : (s.respondAll n g).sH = s.sH := rfl
@[simp] theorem respondAll_sI (n : Nat) (g : Nat → Word) : (s.respondAll n g).sI = s.sI := rfl
@[simp] theorem respondAll_ring (n : Nat) (g : Nat → Word) : (s.respondAll n g).ring = s.ring := rfl
@[simp] theorem respondAll_snap (n : Nat) (g : Nat → Word) : (s.respondAll n g).snap = s.snap := rfl
@[simp] theorem respondAll_frm (n : Nat) (g : Nat → Word) : (s.respondAll n g).frm = s.frm := rfl
@[simp] theorem respondAll_spec (n : Nat) (g : Nat → Word) : (s.respondAll n g).spec = s.spec := rfl
@[simp] theorem respondAll_tgt (n : Nat) (g : Nat → Word) : (s.respondAll n g).tgt = s.tgt := rfl
@[simp] theorem respondAll_bins (n : Nat) (g : Nat → Word) : (s.respondAll n g).bins = s.bins := rfl
@[simp] theorem respondAll_frameDt (n : Nat) (g : Nat → Word) : (s.respondAll n g).frameDt = s.frameDt := rfl
@[simp] theorem respondAll_pPort (n : Nat) (g : Nat → Word) : (s.respondAll n g).pPort = s.pPort := rfl
@[simp] theorem respondAll_pTaken (n : Nat) (g : Nat → Word) : (s.respondAll n g).pTaken = s.pTaken := rfl
@[simp] theorem respondAll_cPort (n : Nat) (g : Nat → Word) : (s.respondAll n g).cPort = s.cPort := rfl
@[simp] theorem respondAll_cTaken (n : Nat) (g : Nat → Word) : (s.respondAll n g).cTaken = s.cTaken := rfl
@[simp] theorem respondAll_rPort (n : Nat) (g : Nat → Word) : (s.respondAll n g).rPort = s.rPort ++ (List.range n).map fun i => ⟨g i, decide (i + 1 = n)⟩ := rfl
@[simp] theorem respondAll_schedule (n : Nat) (g : Nat → Word) : (s.respondAll n g).schedule = s.schedule := rfl
@[simp] theorem respondAll_tick (n : Nat) (g : Nat → Word) : (s.respondAll n g).tick = s.tick := rfl
@[simp] theorem respondAll_epoch (n : Nat) (g : Nat → Word) : (s.respondAll n g).epoch = s.epoch := rfl
@[simp] theorem respondAll_draws (n : Nat) (g : Nat → Word) : (s.respondAll n g).draws = s.draws := rfl

/-! ## acceptResponse -/

@[simp] theorem acceptResponse_cfg : (s.acceptResponse).cfg = s.cfg := rfl
@[simp] theorem acceptResponse_head : (s.acceptResponse).head = s.head := rfl
@[simp] theorem acceptResponse_headC : (s.acceptResponse).headC = s.headC := rfl
@[simp] theorem acceptResponse_pLeft : (s.acceptResponse).pLeft = s.pLeft := rfl
@[simp] theorem acceptResponse_pKeep : (s.acceptResponse).pKeep = s.pKeep := rfl
@[simp] theorem acceptResponse_sH : (s.acceptResponse).sH = s.sH := rfl
@[simp] theorem acceptResponse_sI : (s.acceptResponse).sI = s.sI := rfl
@[simp] theorem acceptResponse_ring : (s.acceptResponse).ring = s.ring := rfl
@[simp] theorem acceptResponse_snap : (s.acceptResponse).snap = s.snap := rfl
@[simp] theorem acceptResponse_frm : (s.acceptResponse).frm = s.frm := rfl
@[simp] theorem acceptResponse_spec : (s.acceptResponse).spec = s.spec := rfl
@[simp] theorem acceptResponse_tgt : (s.acceptResponse).tgt = s.tgt := rfl
@[simp] theorem acceptResponse_bins : (s.acceptResponse).bins = s.bins := rfl
@[simp] theorem acceptResponse_frameDt : (s.acceptResponse).frameDt = s.frameDt := rfl
@[simp] theorem acceptResponse_pPort : (s.acceptResponse).pPort = s.pPort := rfl
@[simp] theorem acceptResponse_pTaken : (s.acceptResponse).pTaken = s.pTaken := rfl
@[simp] theorem acceptResponse_cPort : (s.acceptResponse).cPort = s.cPort := rfl
@[simp] theorem acceptResponse_cTaken : (s.acceptResponse).cTaken = s.cTaken := rfl
@[simp] theorem acceptResponse_rPort : (s.acceptResponse).rPort = s.rPort.tail := rfl
@[simp] theorem acceptResponse_schedule : (s.acceptResponse).schedule = s.schedule := rfl
@[simp] theorem acceptResponse_tick : (s.acceptResponse).tick = s.tick := rfl
@[simp] theorem acceptResponse_epoch : (s.acceptResponse).epoch = s.epoch := rfl
@[simp] theorem acceptResponse_draws : (s.acceptResponse).draws = s.draws := rfl

/-! ## synchronise -/

@[simp] theorem synchronise_cfg : (s.synchronise).cfg = s.cfg := rfl
@[simp] theorem synchronise_head : (s.synchronise).head = s.head := rfl
@[simp] theorem synchronise_headC : (s.synchronise).headC = s.head := rfl
@[simp] theorem synchronise_pLeft : (s.synchronise).pLeft = s.pLeft := rfl
@[simp] theorem synchronise_pKeep : (s.synchronise).pKeep = s.pKeep := rfl
@[simp] theorem synchronise_sH : (s.synchronise).sH = s.sH := rfl
@[simp] theorem synchronise_sI : (s.synchronise).sI = s.sI := rfl
@[simp] theorem synchronise_ring : (s.synchronise).ring = s.ring := rfl
@[simp] theorem synchronise_snap : (s.synchronise).snap = s.snap := rfl
@[simp] theorem synchronise_frm : (s.synchronise).frm = s.frm := rfl
@[simp] theorem synchronise_spec : (s.synchronise).spec = s.spec := rfl
@[simp] theorem synchronise_tgt : (s.synchronise).tgt = s.tgt := rfl
@[simp] theorem synchronise_bins : (s.synchronise).bins = s.bins := rfl
@[simp] theorem synchronise_frameDt : (s.synchronise).frameDt = s.frameDt := rfl
@[simp] theorem synchronise_pPort : (s.synchronise).pPort = s.pPort := rfl
@[simp] theorem synchronise_pTaken : (s.synchronise).pTaken = s.pTaken := rfl
@[simp] theorem synchronise_cPort : (s.synchronise).cPort = s.cPort := rfl
@[simp] theorem synchronise_cTaken : (s.synchronise).cTaken = s.cTaken := rfl
@[simp] theorem synchronise_rPort : (s.synchronise).rPort = s.rPort := rfl
@[simp] theorem synchronise_schedule : (s.synchronise).schedule = s.schedule := rfl
@[simp] theorem synchronise_tick : (s.synchronise).tick = s.tick := rfl
@[simp] theorem synchronise_epoch : (s.synchronise).epoch = s.epoch := rfl
@[simp] theorem synchronise_draws : (s.synchronise).draws = s.draws := rfl

/-! ## resetBoth -/

@[simp] theorem resetBoth_cfg : (s.resetBoth).cfg = s.cfg := rfl
@[simp] theorem resetBoth_head : (s.resetBoth).head = 0 := rfl
@[simp] theorem resetBoth_headC : (s.resetBoth).headC = 0 := rfl
@[simp] theorem resetBoth_pLeft : (s.resetBoth).pLeft = 0 := rfl
@[simp] theorem resetBoth_pKeep : (s.resetBoth).pKeep = 0 := rfl
@[simp] theorem resetBoth_sH : (s.resetBoth).sH = 0 := rfl
@[simp] theorem resetBoth_sI : (s.resetBoth).sI = s.cfg.n := rfl
@[simp] theorem resetBoth_ring : (s.resetBoth).ring = [] := rfl
@[simp] theorem resetBoth_snap : (s.resetBoth).snap = [] := rfl
@[simp] theorem resetBoth_frm : (s.resetBoth).frm = [] := rfl
@[simp] theorem resetBoth_spec : (s.resetBoth).spec = [] := rfl
@[simp] theorem resetBoth_tgt : (s.resetBoth).tgt = [] := rfl
@[simp] theorem resetBoth_bins : (s.resetBoth).bins = [] := rfl
@[simp] theorem resetBoth_frameDt : (s.resetBoth).frameDt = none := rfl
@[simp] theorem resetBoth_pPort : (s.resetBoth).pPort = s.pPort := rfl
@[simp] theorem resetBoth_pTaken : (s.resetBoth).pTaken = [] := rfl
@[simp] theorem resetBoth_cPort : (s.resetBoth).cPort = s.cPort := rfl
@[simp] theorem resetBoth_cTaken : (s.resetBoth).cTaken = [] := rfl
@[simp] theorem resetBoth_rPort : (s.resetBoth).rPort = [] := rfl
@[simp] theorem resetBoth_schedule : (s.resetBoth).schedule = s.schedule := rfl
@[simp] theorem resetBoth_tick : (s.resetBoth).tick = s.tick := rfl
@[simp] theorem resetBoth_epoch : (s.resetBoth).epoch = s.epoch + 1 := rfl
@[simp] theorem resetBoth_draws : (s.resetBoth).draws = s.draws := rfl

/-! ## windowStage -/

@[simp] theorem windowStage_cfg : (s.windowStage).cfg = s.cfg := rfl
@[simp] theorem windowStage_head : (s.windowStage).head = s.head := rfl
@[simp] theorem windowStage_headC : (s.windowStage).headC = s.headC := rfl
@[simp] theorem windowStage_pLeft : (s.windowStage).pLeft = s.pLeft := rfl
@[simp] theorem windowStage_pKeep : (s.windowStage).pKeep = s.pKeep := rfl
@[simp] theorem windowStage_sH : (s.windowStage).sH = s.sH := rfl
@[simp] theorem windowStage_sI : (s.windowStage).sI = s.sI := rfl
@[simp] theorem windowStage_ring : (s.windowStage).ring = s.ring := rfl
@[simp] theorem windowStage_snap : (s.windowStage).snap = s.snap := rfl
@[simp] theorem windowStage_frm : (s.windowStage).frm = Mem.ofWords none s.cfg.n fun i => ((s.readFp .snap i).mul (hann s.cfg i)).toWord (s.nanDraw i) := rfl
@[simp] theorem windowStage_spec : (s.windowStage).spec = s.spec := rfl
@[simp] theorem windowStage_tgt : (s.windowStage).tgt = s.tgt := rfl
@[simp] theorem windowStage_bins : (s.windowStage).bins = s.bins := rfl
@[simp] theorem windowStage_frameDt : (s.windowStage).frameDt = s.frameDt := rfl
@[simp] theorem windowStage_pPort : (s.windowStage).pPort = s.pPort := rfl
@[simp] theorem windowStage_pTaken : (s.windowStage).pTaken = s.pTaken := rfl
@[simp] theorem windowStage_cPort : (s.windowStage).cPort = s.cPort := rfl
@[simp] theorem windowStage_cTaken : (s.windowStage).cTaken = s.cTaken := rfl
@[simp] theorem windowStage_rPort : (s.windowStage).rPort = s.rPort := rfl
@[simp] theorem windowStage_schedule : (s.windowStage).schedule = s.schedule := rfl
@[simp] theorem windowStage_tick : (s.windowStage).tick = s.tick := rfl
@[simp] theorem windowStage_epoch : (s.windowStage).epoch = s.epoch := rfl
@[simp] theorem windowStage_draws : (s.windowStage).draws = s.draws + 1 := rfl

/-! ## fftStage -/

@[simp] theorem fftStage_cfg : (s.fftStage).cfg = s.cfg := rfl
@[simp] theorem fftStage_head : (s.fftStage).head = s.head := rfl
@[simp] theorem fftStage_headC : (s.fftStage).headC = s.headC := rfl
@[simp] theorem fftStage_pLeft : (s.fftStage).pLeft = s.pLeft := rfl
@[simp] theorem fftStage_pKeep : (s.fftStage).pKeep = s.pKeep := rfl
@[simp] theorem fftStage_sH : (s.fftStage).sH = s.sH := rfl
@[simp] theorem fftStage_sI : (s.fftStage).sI = s.sI := rfl
@[simp] theorem fftStage_ring : (s.fftStage).ring = s.ring := rfl
@[simp] theorem fftStage_snap : (s.fftStage).snap = s.snap := rfl
@[simp] theorem fftStage_frm : (s.fftStage).frm = s.frm := rfl
@[simp] theorem fftStage_spec : (s.fftStage).spec = Mem.ofWords none (2 * s.cfg.n) (specWord (fftRec s.cfg (s.readFp .frm) s.cfg.log2n 0 1) s.nanDraw) := rfl
@[simp] theorem fftStage_tgt : (s.fftStage).tgt = s.tgt := rfl
@[simp] theorem fftStage_bins : (s.fftStage).bins = s.bins := rfl
@[simp] theorem fftStage_frameDt : (s.fftStage).frameDt = s.frameDt := rfl
@[simp] theorem fftStage_pPort : (s.fftStage).pPort = s.pPort := rfl
@[simp] theorem fftStage_pTaken : (s.fftStage).pTaken = s.pTaken := rfl
@[simp] theorem fftStage_cPort : (s.fftStage).cPort = s.cPort := rfl
@[simp] theorem fftStage_cTaken : (s.fftStage).cTaken = s.cTaken := rfl
@[simp] theorem fftStage_rPort : (s.fftStage).rPort = s.rPort := rfl
@[simp] theorem fftStage_schedule : (s.fftStage).schedule = s.schedule := rfl
@[simp] theorem fftStage_tick : (s.fftStage).tick = s.tick := rfl
@[simp] theorem fftStage_epoch : (s.fftStage).epoch = s.epoch := rfl
@[simp] theorem fftStage_draws : (s.fftStage).draws = s.draws + 1 := rfl

/-! ## bucketizeStage -/

@[simp] theorem bucketizeStage_cfg : (s.bucketizeStage).cfg = s.cfg := rfl
@[simp] theorem bucketizeStage_head : (s.bucketizeStage).head = s.head := rfl
@[simp] theorem bucketizeStage_headC : (s.bucketizeStage).headC = s.headC := rfl
@[simp] theorem bucketizeStage_pLeft : (s.bucketizeStage).pLeft = s.pLeft := rfl
@[simp] theorem bucketizeStage_pKeep : (s.bucketizeStage).pKeep = s.pKeep := rfl
@[simp] theorem bucketizeStage_sH : (s.bucketizeStage).sH = s.sH := rfl
@[simp] theorem bucketizeStage_sI : (s.bucketizeStage).sI = s.sI := rfl
@[simp] theorem bucketizeStage_ring : (s.bucketizeStage).ring = s.ring := rfl
@[simp] theorem bucketizeStage_snap : (s.bucketizeStage).snap = s.snap := rfl
@[simp] theorem bucketizeStage_frm : (s.bucketizeStage).frm = s.frm := rfl
@[simp] theorem bucketizeStage_spec : (s.bucketizeStage).spec = s.spec := rfl
@[simp] theorem bucketizeStage_tgt : (s.bucketizeStage).tgt = Mem.ofWords none (binCount s.cfg) fun j => ((s.bucketValues.getD j .zero).div s.denominator).toWord (s.nanDraw j) := rfl
@[simp] theorem bucketizeStage_bins : (s.bucketizeStage).bins = s.bins := rfl
@[simp] theorem bucketizeStage_frameDt : (s.bucketizeStage).frameDt = s.frameDt := rfl
@[simp] theorem bucketizeStage_pPort : (s.bucketizeStage).pPort = s.pPort := rfl
@[simp] theorem bucketizeStage_pTaken : (s.bucketizeStage).pTaken = s.pTaken := rfl
@[simp] theorem bucketizeStage_cPort : (s.bucketizeStage).cPort = s.cPort := rfl
@[simp] theorem bucketizeStage_cTaken : (s.bucketizeStage).cTaken = s.cTaken := rfl
@[simp] theorem bucketizeStage_rPort : (s.bucketizeStage).rPort = s.rPort := rfl
@[simp] theorem bucketizeStage_schedule : (s.bucketizeStage).schedule = s.schedule := rfl
@[simp] theorem bucketizeStage_tick : (s.bucketizeStage).tick = s.tick := rfl
@[simp] theorem bucketizeStage_epoch : (s.bucketizeStage).epoch = s.epoch := rfl
@[simp] theorem bucketizeStage_draws : (s.bucketizeStage).draws = s.draws + 1 := rfl

/-! ## advanceStage -/

@[simp] theorem advanceStage_cfg (dt : Word) : (s.advanceStage dt).cfg = s.cfg := rfl
@[simp] theorem advanceStage_head (dt : Word) : (s.advanceStage dt).head = s.head := rfl
@[simp] theorem advanceStage_headC (dt : Word) : (s.advanceStage dt).headC = s.headC := rfl
@[simp] theorem advanceStage_pLeft (dt : Word) : (s.advanceStage dt).pLeft = s.pLeft := rfl
@[simp] theorem advanceStage_pKeep (dt : Word) : (s.advanceStage dt).pKeep = s.pKeep := rfl
@[simp] theorem advanceStage_sH (dt : Word) : (s.advanceStage dt).sH = s.sH := rfl
@[simp] theorem advanceStage_sI (dt : Word) : (s.advanceStage dt).sI = s.sI := rfl
@[simp] theorem advanceStage_ring (dt : Word) : (s.advanceStage dt).ring = s.ring := rfl
@[simp] theorem advanceStage_snap (dt : Word) : (s.advanceStage dt).snap = s.snap := rfl
@[simp] theorem advanceStage_frm (dt : Word) : (s.advanceStage dt).frm = s.frm := rfl
@[simp] theorem advanceStage_spec (dt : Word) : (s.advanceStage dt).spec = s.spec := rfl
@[simp] theorem advanceStage_tgt (dt : Word) : (s.advanceStage dt).tgt = s.tgt := rfl
@[simp] theorem advanceStage_bins (dt : Word) : (s.advanceStage dt).bins = Mem.ofWords (some 0) (binCount s.cfg) fun j =>
    (smooth (Fp.ofWord s.cfg.rate) (Fp.ofWord dt) (s.readFp .bins j) (s.readFp .tgt j)).toWord (s.nanDraw j) := rfl
@[simp] theorem advanceStage_frameDt (dt : Word) : (s.advanceStage dt).frameDt = s.frameDt := rfl
@[simp] theorem advanceStage_pPort (dt : Word) : (s.advanceStage dt).pPort = s.pPort := rfl
@[simp] theorem advanceStage_pTaken (dt : Word) : (s.advanceStage dt).pTaken = s.pTaken := rfl
@[simp] theorem advanceStage_cPort (dt : Word) : (s.advanceStage dt).cPort = s.cPort := rfl
@[simp] theorem advanceStage_cTaken (dt : Word) : (s.advanceStage dt).cTaken = s.cTaken := rfl
@[simp] theorem advanceStage_rPort (dt : Word) : (s.advanceStage dt).rPort = s.rPort := rfl
@[simp] theorem advanceStage_schedule (dt : Word) : (s.advanceStage dt).schedule = s.schedule := rfl
@[simp] theorem advanceStage_tick (dt : Word) : (s.advanceStage dt).tick = s.tick := rfl
@[simp] theorem advanceStage_epoch (dt : Word) : (s.advanceStage dt).epoch = s.epoch := rfl
@[simp] theorem advanceStage_draws (dt : Word) : (s.advanceStage dt).draws = s.draws + 1 := rfl

/-! ## presentP -/

@[simp] theorem presentP_cfg (b : Word) : (s.presentP b).cfg = s.cfg := rfl
@[simp] theorem presentP_head (b : Word) : (s.presentP b).head = s.head := rfl
@[simp] theorem presentP_headC (b : Word) : (s.presentP b).headC = s.headC := rfl
@[simp] theorem presentP_pLeft (b : Word) : (s.presentP b).pLeft = s.pLeft := rfl
@[simp] theorem presentP_pKeep (b : Word) : (s.presentP b).pKeep = s.pKeep := rfl
@[simp] theorem presentP_sH (b : Word) : (s.presentP b).sH = s.sH := rfl
@[simp] theorem presentP_sI (b : Word) : (s.presentP b).sI = s.sI := rfl
@[simp] theorem presentP_ring (b : Word) : (s.presentP b).ring = s.ring := rfl
@[simp] theorem presentP_snap (b : Word) : (s.presentP b).snap = s.snap := rfl
@[simp] theorem presentP_frm (b : Word) : (s.presentP b).frm = s.frm := rfl
@[simp] theorem presentP_spec (b : Word) : (s.presentP b).spec = s.spec := rfl
@[simp] theorem presentP_tgt (b : Word) : (s.presentP b).tgt = s.tgt := rfl
@[simp] theorem presentP_bins (b : Word) : (s.presentP b).bins = s.bins := rfl
@[simp] theorem presentP_frameDt (b : Word) : (s.presentP b).frameDt = s.frameDt := rfl
@[simp] theorem presentP_pPort (b : Word) : (s.presentP b).pPort = s.pPort ++ [b] := rfl
@[simp] theorem presentP_pTaken (b : Word) : (s.presentP b).pTaken = s.pTaken := rfl
@[simp] theorem presentP_cPort (b : Word) : (s.presentP b).cPort = s.cPort := rfl
@[simp] theorem presentP_cTaken (b : Word) : (s.presentP b).cTaken = s.cTaken := rfl
@[simp] theorem presentP_rPort (b : Word) : (s.presentP b).rPort = s.rPort := rfl
@[simp] theorem presentP_schedule (b : Word) : (s.presentP b).schedule = s.schedule := rfl
@[simp] theorem presentP_tick (b : Word) : (s.presentP b).tick = s.tick := rfl
@[simp] theorem presentP_epoch (b : Word) : (s.presentP b).epoch = s.epoch := rfl
@[simp] theorem presentP_draws (b : Word) : (s.presentP b).draws = s.draws := rfl

/-! ## presentC -/

@[simp] theorem presentC_cfg (b : Word) : (s.presentC b).cfg = s.cfg := rfl
@[simp] theorem presentC_head (b : Word) : (s.presentC b).head = s.head := rfl
@[simp] theorem presentC_headC (b : Word) : (s.presentC b).headC = s.headC := rfl
@[simp] theorem presentC_pLeft (b : Word) : (s.presentC b).pLeft = s.pLeft := rfl
@[simp] theorem presentC_pKeep (b : Word) : (s.presentC b).pKeep = s.pKeep := rfl
@[simp] theorem presentC_sH (b : Word) : (s.presentC b).sH = s.sH := rfl
@[simp] theorem presentC_sI (b : Word) : (s.presentC b).sI = s.sI := rfl
@[simp] theorem presentC_ring (b : Word) : (s.presentC b).ring = s.ring := rfl
@[simp] theorem presentC_snap (b : Word) : (s.presentC b).snap = s.snap := rfl
@[simp] theorem presentC_frm (b : Word) : (s.presentC b).frm = s.frm := rfl
@[simp] theorem presentC_spec (b : Word) : (s.presentC b).spec = s.spec := rfl
@[simp] theorem presentC_tgt (b : Word) : (s.presentC b).tgt = s.tgt := rfl
@[simp] theorem presentC_bins (b : Word) : (s.presentC b).bins = s.bins := rfl
@[simp] theorem presentC_frameDt (b : Word) : (s.presentC b).frameDt = s.frameDt := rfl
@[simp] theorem presentC_pPort (b : Word) : (s.presentC b).pPort = s.pPort := rfl
@[simp] theorem presentC_pTaken (b : Word) : (s.presentC b).pTaken = s.pTaken := rfl
@[simp] theorem presentC_cPort (b : Word) : (s.presentC b).cPort = s.cPort ++ [b] := rfl
@[simp] theorem presentC_cTaken (b : Word) : (s.presentC b).cTaken = s.cTaken := rfl
@[simp] theorem presentC_rPort (b : Word) : (s.presentC b).rPort = s.rPort := rfl
@[simp] theorem presentC_schedule (b : Word) : (s.presentC b).schedule = s.schedule := rfl
@[simp] theorem presentC_tick (b : Word) : (s.presentC b).tick = s.tick := rfl
@[simp] theorem presentC_epoch (b : Word) : (s.presentC b).epoch = s.epoch := rfl
@[simp] theorem presentC_draws (b : Word) : (s.presentC b).draws = s.draws := rfl

/-! ## The frame step, whichever branch it takes -/

@[simp] theorem frameStep_cfg (l r : Word) : (s.frameStep l r).cfg = s.cfg := by unfold State.frameStep; split <;> rfl
@[simp] theorem frameStep_headC (l r : Word) : (s.frameStep l r).headC = s.headC := by unfold State.frameStep; split <;> rfl
@[simp] theorem frameStep_sH (l r : Word) : (s.frameStep l r).sH = s.sH := by unfold State.frameStep; split <;> rfl
@[simp] theorem frameStep_sI (l r : Word) : (s.frameStep l r).sI = s.sI := by unfold State.frameStep; split <;> rfl
@[simp] theorem frameStep_snap (l r : Word) : (s.frameStep l r).snap = s.snap := by unfold State.frameStep; split <;> rfl
@[simp] theorem frameStep_frm (l r : Word) : (s.frameStep l r).frm = s.frm := by unfold State.frameStep; split <;> rfl
@[simp] theorem frameStep_spec (l r : Word) : (s.frameStep l r).spec = s.spec := by unfold State.frameStep; split <;> rfl
@[simp] theorem frameStep_tgt (l r : Word) : (s.frameStep l r).tgt = s.tgt := by unfold State.frameStep; split <;> rfl
@[simp] theorem frameStep_bins (l r : Word) : (s.frameStep l r).bins = s.bins := by unfold State.frameStep; split <;> rfl
@[simp] theorem frameStep_frameDt (l r : Word) : (s.frameStep l r).frameDt = s.frameDt := by unfold State.frameStep; split <;> rfl
@[simp] theorem frameStep_pPort (l r : Word) : (s.frameStep l r).pPort = s.pPort := by unfold State.frameStep; split <;> rfl
@[simp] theorem frameStep_pTaken (l r : Word) : (s.frameStep l r).pTaken = s.pTaken := by unfold State.frameStep; split <;> rfl
@[simp] theorem frameStep_cPort (l r : Word) : (s.frameStep l r).cPort = s.cPort := by unfold State.frameStep; split <;> rfl
@[simp] theorem frameStep_cTaken (l r : Word) : (s.frameStep l r).cTaken = s.cTaken := by unfold State.frameStep; split <;> rfl
@[simp] theorem frameStep_rPort (l r : Word) : (s.frameStep l r).rPort = s.rPort := by unfold State.frameStep; split <;> rfl
@[simp] theorem frameStep_schedule (l r : Word) : (s.frameStep l r).schedule = s.schedule := by unfold State.frameStep; split <;> rfl
@[simp] theorem frameStep_tick (l r : Word) : (s.frameStep l r).tick = s.tick := by unfold State.frameStep; split <;> rfl
@[simp] theorem frameStep_epoch (l r : Word) : (s.frameStep l r).epoch = s.epoch := by unfold State.frameStep; split <;> rfl
@[simp] theorem frameStep_draws (l r : Word) : (s.frameStep l r).draws = s.draws := by unfold State.frameStep; split <;> rfl
@[simp] theorem frameStep_pLeft (l r : Word) : (s.frameStep l r).pLeft = s.pLeft - 1 := by unfold State.frameStep; split <;> rfl
theorem frameStep_keep (l r : Word) (h : 0 < s.pKeep) :
    s.frameStep l r = { s.storeSample (downmix s.cfg.downmix l r) with pKeep := s.pKeep - 1, pLeft := s.pLeft - 1 } := if_pos h
theorem frameStep_discard (l r : Word) (h : s.pKeep = 0) : s.frameStep l r = { s with pLeft := s.pLeft - 1 } :=
  if_neg (by omega)

/-! ## The later stages and the end of FRAME -/

/-! The stages do not look at the `dt` kept for a `FRAME`, and keep it. -/

theorem windowStage_withDt (d : Option Word) : ({ s with frameDt := d } : State).windowStage = { s.windowStage with frameDt := d } := rfl
theorem fftStage_withDt (d : Option Word) : ({ s with frameDt := d } : State).fftStage = { s.fftStage with frameDt := d } := rfl
theorem bucketizeStage_withDt (d : Option Word) :
    ({ s with frameDt := d } : State).bucketizeStage = { s.bucketizeStage with frameDt := d } := rfl
theorem advanceStage_withDt (dt : Word) (d : Option Word) :
    ({ s with frameDt := d } : State).advanceStage dt = { s.advanceStage dt with frameDt := d } := rfl
theorem laterStages_withDt (dt : Word) (d : Option Word) :
    ({ s with frameDt := d } : State).laterStages dt = { s.laterStages dt with frameDt := d } := by
  simp only [State.laterStages, windowStage_withDt, fftStage_withDt, bucketizeStage_withDt, advanceStage_withDt]

@[simp] theorem laterStages_cfg (dt : Word) : (s.laterStages dt).cfg = s.cfg :=
  (advanceStage_cfg _ _).trans ((bucketizeStage_cfg _).trans ((fftStage_cfg _).trans (windowStage_cfg s)))
@[simp] theorem laterStages_head (dt : Word) : (s.laterStages dt).head = s.head :=
  (advanceStage_head _ _).trans ((bucketizeStage_head _).trans ((fftStage_head _).trans (windowStage_head s)))
@[simp] theorem laterStages_headC (dt : Word) : (s.laterStages dt).headC = s.headC :=
  (advanceStage_headC _ _).trans ((bucketizeStage_headC _).trans ((fftStage_headC _).trans (windowStage_headC s)))
@[simp] theorem laterStages_pLeft (dt : Word) : (s.laterStages dt).pLeft = s.pLeft :=
  (advanceStage_pLeft _ _).trans ((bucketizeStage_pLeft _).trans ((fftStage_pLeft _).trans (windowStage_pLeft s)))
@[simp] theorem laterStages_pKeep (dt : Word) : (s.laterStages dt).pKeep = s.pKeep :=
  (advanceStage_pKeep _ _).trans ((bucketizeStage_pKeep _).trans ((fftStage_pKeep _).trans (windowStage_pKeep s)))
@[simp] theorem laterStages_sH (dt : Word) : (s.laterStages dt).sH = s.sH :=
  (advanceStage_sH _ _).trans ((bucketizeStage_sH _).trans ((fftStage_sH _).trans (windowStage_sH s)))
@[simp] theorem laterStages_sI (dt : Word) : (s.laterStages dt).sI = s.sI :=
  (advanceStage_sI _ _).trans ((bucketizeStage_sI _).trans ((fftStage_sI _).trans (windowStage_sI s)))
@[simp] theorem laterStages_ring (dt : Word) : (s.laterStages dt).ring = s.ring :=
  (advanceStage_ring _ _).trans ((bucketizeStage_ring _).trans ((fftStage_ring _).trans (windowStage_ring s)))
@[simp] theorem laterStages_snap (dt : Word) : (s.laterStages dt).snap = s.snap :=
  (advanceStage_snap _ _).trans ((bucketizeStage_snap _).trans ((fftStage_snap _).trans (windowStage_snap s)))
@[simp] theorem laterStages_frameDt (dt : Word) : (s.laterStages dt).frameDt = s.frameDt :=
  (advanceStage_frameDt _ _).trans ((bucketizeStage_frameDt _).trans ((fftStage_frameDt _).trans (windowStage_frameDt s)))
@[simp] theorem laterStages_pPort (dt : Word) : (s.laterStages dt).pPort = s.pPort :=
  (advanceStage_pPort _ _).trans ((bucketizeStage_pPort _).trans ((fftStage_pPort _).trans (windowStage_pPort s)))
@[simp] theorem laterStages_pTaken (dt : Word) : (s.laterStages dt).pTaken = s.pTaken :=
  (advanceStage_pTaken _ _).trans ((bucketizeStage_pTaken _).trans ((fftStage_pTaken _).trans (windowStage_pTaken s)))
@[simp] theorem laterStages_cPort (dt : Word) : (s.laterStages dt).cPort = s.cPort :=
  (advanceStage_cPort _ _).trans ((bucketizeStage_cPort _).trans ((fftStage_cPort _).trans (windowStage_cPort s)))
@[simp] theorem laterStages_cTaken (dt : Word) : (s.laterStages dt).cTaken = s.cTaken :=
  (advanceStage_cTaken _ _).trans ((bucketizeStage_cTaken _).trans ((fftStage_cTaken _).trans (windowStage_cTaken s)))
@[simp] theorem laterStages_rPort (dt : Word) : (s.laterStages dt).rPort = s.rPort :=
  (advanceStage_rPort _ _).trans ((bucketizeStage_rPort _).trans ((fftStage_rPort _).trans (windowStage_rPort s)))
@[simp] theorem laterStages_schedule (dt : Word) : (s.laterStages dt).schedule = s.schedule :=
  (advanceStage_schedule _ _).trans ((bucketizeStage_schedule _).trans ((fftStage_schedule _).trans (windowStage_schedule s)))
@[simp] theorem laterStages_tick (dt : Word) : (s.laterStages dt).tick = s.tick :=
  (advanceStage_tick _ _).trans ((bucketizeStage_tick _).trans ((fftStage_tick _).trans (windowStage_tick s)))
@[simp] theorem laterStages_epoch (dt : Word) : (s.laterStages dt).epoch = s.epoch :=
  (advanceStage_epoch _ _).trans ((bucketizeStage_epoch _).trans ((fftStage_epoch _).trans (windowStage_epoch s)))
@[simp] theorem laterStages_draws (dt : Word) : (s.laterStages dt).draws = s.draws + 4 := by simp [State.laterStages]

@[simp] theorem endFrame_cfg : s.endFrame.cfg = s.cfg := rfl
@[simp] theorem endFrame_head : s.endFrame.head = s.head := rfl
@[simp] theorem endFrame_headC : s.endFrame.headC = s.headC := rfl
@[simp] theorem endFrame_pLeft : s.endFrame.pLeft = s.pLeft := rfl
@[simp] theorem endFrame_pKeep : s.endFrame.pKeep = s.pKeep := rfl
@[simp] theorem endFrame_sH : s.endFrame.sH = s.sH := rfl
@[simp] theorem endFrame_sI : s.endFrame.sI = s.sI := rfl
@[simp] theorem endFrame_ring : s.endFrame.ring = s.ring := rfl
@[simp] theorem endFrame_snap : s.endFrame.snap = s.snap := rfl
@[simp] theorem endFrame_frm : s.endFrame.frm = s.frm := rfl
@[simp] theorem endFrame_spec : s.endFrame.spec = s.spec := rfl
@[simp] theorem endFrame_tgt : s.endFrame.tgt = s.tgt := rfl
@[simp] theorem endFrame_bins : s.endFrame.bins = s.bins := rfl
@[simp] theorem endFrame_pPort : s.endFrame.pPort = s.pPort := rfl
@[simp] theorem endFrame_pTaken : s.endFrame.pTaken = s.pTaken := rfl
@[simp] theorem endFrame_cPort : s.endFrame.cPort = s.cPort := rfl
@[simp] theorem endFrame_cTaken : s.endFrame.cTaken = s.cTaken := rfl
@[simp] theorem endFrame_schedule : s.endFrame.schedule = s.schedule := rfl
@[simp] theorem endFrame_tick : s.endFrame.tick = s.tick := rfl
@[simp] theorem endFrame_epoch : s.endFrame.epoch = s.epoch := rfl
@[simp] theorem endFrame_draws : s.endFrame.draws = s.draws := rfl
@[simp] theorem endFrame_frameDt : s.endFrame.frameDt = none := rfl
@[simp] theorem endFrame_rPort : s.endFrame.rPort =
    s.rPort ++ (List.range (binCount s.cfg)).map fun i => ⟨s.read .bins i, decide (i + 1 = binCount s.cfg)⟩ := rfl

@[simp] theorem frameTail_cfg (dt : Word) : (s.frameTail dt).cfg = s.cfg :=
  (endFrame_cfg _).trans (laterStages_cfg s dt)
@[simp] theorem frameTail_head (dt : Word) : (s.frameTail dt).head = s.head :=
  (endFrame_head _).trans (laterStages_head s dt)
@[simp] theorem frameTail_headC (dt : Word) : (s.frameTail dt).headC = s.headC :=
  (endFrame_headC _).trans (laterStages_headC s dt)
@[simp] theorem frameTail_pLeft (dt : Word) : (s.frameTail dt).pLeft = s.pLeft :=
  (endFrame_pLeft _).trans (laterStages_pLeft s dt)
@[simp] theorem frameTail_pKeep (dt : Word) : (s.frameTail dt).pKeep = s.pKeep :=
  (endFrame_pKeep _).trans (laterStages_pKeep s dt)
@[simp] theorem frameTail_sH (dt : Word) : (s.frameTail dt).sH = s.sH :=
  (endFrame_sH _).trans (laterStages_sH s dt)
@[simp] theorem frameTail_sI (dt : Word) : (s.frameTail dt).sI = s.sI :=
  (endFrame_sI _).trans (laterStages_sI s dt)
@[simp] theorem frameTail_ring (dt : Word) : (s.frameTail dt).ring = s.ring :=
  (endFrame_ring _).trans (laterStages_ring s dt)
@[simp] theorem frameTail_snap (dt : Word) : (s.frameTail dt).snap = s.snap :=
  (endFrame_snap _).trans (laterStages_snap s dt)
@[simp] theorem frameTail_pPort (dt : Word) : (s.frameTail dt).pPort = s.pPort :=
  (endFrame_pPort _).trans (laterStages_pPort s dt)
@[simp] theorem frameTail_pTaken (dt : Word) : (s.frameTail dt).pTaken = s.pTaken :=
  (endFrame_pTaken _).trans (laterStages_pTaken s dt)
@[simp] theorem frameTail_cPort (dt : Word) : (s.frameTail dt).cPort = s.cPort :=
  (endFrame_cPort _).trans (laterStages_cPort s dt)
@[simp] theorem frameTail_cTaken (dt : Word) : (s.frameTail dt).cTaken = s.cTaken :=
  (endFrame_cTaken _).trans (laterStages_cTaken s dt)
@[simp] theorem frameTail_schedule (dt : Word) : (s.frameTail dt).schedule = s.schedule :=
  (endFrame_schedule _).trans (laterStages_schedule s dt)
@[simp] theorem frameTail_tick (dt : Word) : (s.frameTail dt).tick = s.tick :=
  (endFrame_tick _).trans (laterStages_tick s dt)
@[simp] theorem frameTail_epoch (dt : Word) : (s.frameTail dt).epoch = s.epoch :=
  (endFrame_epoch _).trans (laterStages_epoch s dt)
@[simp] theorem frameTail_frameDt (dt : Word) : (s.frameTail dt).frameDt = none := rfl

/-! ## The next event -/

@[simp] theorem nextEvent_cfg : s.nextEvent.2.cfg = s.cfg := by unfold State.nextEvent; split <;> rfl
@[simp] theorem nextEvent_head : s.nextEvent.2.head = s.head := by unfold State.nextEvent; split <;> rfl
@[simp] theorem nextEvent_headC : s.nextEvent.2.headC = s.headC := by unfold State.nextEvent; split <;> rfl
@[simp] theorem nextEvent_pLeft : s.nextEvent.2.pLeft = s.pLeft := by unfold State.nextEvent; split <;> rfl
@[simp] theorem nextEvent_pKeep : s.nextEvent.2.pKeep = s.pKeep := by unfold State.nextEvent; split <;> rfl
@[simp] theorem nextEvent_sH : s.nextEvent.2.sH = s.sH := by unfold State.nextEvent; split <;> rfl
@[simp] theorem nextEvent_sI : s.nextEvent.2.sI = s.sI := by unfold State.nextEvent; split <;> rfl
@[simp] theorem nextEvent_ring : s.nextEvent.2.ring = s.ring := by unfold State.nextEvent; split <;> rfl
@[simp] theorem nextEvent_snap : s.nextEvent.2.snap = s.snap := by unfold State.nextEvent; split <;> rfl
@[simp] theorem nextEvent_frm : s.nextEvent.2.frm = s.frm := by unfold State.nextEvent; split <;> rfl
@[simp] theorem nextEvent_spec : s.nextEvent.2.spec = s.spec := by unfold State.nextEvent; split <;> rfl
@[simp] theorem nextEvent_tgt : s.nextEvent.2.tgt = s.tgt := by unfold State.nextEvent; split <;> rfl
@[simp] theorem nextEvent_bins : s.nextEvent.2.bins = s.bins := by unfold State.nextEvent; split <;> rfl
@[simp] theorem nextEvent_frameDt : s.nextEvent.2.frameDt = s.frameDt := by unfold State.nextEvent; split <;> rfl
@[simp] theorem nextEvent_pPort : s.nextEvent.2.pPort = s.pPort := by unfold State.nextEvent; split <;> rfl
@[simp] theorem nextEvent_pTaken : s.nextEvent.2.pTaken = s.pTaken := by unfold State.nextEvent; split <;> rfl
@[simp] theorem nextEvent_cPort : s.nextEvent.2.cPort = s.cPort := by unfold State.nextEvent; split <;> rfl
@[simp] theorem nextEvent_cTaken : s.nextEvent.2.cTaken = s.cTaken := by unfold State.nextEvent; split <;> rfl
@[simp] theorem nextEvent_rPort : s.nextEvent.2.rPort = s.rPort := by unfold State.nextEvent; split <;> rfl
@[simp] theorem nextEvent_epoch : s.nextEvent.2.epoch = s.epoch := by unfold State.nextEvent; split <;> rfl
@[simp] theorem nextEvent_draws : s.nextEvent.2.draws = s.draws := by unfold State.nextEvent; split <;> rfl
theorem nextEvent_cons {e : Event} {rest : List Event} (h : s.schedule = e :: rest) :
    s.nextEvent = (e, { s with schedule := rest }) := by unfold State.nextEvent; rw [h]
theorem nextEvent_nil (h : s.schedule = []) :
    s.nextEvent = (Config.freeEvent s.tick, { s with tick := s.tick + 1 }) := by unfold State.nextEvent; rw [h]

end Sys2Proof.Machine
end

