-- ==== Sys2Proof/Laws/Memory.lean ====
section
/-! SUPPORT. What the memory operations do: a read after a write gives the word written, a write leaves every other index and
every other space alone, and every operation keeps the canonical form. -/

namespace Sys2Proof.Machine

/-! ## Listed words -/

theorem find?_insert_same (m : Mem) (a : Nat) (w : Word) : (m.insert a w).find? a = some w := by
  induction m with
  | nil => simp [Mem.insert, Mem.find?]
  | cons x rest ih =>
    obtain ⟨k, v⟩ := x
    by_cases hlt : k < a
    · simp [Mem.insert, Mem.find?, hlt, Nat.ne_of_lt hlt, ih]
    · by_cases heq : k = a <;> simp [Mem.insert, Mem.find?, hlt, heq]

theorem find?_insert_ne (m : Mem) {a b : Nat} (h : b ≠ a) (w : Word) : (m.insert a w).find? b = m.find? b := by
  induction m with
  | nil => simp [Mem.insert, Mem.find?, Ne.symm h]
  | cons x rest ih =>
    obtain ⟨k, v⟩ := x
    by_cases hlt : k < a
    · simp [Mem.insert, Mem.find?, hlt, ih]
    · by_cases heq : k = a
      · subst heq
        simp [Mem.insert, Mem.find?, Ne.symm h]
      · simp [Mem.insert, Mem.find?, hlt, heq, Ne.symm h]

theorem find?_erase_ne (m : Mem) {a b : Nat} (h : b ≠ a) : (m.erase a).find? b = m.find? b := by
  induction m with
  | nil => rfl
  | cons x rest ih =>
    obtain ⟨k, v⟩ := x
    by_cases heq : k = a
    · subst heq
      simp [Mem.erase, Mem.find?, Ne.symm h]
    · simp [Mem.erase, Mem.find?, heq, ih]

/-- An index below every listed one is not listed. -/
theorem find?_eq_none (m : Mem) {a : Nat} (h : ∀ x ∈ m, a < x.1) : m.find? a = none := by
  induction m with
  | nil => rfl
  | cons x rest ih =>
    obtain ⟨k, v⟩ := x
    have hk : k ≠ a := Nat.ne_of_gt (h (k, v) (by simp))
    simp only [Mem.find?, hk, if_false]
    exact ih fun y hy => h y (by simp [hy])

theorem find?_erase_same (m : Mem) (a : Nat) (h : m.Pairwise fun x y => x.1 < y.1) : (m.erase a).find? a = none := by
  induction m with
  | nil => rfl
  | cons x rest ih =>
    obtain ⟨k, v⟩ := x
    rw [List.pairwise_cons] at h
    by_cases heq : k = a
    · subst heq
      simpa [Mem.erase] using find?_eq_none rest h.1
    · simp [Mem.erase, Mem.find?, heq, ih h.2]

/-! ## The canonical form -/

/-- The canonical form, in words. -/
theorem wf_iff (u : Option Word) (n : Nat) (m : Mem) :
    m.wf u n = true ↔ (m.Pairwise fun x y => x.1 < y.1) ∧ ∀ x ∈ m, x.1 < n ∧ u ≠ some x.2 := by
  simp [Mem.wf]

theorem mem_insert_cases {m : Mem} {a : Nat} {w : Word} {x : Nat × Word} (h : x ∈ m.insert a w) :
    x = (a, w) ∨ x ∈ m := by
  induction m with
  | nil => simpa [Mem.insert] using h
  | cons y rest ih =>
    obtain ⟨k, v⟩ := y
    simp only [Mem.insert] at h
    split at h
    · rcases List.mem_cons.1 h with h | h
      · exact .inr (by simp [h])
      · exact (ih h).imp_right (List.mem_cons_of_mem _)
    · split at h
      · exact (List.mem_cons.1 h).imp_right (List.mem_cons_of_mem _)
      · exact List.mem_cons.1 h

theorem mem_of_mem_erase {m : Mem} {a : Nat} {x : Nat × Word} (h : x ∈ m.erase a) : x ∈ m := by
  induction m with
  | nil => simp [Mem.erase] at h
  | cons y rest ih =>
    obtain ⟨k, v⟩ := y
    simp only [Mem.erase] at h
    split at h
    · exact List.mem_cons_of_mem _ h
    · rcases List.mem_cons.1 h with h | h
      · simp [h]
      · exact List.mem_cons_of_mem _ (ih h)

theorem pairwise_insert {m : Mem} (a : Nat) (w : Word) (h : m.Pairwise fun x y => x.1 < y.1) :
    (m.insert a w).Pairwise fun x y => x.1 < y.1 := by
  induction m with
  | nil => simp [Mem.insert]
  | cons y rest ih =>
    obtain ⟨k, v⟩ := y
    have hh := h
    rw [List.pairwise_cons] at h
    simp only [Mem.insert]
    split
    · rename_i hlt
      refine List.pairwise_cons.2 ⟨fun x hx => ?_, ih h.2⟩
      rcases mem_insert_cases hx with rfl | hx
      · exact hlt
      · exact h.1 x hx
    · split
      · rename_i heq
        subst heq
        exact List.pairwise_cons.2 ⟨h.1, h.2⟩
      · refine List.pairwise_cons.2 ⟨fun x hx => ?_, hh⟩
        rcases List.mem_cons.1 hx with rfl | hx
        · simp only; omega
        · have := h.1 x hx
          simp only at this ⊢; omega

theorem pairwise_erase {m : Mem} (a : Nat) (h : m.Pairwise fun x y => x.1 < y.1) :
    (m.erase a).Pairwise fun x y => x.1 < y.1 := by
  induction m with
  | nil => exact h
  | cons y rest ih =>
    obtain ⟨k, v⟩ := y
    rw [List.pairwise_cons] at h
    simp only [Mem.erase]
    split
    · exact h.2
    · exact List.pairwise_cons.2 ⟨fun x hx => h.1 x (mem_of_mem_erase hx), ih h.2⟩

/-- A write keeps the canonical form. -/
theorem wf_write {u : Option Word} {n : Nat} {m : Mem} {a : Nat} (w : Word) (ha : a < n) (h : m.wf u n = true) :
    (m.write u a w).wf u n = true := by
  rw [wf_iff] at h ⊢
  unfold Mem.write
  split
  · exact ⟨pairwise_erase a h.1, fun x hx => h.2 x (mem_of_mem_erase hx)⟩
  · rename_i hu
    refine ⟨pairwise_insert a w h.1, fun x hx => ?_⟩
    rcases mem_insert_cases hx with rfl | hx
    · exact ⟨ha, hu⟩
    · exact h.2 x hx

theorem mem_ofWords {u : Option Word} {n : Nat} {f : Nat → Word} {x : Nat × Word} :
    x ∈ Mem.ofWords u n f ↔ x.1 < n ∧ x.2 = f x.1 ∧ u ≠ some x.2 := by
  obtain ⟨k, v⟩ := x
  simp only [Mem.ofWords, List.mem_filterMap, List.mem_range]
  constructor
  · rintro ⟨i, hi, h⟩
    split at h
    · cases h
    · rename_i hu
      cases h
      exact ⟨hi, rfl, hu⟩
  · rintro ⟨hk, rfl, hu⟩
    exact ⟨k, hk, by rw [if_neg hu]⟩

/-- A whole-space write gives the canonical form. -/
theorem wf_ofWords (u : Option Word) (n : Nat) (f : Nat → Word) : (Mem.ofWords u n f).wf u n = true := by
  rw [wf_iff]
  refine ⟨?_, fun x hx => ⟨(mem_ofWords.1 hx).1, (mem_ofWords.1 hx).2.2⟩⟩
  refine List.Pairwise.filterMap _ (fun i j hij x hx y hy => ?_) List.pairwise_lt_range
  split at hx
  · cases hx
  · split at hy
    · cases hy
    · cases hx
      cases hy
      exact hij

/-- In a canonical memory a listed entry is found. -/
theorem find?_of_mem {m : Mem} {a : Nat} {w : Word} (h : m.Pairwise fun x y => x.1 < y.1) (hm : (a, w) ∈ m) :
    m.find? a = some w := by
  induction m with
  | nil => cases hm
  | cons y rest ih =>
    obtain ⟨k, v⟩ := y
    rw [List.pairwise_cons] at h
    rcases List.mem_cons.1 hm with heq | hm
    · cases heq
      simp [Mem.find?]
    · have : k < a := h.1 (a, w) hm
      simp [Mem.find?, Nat.ne_of_lt this, ih h.2 hm]

theorem mem_of_find? {m : Mem} {a : Nat} {w : Word} (h : m.find? a = some w) : (a, w) ∈ m := by
  induction m with
  | nil => cases h
  | cons y rest ih =>
    obtain ⟨k, v⟩ := y
    simp only [Mem.find?] at h
    split at h
    · rename_i hk
      cases h
      simp [hk]
    · exact List.mem_cons_of_mem _ (ih h)

/-- What a whole-space write lists at an index. -/
theorem find?_ofWords (u : Option Word) {n a : Nat} (f : Nat → Word) (ha : a < n) :
    (Mem.ofWords u n f).find? a = if u = some (f a) then none else some (f a) := by
  have hp := ((wf_iff _ _ _).1 (wf_ofWords u n f)).1
  split
  · rename_i hu
    cases hf : (Mem.ofWords u n f).find? a with
    | none => rfl
    | some w =>
      have := mem_ofWords.1 (mem_of_find? hf)
      exact absurd (this.2.1 ▸ hu) this.2.2
  · rename_i hu
    exact find?_of_mem hp (mem_ofWords.2 ⟨ha, rfl, hu⟩)

/-- Two canonical memories that read alike are the same data. -/
theorem mem_ext {m m' : Mem} (h : m.Pairwise fun x y => x.1 < y.1) (h' : m'.Pairwise fun x y => x.1 < y.1)
    (hf : ∀ a, m.find? a = m'.find? a) : m = m' := by
  induction m generalizing m' with
  | nil =>
    cases m' with
    | nil => rfl
    | cons y rest =>
      obtain ⟨k, v⟩ := y
      have := hf k
      simp [Mem.find?] at this
  | cons x rest ih =>
    obtain ⟨k, v⟩ := x
    cases m' with
    | nil =>
      have := hf k
      simp [Mem.find?] at this
    | cons y rest' =>
      obtain ⟨k', v'⟩ := y
      rw [List.pairwise_cons] at h h'
      have hk : k = k' := by
        rcases Nat.lt_trichotomy k k' with hlt | heq | hgt
        · have hk := hf k
          rw [find?_eq_none ((k', v') :: rest')] at hk
          · simp [Mem.find?] at hk
          · intro z hz
            rcases List.mem_cons.1 hz with rfl | hz
            · exact hlt
            · exact Nat.lt_trans hlt (h'.1 z hz)
        · exact heq
        · have hk := hf k'
          rw [find?_eq_none ((k, v) :: rest)] at hk
          · simp [Mem.find?] at hk
          · intro z hz
            rcases List.mem_cons.1 hz with rfl | hz
            · exact hgt
            · exact Nat.lt_trans hgt (h.1 z hz)
      subst hk
      have hv : v = v' := by
        have := hf k
        simpa [Mem.find?] using this
      subst hv
      congr 1
      refine ih h.2 h'.2 fun a => ?_
      by_cases ha : k = a
      · subst ha
        rw [find?_eq_none rest h.1, find?_eq_none rest' h'.1]
      · have := hf a
        simpa [Mem.find?, ha] using this

/-! ## Reading a space of the state -/

/-- A read after a write to the same index gives the word written. -/
theorem read_write_same (s : State) (sp : Space) (i : Nat) (w : Word)
    (h : (s.mem sp).Pairwise fun x y => x.1 < y.1) : (s.write sp i w).read sp i = w := by
  by_cases hw : sp.resetWord = some w
  · simp [State.read, State.write, State.unlisted, Mem.write, hw, find?_erase_same _ _ h]
  · simp [State.read, State.write, Mem.write, hw, find?_insert_same]

/-- A write leaves every other index of its space alone. -/
theorem read_write_ne (s : State) (sp : Space) {i j : Nat} (h : j ≠ i) (w : Word) :
    (s.write sp i w).read sp j = s.read sp j := by
  by_cases hw : sp.resetWord = some w
  · simp [State.read, State.write, State.unlisted, Mem.write, hw, find?_erase_ne _ h]
  · simp [State.read, State.write, State.unlisted, Mem.write, hw, find?_insert_ne _ h]

/-- A read depends only on the listed words of its space and on the reset count. -/
theorem read_congr {s t : State} {sp : Space} (hm : t.mem sp = s.mem sp) (he : t.epoch = s.epoch) (i : Nat) :
    t.read sp i = s.read sp i := by
  unfold State.read State.unlisted
  rw [hm, he]

/-- A write leaves every other space alone. -/
theorem read_write_space (s : State) {sp sp' : Space} (h : sp' ≠ sp) (i j : Nat) (w : Word) :
    (s.write sp i w).read sp' j = s.read sp' j :=
  read_congr (mem_withMem_ne s h _) (write_epoch ..) j

/-- A whole-space write gives each index its word. -/
theorem read_writeAll (s : State) (sp : Space) {n i : Nat} (f : Nat → Word) (h : i < n) :
    (s.writeAll sp n f).read sp i = f i := by
  by_cases hw : sp.resetWord = some (f i)
  · simp [State.read, State.writeAll, State.unlisted, find?_ofWords _ _ h, hw]
  · simp [State.read, State.writeAll, find?_ofWords _ _ h, hw]

/-- A whole-space write leaves every other space alone. -/
theorem read_writeAll_space (s : State) {sp sp' : Space} (h : sp' ≠ sp) (n j : Nat) (f : Nat → Word) :
    (s.writeAll sp n f).read sp' j = s.read sp' j :=
  read_congr (mem_withMem_ne s h _) (writeAll_epoch ..) j

end Sys2Proof.Machine
end

