-- ==== Sys2Proof/Laws/Ops.lean ====
section
/-! SUPPORT. One lemma for each shared operation and each stage, saying what every word of memory reads as after it. With the
field lemmas of Laws/State.lean these say all that an operation does. -/

namespace Sys2Proof.Machine

/-- The indices of a space that meets the invariant rise strictly. -/
theorem State.Inv.rising {s : State} (h : s.Inv) (sp : Space) : (s.mem sp).Pairwise fun x y => x.1 < y.1 :=
  ((wf_iff _ _ _).1 (h.mem_wf sp)).1

/-- A store step writes the slot at `HEAD`. -/
theorem storeSample_read_head (s : State) (v : Word) (h : (s.mem .ring).Pairwise fun x y => x.1 < y.1) :
    (s.storeSample v).read .ring s.head = v :=
  (read_congr (s := s.write .ring s.head v) rfl rfl _).trans (read_write_same s .ring s.head v h)

/-- A store step leaves every other slot alone. -/
theorem storeSample_read_ne (s : State) (v : Word) {i : Nat} (h : i ≠ s.head) :
    (s.storeSample v).read .ring i = s.read .ring i :=
  (read_congr (s := s.write .ring s.head v) rfl rfl _).trans (read_write_ne s .ring h v)

/-- A store step leaves every other space alone. -/
theorem storeSample_read_space (s : State) (v : Word) {sp : Space} (h : sp ≠ .ring) (i : Nat) :
    (s.storeSample v).read sp i = s.read sp i :=
  (read_congr (s := s.write .ring s.head v) (by cases sp <;> rfl) rfl _).trans (read_write_space s h s.head i v)

/-- A read step writes the word at `S_I`. -/
theorem readSlot_read_sI (s : State) (h : (s.mem .snap).Pairwise fun x y => x.1 < y.1) :
    s.readSlot.read .snap s.sI = s.read .ring (s.snapSlot s.sI) :=
  (read_congr (s := s.write .snap s.sI _) rfl rfl _).trans (read_write_same s .snap s.sI _ h)

/-- A read step leaves every other word of `SNAP` alone. -/
theorem readSlot_read_ne (s : State) {i : Nat} (h : i ≠ s.sI) : s.readSlot.read .snap i = s.read .snap i :=
  (read_congr (s := s.write .snap s.sI _) rfl rfl _).trans (read_write_ne s .snap h _)

/-- A read step leaves every other space alone. -/
theorem readSlot_read_space (s : State) {sp : Space} (h : sp ≠ .snap) (i : Nat) : s.readSlot.read sp i = s.read sp i :=
  (read_congr (s := s.write .snap s.sI _) (by cases sp <;> rfl) rfl _).trans (read_write_space s h s.sI i _)

/-- The slot that a snapshot index below `N` reads, without the inner remainder. -/
theorem snapSlot_eq (s : State) {i : Nat} (h : i < s.cfg.n) : s.snapSlot i = (s.sH + s.cfg.n - i) % s.cfg.n := by
  unfold State.snapSlot
  rw [Nat.mod_eq_of_lt h]
  congr 1
  omega

/-- The next command's draws leave memory alone. -/
theorem nextDraws_read (s : State) (sp : Space) (i : Nat) : s.nextDraws.read sp i = s.read sp i :=
  read_congr (by cases sp <;> rfl) rfl i

/-- What `WINDOW` leaves in `FRM`. -/
theorem windowStage_read (s : State) {i : Nat} (h : i < s.cfg.n) :
    s.windowStage.read .frm i = ((s.readFp .snap i).mul (hann s.cfg i)).toWord (s.nanDraw i) :=
  (nextDraws_read _ _ _).trans (read_writeAll s .frm _ h)

/-- `WINDOW` leaves every other space alone. -/
theorem windowStage_read_space (s : State) {sp : Space} (h : sp ≠ .frm) (i : Nat) :
    s.windowStage.read sp i = s.read sp i :=
  (nextDraws_read _ _ _).trans (read_writeAll_space s h _ i _)

/-- What `FFT` leaves in `SPEC`. -/
theorem fftStage_read (s : State) {i : Nat} (h : i < 2 * s.cfg.n) :
    s.fftStage.read .spec i = specWord (fftRec s.cfg (s.readFp .frm) s.cfg.log2n 0 1) s.nanDraw i :=
  (nextDraws_read _ _ _).trans (read_writeAll s .spec _ h)

/-- `FFT` leaves every other space alone. -/
theorem fftStage_read_space (s : State) {sp : Space} (h : sp ≠ .spec) (i : Nat) :
    s.fftStage.read sp i = s.read sp i :=
  (nextDraws_read _ _ _).trans (read_writeAll_space s h _ i _)

/-- The list of bucket values, entry by entry. -/
theorem bucketValues_getD (s : State) {j : Nat} (h : j < binCount s.cfg) :
    s.bucketValues.getD j .zero = s.bucketValue j := by
  simp [State.bucketValues, List.getD, h]

/-- What `BUCKETIZE` leaves in `TGT`. -/
theorem bucketizeStage_read (s : State) {j : Nat} (h : j < binCount s.cfg) :
    s.bucketizeStage.read .tgt j = ((s.bucketValue j).div s.denominator).toWord (s.nanDraw j) :=
  ((nextDraws_read _ _ _).trans (read_writeAll s .tgt _ h)).trans (by rw [bucketValues_getD s h])

/-- `BUCKETIZE` leaves every other space alone. -/
theorem bucketizeStage_read_space (s : State) {sp : Space} (h : sp ≠ .tgt) (i : Nat) :
    s.bucketizeStage.read sp i = s.read sp i :=
  (nextDraws_read _ _ _).trans (read_writeAll_space s h _ i _)

/-- What `ADVANCE` leaves in `BINS`. -/
theorem advanceStage_read (s : State) (dt : Word) {j : Nat} (h : j < binCount s.cfg) :
    (s.advanceStage dt).read .bins j =
      (smooth (Fp.ofWord s.cfg.rate) (Fp.ofWord dt) (s.readFp .bins j) (s.readFp .tgt j)).toWord (s.nanDraw j) :=
  (nextDraws_read _ _ _).trans (read_writeAll s .bins _ h)

/-- `ADVANCE` leaves every other space alone. -/
theorem advanceStage_read_space (s : State) (dt : Word) {sp : Space} (h : sp ≠ .bins) (i : Nat) :
    (s.advanceStage dt).read sp i = s.read sp i :=
  (nextDraws_read _ _ _).trans (read_writeAll_space s h _ i _)

/-! ## The canonical form is kept -/

/-- Every space of a state is canonical and within its size. -/
def MemoryOk (s : State) : Prop := ∀ sp, (s.mem sp).wf sp.resetWord (spaceSize s.cfg sp) = true

/-- The canonical form is a matter of the listed words and the build. -/
theorem MemoryOk.congr {s t : State} (h : MemoryOk s) (hm : ∀ sp, t.mem sp = s.mem sp) (hc : t.cfg = s.cfg) : MemoryOk t := by
  intro sp
  rw [hm, hc]
  exact h sp

theorem MemoryOk.write {s : State} (h : MemoryOk s) {sp : Space} {i : Nat} (w : Word) (hi : i < spaceSize s.cfg sp) :
    MemoryOk (s.write sp i w) := by
  intro sp'
  rw [write_cfg]
  by_cases he : sp' = sp
  · subst he
    rw [State.write, mem_withMem]
    exact wf_write w hi (h _)
  · rw [State.write, mem_withMem_ne s he]
    exact h _

theorem MemoryOk.writeAll {s : State} (h : MemoryOk s) (sp : Space) (f : Nat → Word) :
    MemoryOk (s.writeAll sp (spaceSize s.cfg sp) f) := by
  intro sp'
  rw [writeAll_cfg]
  by_cases he : sp' = sp
  · subst he
    rw [State.writeAll, mem_withMem]
    exact wf_ofWords _ _ _
  · rw [State.writeAll, mem_withMem_ne s he]
    exact h _

theorem MemoryOk.nextDraws {s : State} (h : MemoryOk s) : MemoryOk s.nextDraws :=
  h.congr (fun sp => by cases sp <;> rfl) rfl

theorem MemoryOk.storeSample {s : State} (h : MemoryOk s) (hi : s.head < s.cfg.n) (v : Word) : MemoryOk (s.storeSample v) :=
  (h.write (sp := .ring) v hi).congr (fun sp => by cases sp <;> rfl) rfl

theorem MemoryOk.readSlot {s : State} (h : MemoryOk s) (hi : s.sI < s.cfg.n) : MemoryOk s.readSlot :=
  (h.write (sp := .snap) (s.read .ring (s.snapSlot s.sI)) hi).congr (fun sp => by cases sp <;> rfl) rfl

theorem MemoryOk.windowStage {s : State} (h : MemoryOk s) : MemoryOk s.windowStage := (h.writeAll .frm _).nextDraws

theorem MemoryOk.fftStage {s : State} (h : MemoryOk s) : MemoryOk s.fftStage := (h.writeAll .spec _).nextDraws

theorem MemoryOk.bucketizeStage {s : State} (h : MemoryOk s) : MemoryOk s.bucketizeStage := (h.writeAll .tgt _).nextDraws

theorem MemoryOk.advanceStage {s : State} (h : MemoryOk s) (dt : Word) : MemoryOk (s.advanceStage dt) :=
  (h.writeAll .bins _).nextDraws

theorem MemoryOk.laterStages {s : State} (h : MemoryOk s) (dt : Word) : MemoryOk (s.laterStages dt) :=
  h.windowStage.fftStage.bucketizeStage.advanceStage dt

theorem MemoryOk.endFrame {s : State} (h : MemoryOk s) : MemoryOk s.endFrame :=
  h.congr (fun sp => by cases sp <;> rfl) rfl

theorem MemoryOk.frameTail {s : State} (h : MemoryOk s) (dt : Word) : MemoryOk (s.frameTail dt) := (h.laterStages dt).endFrame

end Sys2Proof.Machine
end

