-- ==== Sys2Proof/Laws/Tables.lean ====
section
/-! SUPPORT. Facts about the tables and the arithmetic stages: sizes, that every table entry and every intermediate value is one
that binary32 holds, bounds, and the accumulator of the bucketizer. -/

namespace Sys2Proof.Machine

/-! ## Sizes -/

theorem n_pos (c : Config) : 0 < c.n := Nat.pow_pos (by norm_num)

/-- `N` is twice `H`. -/
theorem n_eq_two_mul_h (c : Config) : c.n = 2 * c.h := by
  have h : c.n = 2 * 2 ^ c.log2nPred.val := by rw [Config.n, Config.log2n, pow_succ, Nat.mul_comm]
  rw [Config.h, h, Nat.mul_div_cancel_left _ (by norm_num)]

/-- `N` is at most `2^20`. -/
theorem n_le (c : Config) : c.n ≤ 2 ^ 20 := Nat.pow_le_pow_right (by norm_num) (by have := c.log2nPred.isLt; unfold Config.log2n; omega)

/-- From 4 on, `N` is a multiple of 4. -/
theorem n_four (c : Config) (h : 4 ≤ c.n) : 4 * (c.n / 4) = c.n := by
  have : c.n = 2 ^ c.log2n := rfl
  have h2 : 2 ≤ c.log2n := by
    by_contra hc
    have : 2 ^ c.log2n ≤ 2^1 := Nat.pow_le_pow_right (by norm_num) (by omega)
    omega
  refine Nat.mul_div_cancel' ?_
  rw [this]; exact Nat.pow_dvd_pow 2 h2

/-! ## Rounding -/

/-- Rounding a fraction does not depend on how it is written. -/
theorem nearest_mul_left {k : Nat} (num den : Nat) (hk : 0 < k) : Fp.nearest (k * num) (k * den) = Fp.nearest num den := by
  have hs : Fp.spacing (k * num) (k * den) = Fp.spacing num den := by rw [Fp.spacing, Fp.spacing, Nat.mul_div_mul_left _ _ hk]
  unfold Fp.nearest
  simp only [hs]
  rw [Nat.mul_assoc, Nat.mul_div_mul_left _ _ hk, Nat.mul_mod_mul_left, Nat.mul_left_comm 2 k]
  simp only [Nat.mul_lt_mul_left hk, Nat.mul_right_inj (Nat.pos_iff_ne_zero.1 hk)]

@[simp] theorem nearest_zero (den : Nat) : Fp.nearest 0 den = 0 := by simp [Fp.nearest]

/-- Rounding at most doubles a number, up to one unit. -/
theorem nearest_le (num den : Nat) : Fp.nearest num den ≤ 2 * (num / den) + 1 := by
  have hq : num / (den * Fp.spacing num den) * Fp.spacing num den ≤ num / den := by
    rw [← Nat.div_div_eq_div_mul]
    exact Nat.div_mul_le_self _ _
  have hu : Fp.spacing num den ≤ num / den + 1 := by
    unfold Fp.spacing
    rcases Nat.eq_zero_or_pos (num / den) with h | h
    · simp [h]
    · calc 2 ^ ((num / den).log2 - 23) ≤ 2 ^ (num / den).log2 := Nat.pow_le_pow_right (by norm_num) (Nat.sub_le _ _)
        _ ≤ num / den := Nat.log2_self_le (by omega)
        _ ≤ num / den + 1 := Nat.le_succ _
  simp only [Fp.nearest]
  split
  · rw [Nat.add_mul, Nat.one_mul]
    omega
  · omega

/-- Rounding a number of at least one unit does not give zero. -/
theorem nearest_pos {num den : Nat} (hd : 0 < den) (h : den ≤ num) : 0 < Fp.nearest num den := by
  have hq : 1 ≤ num / den := (Nat.one_le_div_iff hd).2 h
  have hu : 0 < Fp.spacing num den := by unfold Fp.spacing; positivity
  have h2 : 1 ≤ num / (den * Fp.spacing num den) := by
    rw [← Nat.div_div_eq_div_mul, Nat.one_le_div_iff hu]
    unfold Fp.spacing
    exact (Nat.pow_le_pow_right (by norm_num) (Nat.sub_le _ _)).trans (Nat.log2_self_le (by omega))
  simp only [Fp.nearest]
  split
  · exact Nat.mul_pos (Nat.succ_pos _) hu
  · exact Nat.mul_pos h2 hu

/-! ## Table entries are binary32 values -/

/-- An entry is the reference one or, in a build with other contents, a free one of legal contents. -/
theorem entryOf_cases {α : Type} {P : α → Prop} (rom : Contents) (legal : Bool) (free reference : α)
    (hr : P reference) (ho : rom = .other → legal = true → P free) : P (entryOf rom legal free reference) := by
  cases rom
  · exact hr
  · cases legal
    · exact hr
    · exact ho rfl rfl

theorem canonical_hann (c : Config) (i : Nat) : (hann c i).Canonical :=
  entryOf_cases _ _ _ _ (Fp.canonical_round _ _ _) fun _ _ => Fp.ofWord_canonical _

theorem ofWord_hannWord (c : Config) (i : Nat) : Fp.ofWord (hannWord c i) = hann c i :=
  Fp.ofWord_toWord_canonical 0 (canonical_hann c i)

theorem canonical_lnMag (c : Config) (m : Nat) : (lnMag c m).Canonical :=
  entryOf_cases _ _ _ _ (Fp.canonical_round _ _ _) fun _ _ => Fp.ofWord_canonical _

theorem canonical_ln32 (c : Config) (x : Fp) : (ln32 c x).Canonical := by
  match x with
  | .nan => trivial
  | .inf true => trivial
  | .inf false => trivial
  | .fin s m =>
    simp only [ln32]
    split
    · trivial
    · split
      · trivial
      · exact canonical_lnMag _ _

theorem canonical_logPower (c : Config) (z : Cpx) : (logPower c z).Canonical := canonical_ln32 c _

/-- The alternating series does not exceed its first term. -/
theorem sinSeries_le (x2 k i t : Nat) : sinSeries x2 k i t ≤ t := by
  cases k
  · exact Nat.zero_le _
  · exact Nat.sub_le _ _

/-- The sine of a part of a right angle is below the angle. -/
theorem fxSin_le {a b : Nat} (h : a ≤ b) : fxSin a b ≤ fxPi / 2 := by
  refine (sinSeries_le _ _ _ _).trans ?_
  rcases Nat.eq_zero_or_pos b with rfl | hb
  · simp
  rw [← Nat.mul_div_mul_right fxPi 2 hb]
  exact Nat.div_le_div_right (Nat.mul_le_mul_left _ h)

/-- The series keeps half of its first term while the squared angle is at most 3. -/
theorem le_two_mul_sinSeries {x2 : Nat} (h : x2 ≤ 3 * fxOne) (k t : Nat) : t ≤ 2 * sinSeries x2 (k + 1) 0 t := by
  have h3 : t * x2 / fxOne ≤ 3 * t :=
    Nat.div_le_of_le_mul ((Nat.mul_le_mul_left t h).trans (le_of_eq (by ring)))
  have hs := sinSeries_le x2 k 1 (t * x2 / fxOne / ((2 * 0 + 2) * (2 * 0 + 3)))
  simp only [sinSeries, Nat.zero_add] at hs ⊢
  omega

/-- The sine is at least half of the angle. -/
theorem half_le_fxSin {a b : Nat} (h : a ≤ b) : fxPi * a / (2 * b) ≤ 2 * fxSin a b := by
  have hx : fxPi * a / (2 * b) ≤ fxPi / 2 := by
    rcases Nat.eq_zero_or_pos b with rfl | hb
    · simp
    rw [← Nat.mul_div_mul_right fxPi 2 hb]
    exact Nat.div_le_div_right (Nat.mul_le_mul_left _ h)
  exact le_two_mul_sinSeries (Nat.div_le_of_le_mul ((Nat.mul_le_mul hx hx).trans (by decide))) 27 _

/-- The sine of a nonzero part of a right angle, at the sizes of CORE, is far above the resolution. -/
theorem fxSin_ge {a b : Nat} (h : a ≤ b) (ha : 0 < a) (hb : b ≤ 2 ^ 20) : 2 ^ 170 ≤ fxSin a b := by
  have := half_le_fxSin h
  have h1 : 2 ^ 171 ≤ fxPi * a / (2 * b) := by
    rw [Nat.le_div_iff_mul_le (by omega)]
    unfold fxPi; omega
  omega

/-! ## The fixed-point logarithm -/

/-- The series of the inverse hyperbolic tangent stays within 8/7 of its first term while `z2` is at most 1/8. -/
theorem atanhSeries_le {z2 : Nat} (h : 8 * z2 ≤ fxOne) (k i t : Nat) : 7 * atanhSeries z2 k i t ≤ 8 * t := by
  induction k generalizing i t with
  | zero => simp [atanhSeries]
  | succ k ih =>
    have hf : 0 < fxOne := by decide
    have h1 : t / (2 * i + 1) ≤ t := Nat.div_le_self _ _
    have h2 : 8 * (t * z2 / fxOne) ≤ t := by
      refine (Nat.mul_div_le_mul_div_assoc 8 (t*z2) fxOne).trans ?_
      refine Nat.div_le_of_le_mul ?_
      calc 8 * (t * z2) = t * (8 * z2) := by ring
        _ ≤ t * fxOne := Nat.mul_le_mul_left _ h
        _ = fxOne * t := by ring
    have h3 := ih (i + 1) (t * z2 / fxOne)
    simp only [atanhSeries]
    omega

/-- The series of the inverse hyperbolic tangent is at least its first term. -/
theorem le_atanhSeries (z2 k t : Nat) : t ≤ atanhSeries z2 (k + 1) 0 t := by
  simp [atanhSeries]

/-- The split of a magnitude: the divisor is a power of two below or above it, and neither is more than half as great
again as the other. -/
theorem lnSplit_cases {m : Nat} (hm : 0 < m) :
    (lnSplit m = ((m.log2 : Int) - 149, 2 ^ m.log2) ∧ 2 ^ m.log2 ≤ m ∧ 2 * m ≤ 3 * 2 ^ m.log2) ∨
    (lnSplit m = ((m.log2 : Int) - 148, 2 ^ (m.log2 + 1)) ∧ m < 2 ^ (m.log2 + 1) ∧ 2 * 2 ^ (m.log2 + 1) ≤ 3 * m) := by
  have h1 : 2 ^ m.log2 ≤ m := Nat.log2_self_le (by omega)
  have h2 : m < 2 ^ (m.log2 + 1) := Nat.lt_log2_self
  have e : 2 ^ (2 * m.log2 + 1) = 2 * (2 ^ m.log2 * 2 ^ m.log2) := by rw [pow_succ, two_mul, pow_add]; ring
  unfold lnSplit
  simp only
  split
  · rename_i h
    rw [e] at h
    refine .inl ⟨rfl, h1, ?_⟩
    by_contra hc
    have := Nat.mul_lt_mul'' (Nat.lt_of_not_le hc) (Nat.lt_of_not_le hc)
    nlinarith
  · rename_i h
    rw [e] at h
    refine .inr ⟨rfl, h2, ?_⟩
    rw [pow_succ]
    nlinarith

/-- The correction of `fxLn` to `e·ln 2`: at least twice the first term, at most 16/35. -/
theorem ln_term {m d : Nat} (hd : 0 < d) (h1 : 2 * max m d ≤ 3 * min m d) :
    let z := (max m d - min m d) * fxOne / (m + d)
    2 * z ≤ 2 * atanhSeries (z * z / fxOne) 40 0 z ∧ 35 * (2 * atanhSeries (z * z / fxOne) 40 0 z) ≤ 16 * fxOne := by
  intro z
  have hs : m + d = max m d + min m d := by omega
  have hz : 5 * z ≤ fxOne := by
    refine (Nat.mul_div_le_mul_div_assoc 5 _ _).trans (Nat.div_le_of_le_mul ?_)
    have : 5 * (max m d - min m d) ≤ m + d := by omega
    calc 5 * ((max m d - min m d) * fxOne) = 5 * (max m d - min m d) * fxOne := by ring
      _ ≤ (m + d) * fxOne := Nat.mul_le_mul_right _ this
  have hz2 : 8 * (z * z / fxOne) ≤ fxOne := by
    refine (Nat.mul_div_le_mul_div_assoc 8 _ _).trans (Nat.div_le_of_le_mul ?_)
    nlinarith
  have := atanhSeries_le hz2 40 0 z
  exact ⟨Nat.mul_le_mul_left _ (le_atanhSeries _ 39 z), by omega⟩

/-- The fixed-point logarithm is a multiple of `ln 2` and a correction `s` of at most 16/35 toward the other side, at
least twice the first term of its series. -/
theorem fxLn_cases {m : Nat} (hm : 0 < m) :
   ∃ s : Nat, 35 * s ≤ 16 * fxOne ∧
    ((fxLn m = ((m.log2 : Int) - 149) * fxLn2 + s ∧ 2 * ((m - 2^m.log2) * fxOne / (m + 2^m.log2)) ≤ s) ∨
     (fxLn m = ((m.log2 : Int) - 148) * fxLn2 - s ∧ 2 * ((2 ^ (m.log2+1) - m) * fxOne / (m + 2 ^ (m.log2 + 1))) ≤ s)) := by
  rcases lnSplit_cases hm with ⟨h, h1, h2⟩ | ⟨h, h1, h2⟩
  · have := ln_term (m := m) (d := 2 ^ m.log2) (by positivity) (by omega)
    simp only [max_eq_left h1, min_eq_right h1] at this
    refine ⟨_, this.2, .inl ⟨?_, this.1⟩⟩
    simp only [fxLn, h, max_eq_left h1, min_eq_right h1, if_neg (Nat.not_lt.2 h1)]
  · have := ln_term (m := m) (d := 2 ^ (m.log2+1)) (by positivity) (by omega)
    simp only [max_eq_right h1.le, min_eq_left h1.le] at this
    refine ⟨_, this.2, .inr ⟨?_, this.1⟩⟩
    simp only [fxLn, h, max_eq_right h1.le, min_eq_left h1.le, if_pos h1]
    ring

/-- Above 1, by at least the spacing of binary32, the fixed-point logarithm is positive, and it is bounded. -/
theorem fxLn_above {m : Nat} (hm : 2 ^ 149 + 2 ^ 126 ≤ m) (hlt : m < Fp.overflow) : (2 ^ 43 : Int) ≤ fxLn m ∧ fxLn m ≤ 200 * fxOne := by
  obtain ⟨s, hs, h⟩ := fxLn_cases (m := m) (by omega)
  have hl : 149 ≤ m.log2 := (Nat.le_log2 (by omega)).2 (by omega)
  have hu : m.log2 < 277 := (Nat.log2_lt (by omega)).2 (hlt.trans_eq (by rw [Fp.overflow, ← pow_add]))
  rcases h with ⟨h, hz⟩ | ⟨h, hz⟩
  · rcases Nat.eq_or_lt_of_le hl with e | e
    · rw [← e] at h hz
      have : 2 ^ 167 ≤ (m - 2 ^ 149) * fxOne / (m + 2 ^ 149) := by
        rw [Nat.le_div_iff_mul_le (by positivity)]
        have : m < 2 ^ 150 := by have := Nat.lt_log2_self (n := m); rwa [← e] at this
        unfold fxOne
        omega
      rw [h]; unfold fxOne at *; constructor <;> omega
    · have h1 : (1 : Int) ≤ (m.log2 : Int) - 149 := by omega
      rw [h]; unfold fxOne fxLn2 at *; constructor <;> omega
  · rw [h]; unfold fxOne fxLn2 at *; constructor <;> omega

/-- Below 1 it is negative, and bounded. -/
theorem fxLn_below {m : Nat} (h0 : 0 < m) (hm : m + 2 ^ 125 ≤ 2 ^ 149) : fxLn m ≤ -(2 ^ 43 : Int) ∧ -(200 * fxOne : Int) ≤ fxLn m := by
  obtain ⟨s, hs, h⟩ := fxLn_cases (m := m) (by omega)
  have hu : m.log2 < 149 := (Nat.log2_lt (by omega)).2 (by omega)
  rcases h with ⟨h, hz⟩ | ⟨h, hz⟩
  · rw [h]; unfold fxOne fxLn2 at *; constructor <;> omega
  · rcases Nat.eq_or_lt_of_le (Nat.le_of_lt_succ hu) with e | e
    · rw [e] at h hz
      have : 2 ^ 167 ≤ (2 ^ (148+1) - m) * fxOne / (m + 2 ^ (148+1)) := by
        rw [Nat.le_div_iff_mul_le (by positivity)]
        unfold fxOne
        omega
      rw [h]; unfold fxOne at *; constructor <;> omega
    · rw [h]; unfold fxOne fxLn2 at *; constructor <;> omega

/-! ## Legal contents -/

/-- What legal window contents have (H1 to H5). -/
theorem hannLegal_iff (c : Config) (t : Nat → Fp) : hannLegal c t = true ↔
   ((((t 0 = .zero ∧ t (c.n - 1) = .zero) ∧ (∀ i, i < c.n → t i = t (c.n - 1 - i))) ∧
   (∀ i, i < c.n → (t i).atMostOne = true ∧ 0 ≤ (t i).key ∧ (4 ≤ c.n → 0 < i → i < c.n - 1 → 0 < (t i).key))) ∧
   (∀ i, i < c.n / 2 - 1 → (t i).key ≤ (t (i + 1)).key)) ∧ t (c.n / 2 - 1) = hannRounded c (c.n / 2 - 1) ∧ t (c.n / 2) = hannRounded c (c.n / 2 - 1) := by
  simp only [hannLegal, Bool.and_eq_true, decide_eq_true_eq]

/-- What legal twiddle contents have (T1 to T4). -/
theorem twidLegal_iff (c : Config) (t : Nat → Cpx) : twidLegal c t = true ↔
   (((t 0 = { re := .one, im := .zero }) ∧ (4 ≤ c.n → t (c.n / 4) = { re := .zero, im := Fp.one.neg })) ∧
  (∀ m, m < c.n / 2 → 0 < m → (t m).im.key < 0 ∧ (t m).re.atMostOne = true ∧ (t m).im.atMostOne = true)) ∧
  (∀ m, m < c.n / 4 → 0 < m → 8 ≤ c.n →
    t (c.n / 2 - m) = { re := (t m).re.neg, im := (t m).im } ∧ t (c.n / 4 + m) = { re := (t m).im, im := (t m).re.neg }) := by
  simp only [twidLegal, Bool.and_eq_true, decide_eq_true_eq]

/-- What a legal logarithm has on the positive finite patterns (L4 to L7). -/
theorem lnLegal_iff (t : Nat → Fp) : lnLegal t = true ↔
    (t 0x3F800000 = .zero ∧ ∀ k, k < infinityNumber → 0 < k → lnEntryLegal (patternMag k) (t k) = true) ∧
      ∀ k, k < infinityNumber - 1 → 0 < k → (t k).key ≤ (t (k + 1)).key := by
  simp only [lnLegal, Bool.and_eq_true, decide_eq_true_eq]

/-! ## The accumulator -/

/-- Comparing is comparing where the values stand, neither being a NaN. -/
theorem gt_iff (a b : Fp) : a.gt b = true ↔ a ≠ .nan ∧ b ≠ .nan ∧ b.key < a.key := by
  cases a <;> cases b <;> simp [Fp.gt]

/-- What the accumulator ends at: its start or one of the values, and no value is greater; it never becomes a NaN. -/
theorem foldl_keepGreater (xs : List Fp) {start : Fp} (hs : start ≠ .nan) :
    (xs.foldl keepGreater start = start ∨ xs.foldl keepGreater start ∈ xs) ∧ xs.foldl keepGreater start ≠ .nan ∧
      start.key ≤ (xs.foldl keepGreater start).key ∧ ∀ x ∈ xs, x.gt (xs.foldl keepGreater start) = false := by
  induction xs generalizing start with
  | nil => exact ⟨.inl rfl, hs, le_refl _, by simp⟩
  | cons x xs ih =>
    rw [List.foldl_cons]
    by_cases hx : x.gt start = true
    · have hk : keepGreater start x = x := by simp [keepGreater, hx]
      obtain ⟨hn, -, hlt⟩ := (gt_iff _ _).1 hx
      obtain ⟨h1, h2, h3, h4⟩ := ih hn
      rw [hk]
      refine ⟨.inr ?_, h2, by omega, fun y hy => ?_⟩
      · rcases h1 with h1 | h1
        · rw [h1]
          exact List.mem_cons_self ..
        · exact List.mem_cons_of_mem _ h1
      · rcases List.mem_cons.1 hy with rfl | hy
        · rw [Bool.eq_false_iff, ne_eq, gt_iff]
          omega
        · exact h4 y hy
    · have hk : keepGreater start x = start := by simp [keepGreater, hx]
      obtain ⟨h1, h2, h3, h4⟩ := ih hs
      rw [hk]
      refine ⟨h1.imp id (List.mem_cons_of_mem _), h2, h3, fun y hy => ?_⟩
      rcases List.mem_cons.1 hy with rfl | hy
      · rw [gt_iff] at hx
        rw [Bool.eq_false_iff, ne_eq, gt_iff]
        rintro ⟨hn, -, hlt⟩
        exact hx ⟨hn, hs, by omega⟩
      · exact h4 y hy

theorem canonical_bucketValue (s : State) (j : Nat) : (s.bucketValue j).Canonical := by
  rcases (foldl_keepGreater ((span s.cfg j).map fun q => logPower s.cfg (s.specEntry q)) (start := .zero) (by simp [Fp.zero])).1
    with h | h
  · rw [State.bucketValue, h]
    exact Fp.canonical_zero
  · obtain ⟨q, -, hq⟩ := List.mem_map.1 h
    rw [State.bucketValue, ← hq]
    exact canonical_logPower _ _

theorem canonical_denominator (s : State) : s.denominator.Canonical := by
  rcases (foldl_keepGreater s.bucketValues (start := .one) (by simp [Fp.one])).1 with h | h
  · rw [State.denominator, h]
    exact Fp.canonical_one
  · obtain ⟨j, -, hj⟩ := List.mem_map.1 h
    rw [State.denominator, ← hj]
    exact canonical_bucketValue s j

end Sys2Proof.Machine
end

