-- ==== Sys2Proof/Laws/Fft.lean ====
section
/-! SUPPORT. The dataflow graph of the transform: its length and its entries; values up to the sign of a zero; sums of the
powers of a root (42_fft.md R144, R147). -/

namespace Sys2Proof.Machine

section Graph

variable {α β : Type} (leaf : α → β) (twiddle : Nat → β → β) (add sub : β → β → β) (x : Nat → α)

/-- The graph gives as many values as the sub-problem has. -/
theorem fftGraph_length (level base stride : Nat) : (fftGraph leaf twiddle add sub x level base stride).length = 2 ^ level := by
  induction level generalizing base stride with
  | zero => rfl
  | succ level ih =>
    simp only [fftGraph, butterflies, List.length_append, List.length_zipWith, List.length_mapIdx, ih, min_self]
    omega

/-- One level of the graph: entry `k` of each half-size sub-problem gives entries `k` and `k + 2^level`. -/
theorem fftGraph_succ (level base stride : Nat) {k : Nat} (hk : k < 2 ^ level) {e o : β}
    (he : (fftGraph leaf twiddle add sub x level base (2 * stride))[k]? = some e)
    (ho : (fftGraph leaf twiddle add sub x level (base + stride) (2 * stride))[k]? = some o) :
    (fftGraph leaf twiddle add sub x (level + 1) base stride)[k]? = some (add e (twiddle (k * stride) o)) ∧
    (fftGraph leaf twiddle add sub x (level + 1) base stride)[k + 2 ^ level]? = some (sub e (twiddle (k * stride) o)) := by
  have l1 := fftGraph_length leaf twiddle add sub x level base (2 * stride)
  have l2 := fftGraph_length leaf twiddle add sub x level (base + stride) (2 * stride)
  constructor
  · rw [fftGraph, butterflies, List.getElem?_append_left (by simp [l1, l2, hk])]
    simp [List.getElem?_zipWith, he, ho]
  · rw [fftGraph, butterflies, List.getElem?_append_right (by simp [l1, l2])]
    simp [List.getElem?_zipWith, l1, l2, he, ho]

/-- An index below the size has an entry. -/
theorem exists_entry (level base stride : Nat) {k : Nat} (hk : k < 2 ^ level) :
    ∃ z, (fftGraph leaf twiddle add sub x level base stride)[k]? = some z :=
  ⟨_, List.getElem?_eq_getElem (by rw [fftGraph_length]; exact hk)⟩

/-- To show something of every entry of the graph, by its index: show it of a leaf, and of the two entries that one butterfly makes
of two entries it holds of. -/
theorem fftGraph_induction {P : (level base stride q : Nat) → β → Prop} (hleaf : ∀ base stride, P 0 base stride 0 (leaf (x base)))
    (hstep : ∀ level base stride k e o, k < 2 ^ level → P level base (2 * stride) k e → P level (base + stride) (2 * stride) k o →
      P (level + 1) base stride k (add e (twiddle (k * stride) o)) ∧
      P (level + 1) base stride (k + 2 ^ level) (sub e (twiddle (k * stride) o)))
    (level base stride q : Nat) (z : β) (h : (fftGraph leaf twiddle add sub x level base stride)[q]? = some z) :
    P level base stride q z := by
  induction level generalizing base stride q z with
  | zero =>
    rw [fftGraph] at h
    obtain ⟨rfl, rfl⟩ : q = 0 ∧ z = leaf (x base) := by
      cases q
      · exact ⟨rfl, by simpa using h.symm⟩
      · simp at h
    exact hleaf base stride
  | succ level ih =>
    have hq : q < 2 ^ (level + 1) := by
      rw [← fftGraph_length leaf twiddle add sub x (level + 1) base stride]
      exact (List.getElem?_eq_some_iff.1 h).1
    have hlow : ∀ k, k < 2 ^ level → ∃ e o,
        ((fftGraph leaf twiddle add sub x (level + 1) base stride)[k]? = some (add e (twiddle (k * stride) o)) ∧
          (fftGraph leaf twiddle add sub x (level + 1) base stride)[k + 2 ^ level]? =
            some (sub e (twiddle (k * stride) o))) ∧
        P (level + 1) base stride k (add e (twiddle (k * stride) o)) ∧
          P (level + 1) base stride (k + 2 ^ level) (sub e (twiddle (k * stride) o)) := fun k hk => by
      obtain ⟨e, he⟩ := exists_entry leaf twiddle add sub x level base (2 * stride) hk
      obtain ⟨o, ho⟩ := exists_entry leaf twiddle add sub x level (base + stride) (2 * stride) hk
      exact ⟨e, o, fftGraph_succ leaf twiddle add sub x level base stride hk he ho,
        hstep level base stride k e o hk (ih _ _ _ _ he) (ih _ _ _ _ ho)⟩
    rcases Nat.lt_or_ge q (2 ^ level) with g | g
    · obtain ⟨e, o, ⟨h1, -⟩, h2, -⟩ := hlow q g
      rw [h] at h1
      rwa [Option.some.inj h1]
    · obtain ⟨k, rfl⟩ := Nat.exists_eq_add_of_le' g
      obtain ⟨e, o, ⟨-, h1⟩, -, h2⟩ := hlow k (by omega)
      rw [h] at h1
      rwa [Option.some.inj h1]

end Graph

/-- The transform gives as many values as the sub-problem has. -/
theorem fftRec_length (c : Config) (x : Nat → Fp) (level base stride : Nat) : (fftRec c x level base stride).length = 2 ^ level :=
  fftGraph_length ..

/-! ## Values up to the sign of a zero -/

namespace Fp

theorem signed_value (s : Bool) (m : Nat) : signed (s && decide (m ≠ 0)) m = signed s m := by
  cases s <;> rcases Nat.eq_zero_or_pos m with h | h <;> simp [signed, h]

theorem value_fin_zero (s : Bool) : (Fp.fin s 0).value = .zero := by cases s <;> rfl

/-- Rounding zero gives a zero. -/
theorem round_zero (s : Bool) (den : Nat) : (Fp.round s 0 den).value = .zero := by
  simp [Fp.round, nearest_zero, ofMag, overflow, value_fin_zero]

theorem value_value (a : Fp) : a.value.value = a.value := by
  cases a with
  | nan => rfl
  | inf => rfl
  | fin s m => by_cases h : m = 0 <;> simp [Fp.value, h]

theorem value_neg (a : Fp) : a.value.neg.value = a.neg.value := by
  cases a with
  | nan => rfl
  | inf => rfl
  | fin s m => by_cases h : m = 0 <;> simp [Fp.value, neg, h]

/-- Addition up to the sign of a zero depends only on the operands up to the signs of zeros; so do the other operations. -/
theorem value_add (a b : Fp) : (a.value.add b.value).value = (a.add b).value := by
  cases a <;> cases b <;> try rfl
  rename_i s m r k
  show ((Fp.fin (s && decide (m ≠ 0)) m).add (.fin (r && decide (k ≠ 0)) k)).value = _
  by_cases h : signed s m + signed r k = 0 <;> simp only [add, signed_value, h, if_true, if_false, value_fin_zero]

theorem value_mul (a b : Fp) : (a.value.mul b.value).value = (a.mul b).value := by
  cases a with
  | nan => rfl
  | inf s =>
    cases b with
    | nan => rfl
    | inf r => rfl
    | fin r k => by_cases h : k = 0 <;> simp [Fp.value, mul, h]
  | fin s m =>
    cases b with
    | nan => rfl
    | inf r => by_cases h : m = 0 <;> simp [Fp.value, mul, h]
    | fin r k =>
      show ((Fp.fin (s && decide (m ≠ 0)) m).mul (.fin (r && decide (k ≠ 0)) k)).value = _
      simp only [mul]
      rcases Nat.eq_zero_or_pos (m * k) with h | h
      · rw [h, round_zero, round_zero]
      · have hm : m ≠ 0 := by rintro rfl; simp at h
        have hk : k ≠ 0 := by rintro rfl; simp at h
        simp [hm, hk]

theorem add_congr {a a' b b' : Fp} (ha : a.value = a'.value) (hb : b.value = b'.value) : (a.add b).value = (a'.add b').value := by
  rw [← value_add, ha, hb, value_add]

theorem mul_congr {a a' b b' : Fp} (ha : a.value = a'.value) (hb : b.value = b'.value) : (a.mul b).value = (a'.mul b').value := by
  rw [← value_mul, ha, hb, value_mul]

theorem neg_congr {a a' : Fp} (ha : a.value = a'.value) : a.neg.value = a'.neg.value := by
  rw [← value_neg, ha, value_neg]

theorem sub_congr {a a' b b' : Fp} (ha : a.value = a'.value) (hb : b.value = b'.value) : (a.sub b).value = (a'.sub b').value :=
  add_congr ha (neg_congr hb)

theorem neg_neg (a : Fp) : a.neg.neg = a := by cases a <;> simp [neg]

theorem neg_round (s : Bool) (n d : Nat) : (Fp.round s n d).neg = Fp.round (!s) n d := by
  unfold Fp.round ofMag; split <;> rfl

theorem signed_not (s : Bool) (m : Nat) : signed (!s) m = -signed s m := by cases s <;> simp [signed]

/-- Negating both terms negates the sum, up to the sign of a zero. -/
theorem neg_add (a b : Fp) : (a.neg.add b.neg).value = (a.add b).neg.value := by
  cases a with
  | nan => rfl
  | inf s => cases b with
    | nan => rfl
    | inf r => cases s <;> cases r <;> rfl
    | fin r k => rfl
  | fin s m => cases b with
    | nan => rfl
    | inf r => rfl
    | fin r k =>
      show ((Fp.fin (!s) m).add (.fin (!r) k)).value = ((Fp.fin s m).add (.fin r k)).neg.value
      have e : -signed s m + -signed r k = -(signed s m + signed r k) := by ring
      simp only [add, signed_not, e]
      by_cases h : signed s m + signed r k = 0
      · simp only [h, Int.neg_zero, if_true]
        exact (value_fin_zero _).trans (value_fin_zero _).symm
      · rw [if_neg h, if_neg (by omega), neg_round, Int.natAbs_neg]
        have : decide (-(signed s m + signed r k) < 0) = !decide (signed s m + signed r k < 0) := by
          by_cases g : signed s m + signed r k < 0
          · rw [decide_eq_true g, decide_eq_false (by omega)]; rfl
          · rw [decide_eq_false g, decide_eq_true (by omega)]; rfl
        rw [this]

/-- Negating a factor negates the product. -/
theorem neg_mul (a b : Fp) : a.neg.mul b = (a.mul b).neg := by
  cases a with
  | nan => rfl
  | inf s => cases b with
    | nan => rfl
    | inf r => cases s <;> cases r <;> rfl
    | fin r k => by_cases h : k = 0 <;> simp [neg, mul, h]
  | fin s m => cases b with
    | nan => rfl
    | inf r => by_cases h : m = 0 <;> simp [neg, mul, h]
    | fin r k =>
      show Fp.round ((!s) ^^ r) (m * k) (2 ^ 149) = (Fp.round (s ^^ r) (m * k) (2 ^ 149)).neg
      rw [neg_round, Bool.not_xor]

theorem add_comm (a b : Fp) : a.add b = b.add a := by
  cases a <;> cases b <;> try rfl
  · rename_i a b; cases a <;> cases b <;> rfl
  · rename_i a m b k
    simp only [add, Int.add_comm (signed a m), Bool.and_comm a b]

theorem mul_comm (a b : Fp) : a.mul b = b.mul a := by
  cases a <;> cases b <;> simp [mul, Bool.xor_comm, Nat.mul_comm]

theorem mul_neg (a b : Fp) : a.mul b.neg = (a.mul b).neg := by rw [mul_comm, neg_mul, mul_comm]

/-- A finite value times a zero is a zero. -/
theorem mul_zero_value {a b : Fp} (ha : ∃ r k, a = .fin r k) (hb : b.value = .zero) : (a.mul b).value = .zero := by
  obtain ⟨s, m, rfl⟩ := ha
  rw [mul_congr (b' := .zero) rfl hb]
  show (Fp.round _ (m * 0) _).value = _
  rw [Nat.mul_zero, round_zero]

theorem add_zeros {a b : Fp} (ha : a.value = .zero) (hb : b.value = .zero) : (a.add b).value = .zero := by
  rw [add_congr (a' := .zero) (b' := .zero) ha hb]; decide

theorem sub_zeros {a b : Fp} (ha : a.value = .zero) (hb : b.value = .zero) : (a.sub b).value = .zero := by
  rw [sub_congr (a' := .zero) (b' := .zero) ha hb]; decide

/-- What agrees with a finite value is finite. -/
theorem fin_of_value {a : Fp} {s m} (h : a.value = (Fp.fin s m).value) : ∃ r k, a = .fin r k := by
  cases a with
  | nan => simp [Fp.value] at h
  | inf => simp [Fp.value] at h
  | fin => exact ⟨_, _, rfl⟩

/-- Adding a zero to a value that binary32 holds changes nothing. -/
theorem add_zero_value {s m} {a b : Fp} (hm : Held m) (hlt : m < overflow) (ha : a.value = (Fp.fin s m).value) (hb : b.value = .zero) :
    (a.add b).value = (Fp.fin s m).value := by
  rw [add_congr (b' := .zero) ha hb]
  show ((Fp.fin s m).add (.fin false 0)).value = _
  simp only [add]
  rw [show signed false 0 = 0 from rfl, Int.add_zero]
  split
  · rename_i h
    have : m = 0 := by cases s <;> simp [signed] at h <;> omega
    subst this; rw [value_fin_zero, value_fin_zero]
  · rename_i h
    have e : (signed s m).natAbs = m := by cases s <;> simp [signed]
    have e2 : decide (signed s m < 0) = s := by cases s <;> simp [signed] at *; omega
    rw [e, e2, round_held hm hlt]

/-- Multiplying a value that binary32 holds by 1.0 changes nothing. -/
theorem one_mul_value {s m} {a : Fp} (hm : Held m) (hlt : m < overflow) (ha : a.value = (Fp.fin s m).value) :
    (Fp.one.mul a).value = (Fp.fin s m).value := by
  rw [mul_congr (a := .one) rfl ha]
  show (Fp.round (false ^^ s) (2^149 * m) (2^149)).value = _
  unfold Fp.round
  have := nearest_mul_left (k := 2^149) m 1 (by positivity)
  rw [Nat.mul_one] at this
  rw [this, nearest_held hm, ofMag, if_pos hlt, Bool.false_xor]

/-- Doubling within the range is exact. -/
theorem add_self_value {s m} {a b : Fp} (hm : Held (m * 2)) (hlt : m * 2 < overflow)
    (ha : a.value = (Fp.fin s m).value) (hb : b.value = (Fp.fin s m).value) :
    (a.add b).value = (Fp.fin s (m * 2)).value := by
  rw [add_congr ha hb]
  simp only [add]
  have e : signed s m + signed s m = signed s (m * 2) := by cases s <;> simp [signed] <;> omega
  rw [e]
  split
  · rename_i h
    have : m = 0 := by cases s <;> simp [signed] at h <;> omega
    subst this; rw [value_fin_zero, value_fin_zero]
  · rename_i h
    have e : (signed s (m * 2)).natAbs = m * 2 := by cases s <;> simp [signed] <;> omega
    have e2 : decide (signed s (m*2) < 0) = s := by cases s <;> simp [signed] at *; omega
    rw [e, e2, round_held hm hlt]

/-- Opposite values cancel. -/
theorem add_neg_value {s m} {a b : Fp} (ha : a.value = (Fp.fin s m).value) (hb : b.value = (Fp.fin (!s) m).value) :
    (a.add b).value = .zero := by
  rw [add_congr ha hb]
  simp only [add]
  rw [signed_not, Int.add_right_neg, if_pos rfl]; exact value_fin_zero _

/-- A held magnitude stays held when its exponent grows. -/
theorem held_mul {m : Nat} (h : Held m) (l : Nat) : Held (m * 2^l) := by
  obtain ⟨q, e, h1, rfl⟩ := h
  exact ⟨q, e + l, h1, by rw [pow_add]; ring⟩

end Fp

/-- A product with a zero, the other factor finite, is a zero. -/
theorem Cpx.mul_zero_value {w o : Cpx} (hre : ∃ r k, w.re = .fin r k) (him : ∃ r k, w.im = .fin r k) (h1 : o.re.value = .zero)
    (h2 : o.im.value = .zero) : (w.mul o).re.value = .zero ∧ (w.mul o).im.value = .zero :=
  ⟨Fp.sub_zeros (Fp.mul_zero_value hre h1) (Fp.mul_zero_value him h2),
    Fp.add_zeros (Fp.mul_zero_value hre h2) (Fp.mul_zero_value him h1)⟩

/-- The product of 1.0, which is `TWID[0]`, with a real value that binary32 holds is that value. -/
theorem Cpx.one_mul_value {s m} {o : Cpx} (hm : Fp.Held m) (hlt : m < Fp.overflow) (h1 : o.re.value = (Fp.fin s m).value)
    (h2 : o.im.value = .zero) :
    (({ re := .one, im := .zero } : Cpx).mul o).re.value = (Fp.fin s m).value ∧
      (({ re := .one, im := .zero } : Cpx).mul o).im.value = .zero := by
  have z : ∀ {a : Fp}, (∃ r k, a = .fin r k) → (Fp.zero.mul a).value = .zero := fun h => by
    rw [Fp.mul_comm]
    exact Fp.mul_zero_value h rfl
  refine ⟨?_, Fp.add_zeros (Fp.mul_zero_value ⟨_, _, rfl⟩ h2) (z (Fp.fin_of_value h1))⟩
  exact Fp.add_zero_value hm hlt (Fp.one_mul_value hm hlt h1)
    ((Fp.neg_congr (a' := .zero) (z (Fp.fin_of_value (s := false) (m := 0) h2))).trans rfl)

/-! ## The transform in exact arithmetic -/

/-- A sum over an even range is the sum over its even and its odd members. -/
theorem sum_two_mul {K : Type} [CommRing K] (f : Nat → K) (m : Nat) :
    ∑ i ∈ Finset.range (2 * m), f i = ∑ j ∈ Finset.range m, f (2*j) + ∑ j ∈ Finset.range m, f (2*j+1) := by
  induction m with
  | zero => simp
  | succ m ih =>
    rw [show 2 * (m + 1) = 2 * m + 1 + 1 by ring, Finset.sum_range_succ, Finset.sum_range_succ, ih, Finset.sum_range_succ,
      Finset.sum_range_succ]
    ring

/-- The sum of the powers of `w^r`, `w` a root whose power `N/2` is -1: `N` where `N` divides `r`, else 0. -/
theorem sum_root_powers {K : Type} [CommRing K] (w : K) (level : Nat) (hw : w ^ 2 ^ level = -1) (r : Nat) :
   ∑ i ∈ Finset.range (2^(level+1)), w ^ (r * i) = if 2^(level+1) ∣ r then (2^(level+1) : K) else 0 := by
  split
  · rename_i h
    obtain ⟨t, rfl⟩ := h
    have : w ^ 2^(level+1) = 1 := by rw [pow_succ, pow_mul, hw]; norm_num
    rw [Finset.sum_congr rfl (g := fun _ => (1 : K)) (fun i _ => by rw [Nat.mul_assoc, pow_mul, this, one_pow])]
    simp
  · rename_i h
    induction level generalizing w r with
    | zero =>
      simp at hw
      have : r % 2 = 1 := by simp at h; omega
      obtain ⟨t, rfl⟩ : ∃ t, r = 2 * t + 1 := ⟨r / 2, by omega⟩
      simp [Finset.sum_range_succ, hw, pow_add, pow_mul]
    | succ l ih =>
      by_cases g : r % 2 = 1
      · -- odd: pair i, i + N/2
        rw [show 2 ^ (l+1+1) = 2^(l+1) + 2^(l+1) by rw [pow_succ 2 (l+1)]; ring, Finset.sum_range_add, ← Finset.sum_add_distrib]
        refine Finset.sum_eq_zero fun i _ => ?_
        obtain ⟨t, rfl⟩ : ∃ t, r = 2 * t + 1 := ⟨r / 2, by omega⟩
        rw [show (2 * t + 1) * (2^(l+1) + i) = 2^(l+1) * (2*t+1) + (2*t+1) * i by ring, pow_add, pow_mul w (2^(l+1)), hw]
        simp [pow_add, pow_mul]
      · obtain ⟨t, rfl⟩ : ∃ t, r = 2 * t := ⟨r / 2, by omega⟩
        have hw2 : (w^2) ^ 2 ^ l = -1 := by rw [← pow_mul, ← hw, pow_succ]; congr 1; ring
        have := ih (w^2) hw2 t (fun ⟨d, hd⟩ => h ⟨d, by rw [hd, pow_succ 2 (l+1)]; ring⟩)
        rw [show 2 ^ (l+1+1) = 2^(l+1) + 2^(l+1) by rw [pow_succ 2 (l+1)]; ring, Finset.sum_range_add]
        have e : ∀ i, w ^ (2 * t * i) = (w^2)^(t * i) := fun i => by rw [← pow_mul]; congr 1; ring
        have e2 : (w^2) ^ 2^(l+1) = 1 := by rw [pow_succ 2 l, pow_mul (w^2), hw2]; norm_num
        have e3 : ∀ i, w ^ (2 * t * (2^(l+1) + i)) = (w^2)^(t * i) := fun i => by
          rw [e, show t * (2^(l+1) + i) = 2^(l+1) * t + t * i by ring, pow_add, pow_mul (w^2) (2^(l+1)), e2]; simp
        simp only [e3, e, this, add_zero]

end Sys2Proof.Machine
end

