-- ==== Sys2Proof/Laws/PerInstr.lean ====
section
/-! SUPPORT. Facts about every command, one lemma for each constructor. -/

/-! ## The length rule -/

/-- The encoding of a command is its word and then its payload (30_encoding.md R83, R85); of `WRITE` it is the word only, the
payload being received by the frame steps. It never exceeds what one fetch takes. -/
def Sys2Proof.Laws.EncodeLength.Statement (i : Sys2Proof.Instr) : Prop :=
  (Sys2Proof.encode i).length ≤ Sys2Proof.longestCommand ∧
    ((∃ count, i = .write count ∧ (Sys2Proof.encode i).length = 1) ∨
      (Sys2Proof.encode i).length = 1 + Sys2Proof.payloadBeats i)

theorem Sys2Proof.Laws.EncodeLength.write (count : Nat) :
    Sys2Proof.Laws.EncodeLength.Statement (.write count) := ⟨(by decide : 1 ≤ 3), .inl ⟨count, rfl, rfl⟩⟩

theorem Sys2Proof.Laws.EncodeLength.snapshot :
    Sys2Proof.Laws.EncodeLength.Statement .snapshot := ⟨(by decide : 1 ≤ 3), .inr rfl⟩

theorem Sys2Proof.Laws.EncodeLength.window :
    Sys2Proof.Laws.EncodeLength.Statement .window := ⟨(by decide : 1 ≤ 3), .inr rfl⟩

theorem Sys2Proof.Laws.EncodeLength.fft :
    Sys2Proof.Laws.EncodeLength.Statement .fft := ⟨(by decide : 1 ≤ 3), .inr rfl⟩

theorem Sys2Proof.Laws.EncodeLength.bucketize :
    Sys2Proof.Laws.EncodeLength.Statement .bucketize := ⟨(by decide : 1 ≤ 3), .inr rfl⟩

theorem Sys2Proof.Laws.EncodeLength.advance (dt : Sys2Proof.Word) :
    Sys2Proof.Laws.EncodeLength.Statement (.advance dt) := ⟨(by decide : 2 ≤ 3), .inr rfl⟩

theorem Sys2Proof.Laws.EncodeLength.frame (dt : Sys2Proof.Word) :
    Sys2Proof.Laws.EncodeLength.Statement (.frame dt) := ⟨(by decide : 2 ≤ 3), .inr rfl⟩

theorem Sys2Proof.Laws.EncodeLength.bcount :
    Sys2Proof.Laws.EncodeLength.Statement .bcount := ⟨(by decide : 1 ≤ 3), .inr rfl⟩

theorem Sys2Proof.Laws.EncodeLength.logpow (re im : Sys2Proof.Word) :
    Sys2Proof.Laws.EncodeLength.Statement (.logpow re im) := ⟨(by decide : 3 ≤ 3), .inr rfl⟩

theorem Sys2Proof.Laws.EncodeLength.rdbin (j : Nat) :
    Sys2Proof.Laws.EncodeLength.Statement (.rdbin j) := ⟨(by decide : 1 ≤ 3), .inr rfl⟩
end

