-- ==== Sys2Proof/Laws/Step.lean ====
section
/-! SUPPORT. What a step can do, said once: the event it takes, what each event does, and runs of several steps. -/

namespace Sys2Proof.Machine

/-! ## The next event -/

/-- A step of a legal build handles the next event. -/
theorem step_legal {s : State} (h : s.cfg.legal = true) : step s = s.nextEvent.2.handle s.nextEvent.1 := by
  simp [step, h]

/-- A step of a legal build with a listed event handles that event. -/
theorem step_cons {s : State} {e : Event} {later : List Event} (hl : s.cfg.legal = true) (h : s.schedule = e :: later) :
    step s = ({ s with schedule := later }).handle e := by
  rw [step_legal hl, nextEvent_cons _ h]

/-- A step that answers a next state is one of a legal build. -/
theorem legal_of_step {s t : State} (h : step s = .next t) : s.cfg.legal = true := by
  unfold step at h
  split at h
  · assumption
  · cases h

/-! ## What an agent does -/

/-- `P` inside a `WRITE` receives a frame. -/
theorem handle_producer_busy {s : State} (h : 0 < s.pLeft) : s.handle .producer = .next s.receiveFrame := by
  simp [State.handle, State.producerAction, State.producerBusy, h, Action.perform]

/-- `P` between commands fetches one. -/
theorem handle_producer_idle {s : State} (h : s.pLeft = 0) : s.handle .producer = s.fetchProducer.perform := by
  simp [State.handle, State.producerAction, State.producerBusy, h]

/-- A snapshot in progress goes on. -/
theorem handle_consumer_snapshotting {s : State} (h : s.snapshotting = true) : s.handle .consumer = .next s.readSlot := by
  simp [State.handle, State.consumerAction, h, Action.perform]

/-- A `FRAME` whose snapshot is done takes its last step. -/
theorem handle_consumer_frame {s : State} {dt : Word} (h : s.snapshotting = false) (hf : s.frameDt = some dt) :
    s.handle .consumer = .next (s.frameTail dt) := by
  simp [State.handle, State.consumerAction, h, hf, Action.perform]

/-- An undelivered response holds `C`. -/
theorem handle_consumer_held {s : State} (h : s.snapshotting = false) (hf : s.frameDt = none) (hr : s.rPort ≠ []) :
    s.handle .consumer = .next s := by
  simp [State.handle, State.consumerAction, h, hf, hr, Action.perform]

/-- `C` idle: no snapshot, no `FRAME` and no response. -/
theorem consumerIdle_iff (s : State) :
    s.consumerIdle = true ↔ s.snapshotting = false ∧ s.frameDt = none ∧ s.rPort = [] := by
  simp [State.consumerIdle, Bool.and_eq_true, and_assoc]

/-- `C` between commands fetches one. -/
theorem handle_consumer_idle {s : State} (h : s.consumerIdle = true) : s.handle .consumer = s.fetchConsumer.perform := by
  obtain ⟨hs, hf, hr⟩ := (consumerIdle_iff s).1 h
  simp [State.handle, State.consumerAction, hs, hf, hr]

/-- `P` executes a whole command at its port. -/
theorem handle_producer_done {s : State} {i : Instr} {rest : List Word} (h : s.pLeft = 0)
    (hd : decode .producer (s.pTaken ++ s.pPort) = .done i rest) :
    s.handle .producer = exec i { s with pTaken := [], pPort := rest } := by
  rw [handle_producer_idle h, State.fetchProducer, hd]
  rfl

/-- `P` takes the beats of an incomplete command and waits. -/
theorem handle_producer_incomplete {s : State} (h : s.pLeft = 0) (hd : decode .producer (s.pTaken ++ s.pPort) = .incomplete) :
    s.handle .producer = .next { s with pTaken := s.pTaken ++ s.pPort, pPort := [] } := by
  rw [handle_producer_idle h, State.fetchProducer, hd]
  rfl

/-- `P` refuses a word that selects no row on its port. -/
theorem handle_producer_reserved {s : State} {w : Word} (h : s.pLeft = 0) (hd : decode .producer (s.pTaken ++ s.pPort) = .reserved w) :
    s.handle .producer = .refused (.reservedEncoding .producer w) := by
  rw [handle_producer_idle h, State.fetchProducer, hd]
  rfl

/-- `C` executes a whole command at its port. -/
theorem handle_consumer_done {s : State} {i : Instr} {rest : List Word} (h : s.consumerIdle = true)
    (hd : decode .consumer (s.cTaken ++ s.cPort) = .done i rest) :
    s.handle .consumer = exec i { s with cTaken := [], cPort := rest } := by
  rw [handle_consumer_idle h, State.fetchConsumer, hd]
  rfl

/-- `C` takes the beats of an incomplete command and waits. -/
theorem handle_consumer_incomplete {s : State} (h : s.consumerIdle = true) (hd : decode .consumer (s.cTaken ++ s.cPort) = .incomplete) :
    s.handle .consumer = .next { s with cTaken := s.cTaken ++ s.cPort, cPort := [] } := by
  rw [handle_consumer_idle h, State.fetchConsumer, hd]
  rfl

/-- `C` refuses a word that selects no row on its port. -/
theorem handle_consumer_reserved {s : State} {w : Word} (h : s.consumerIdle = true) (hd : decode .consumer (s.cTaken ++ s.cPort) = .reserved w) :
    s.handle .consumer = .refused (.reservedEncoding .consumer w) := by
  rw [handle_consumer_idle h, State.fetchConsumer, hd]
  rfl

/-- Inside a `WRITE`: a frame step when a whole frame is there, else the beats there are taken. -/
theorem receiveFrame_cases (s : State) :
    (∃ l r rest, s.pTaken ++ s.pPort = l :: r :: rest ∧
      s.receiveFrame = ({ s with pTaken := [], pPort := rest } : State).frameStep l r) ∨
    ((s.pTaken ++ s.pPort).length ≤ 1 ∧ s.receiveFrame = { s with pTaken := s.pTaken ++ s.pPort, pPort := [] }) := by
  match hx : s.pTaken ++ s.pPort with
  | [] => exact .inr (by simp [State.receiveFrame, hx, takeFrame])
  | [_] => exact .inr (by simp [State.receiveFrame, hx, takeFrame])
  | l :: r :: rest => exact .inl ⟨l, r, rest, rfl, by simp [State.receiveFrame, hx, takeFrame]⟩

/-- Everything that a step of `P` can do: go on with a frame, execute a command it has fetched, wait for more beats, or refuse
a reserved word. -/
theorem handle_producer_cases (s : State) :
    (0 < s.pLeft ∧ s.handle .producer = .next s.receiveFrame) ∨
    (s.pLeft = 0 ∧ ∃ i rest, decode .producer (s.pTaken ++ s.pPort) = .done i rest ∧
      s.handle .producer = exec i { s with pTaken := [], pPort := rest }) ∨
    (s.pLeft = 0 ∧ decode .producer (s.pTaken ++ s.pPort) = .incomplete ∧
      s.handle .producer = .next { s with pTaken := s.pTaken ++ s.pPort, pPort := [] }) ∨
    (s.pLeft = 0 ∧ ∃ w, decode .producer (s.pTaken ++ s.pPort) = .reserved w ∧
      s.handle .producer = .refused (.reservedEncoding .producer w)) := by
  by_cases hb : 0 < s.pLeft
  · exact .inl ⟨hb, handle_producer_busy hb⟩
  · have h0 : s.pLeft = 0 := by omega
    right
    cases hd : decode .producer (s.pTaken ++ s.pPort) with
    | done i rest => exact .inl ⟨h0, i, rest, rfl, handle_producer_done h0 hd⟩
    | incomplete => exact .inr (.inl ⟨h0, rfl, handle_producer_incomplete h0 hd⟩)
    | reserved w => exact .inr (.inr ⟨h0, w, rfl, handle_producer_reserved h0 hd⟩)

/-- Everything that a step of `C` can do: a read of a snapshot, the last step of a `FRAME`, nothing while a response is
undelivered, a command it has fetched, waiting for more beats, or refusing a reserved word. -/
theorem handle_consumer_cases (s : State) :
    (s.snapshotting = true ∧ s.handle .consumer = .next s.readSlot) ∨
    (s.snapshotting = false ∧ ∃ dt, s.frameDt = some dt ∧ s.handle .consumer = .next (s.frameTail dt)) ∨
    (s.snapshotting = false ∧ s.frameDt = none ∧ s.rPort ≠ [] ∧ s.handle .consumer = .next s) ∨
    (s.consumerIdle = true ∧ ∃ i rest, decode .consumer (s.cTaken ++ s.cPort) = .done i rest ∧
      s.handle .consumer = exec i { s with cTaken := [], cPort := rest }) ∨
    (s.consumerIdle = true ∧ decode .consumer (s.cTaken ++ s.cPort) = .incomplete ∧
      s.handle .consumer = .next { s with cTaken := s.cTaken ++ s.cPort, cPort := [] }) ∨
    (s.consumerIdle = true ∧ ∃ w, decode .consumer (s.cTaken ++ s.cPort) = .reserved w ∧
      s.handle .consumer = .refused (.reservedEncoding .consumer w)) := by
  by_cases hi : s.consumerIdle = true
  · right; right; right
    cases hd : decode .consumer (s.cTaken ++ s.cPort) with
    | done i rest => exact .inl ⟨hi, i, rest, rfl, handle_consumer_done hi hd⟩
    | incomplete => exact .inr (.inl ⟨hi, rfl, handle_consumer_incomplete hi hd⟩)
    | reserved w => exact .inr (.inr ⟨hi, w, rfl, handle_consumer_reserved hi hd⟩)
  · by_cases hs : s.snapshotting = true
    · exact .inl ⟨hs, handle_consumer_snapshotting hs⟩
    · have hs' : s.snapshotting = false := by simpa using hs
      by_cases hf : s.frameDt = none
      · have hr : s.rPort ≠ [] := fun hr => hi ((consumerIdle_iff s).2 ⟨hs', hf, hr⟩)
        exact .inr (.inr (.inl ⟨hs', hf, hr, handle_consumer_held hs' hf hr⟩))
      · obtain ⟨dt, hdt⟩ := Option.ne_none_iff_exists'.1 hf
        exact .inr (.inl ⟨hs', dt, hdt, handle_consumer_frame hs' hdt⟩)

/-- What the P-port's decoder reads is a `WRITE` whose count fits. -/
theorem decode_producer_done {beats : List Word} {i : Instr} {rest : List Word}
    (h : decode .producer beats = .done i rest) : ∃ count, i = .write count ∧ count < immLimit := by
  cases beats with
  | nil => cases h
  | cons w bs =>
    simp only [decode, decodeProducer] at h
    split at h
    · cases h
      exact ⟨_, rfl, immOf_lt w⟩
    · cases h

/-- No `WRITE` is read on the C-port. -/
theorem decode_consumer_ne_write {beats : List Word} {i : Instr} {rest : List Word}
    (h : decode .consumer beats = .done i rest) (count : Nat) : i ≠ .write count := by
  rintro rfl
  cases beats with
  | nil => cases h
  | cons w bs =>
    simp only [decode, decodeConsumer] at h
    repeat' split at h
    all_goals first
      | cases h
      | (revert h; unfold withOneBeat; split <;> intro h <;> cases h)
      | (revert h; unfold withTwoBeats; split <;> intro h <;> cases h)

/-! ## Runs -/

/-- No steps. -/
theorem run_zero (s : State) : Host.Core.run Sys2Proof.core 0 s = .next s := rfl

/-- One step more. -/
theorem run_succ {k : Nat} {s t : State} (h : step s = .next t) :
    Host.Core.run Sys2Proof.core (k + 1) s = Host.Core.run Sys2Proof.core k t := by
  have hc : Sys2Proof.core.step s = .next t := h
  simp only [Host.Core.run, hc]

/-- A run that answers a state begins with a step that answers one. -/
theorem step_of_run {k : Nat} {s t : State} (h : Host.Core.run Sys2Proof.core (k + 1) s = .next t) :
    ∃ u, step s = .next u ∧ Host.Core.run Sys2Proof.core k u = .next t := by
  cases hs : step s with
  | next u => exact ⟨u, rfl, (run_succ hs).symm.trans h⟩
  | fault r => cases r
  | refused r =>
    have hc : Sys2Proof.core.step s = .refused r := hs
    simp only [Host.Core.run, hc] at h
    cases h

/-- A run of several steps, in two parts. -/
theorem run_add {j k : Nat} {s t : State} (h : Host.Core.run Sys2Proof.core j s = .next t) :
    Host.Core.run Sys2Proof.core (j + k) s = Host.Core.run Sys2Proof.core k t := by
  induction j generalizing s with
  | zero =>
    cases h
    rw [Nat.zero_add]
  | succ j ih =>
    obtain ⟨u, hs, hu⟩ := step_of_run h
    rw [Nat.succ_add]
    exact (run_succ hs).trans (ih hu)

end Sys2Proof.Machine
end

