-- ==== Sys2Proof/Tests/Slice0.lean ====
section
/-! SUPPORT. Small tests whose expected values come from the spec (95_test_vectors.md, and the rules named), and for each
obligation with hypotheses a witness that meets them together. -/

namespace Sys2Proof.Tests

-- The tests are checked one after another: elaborated side by side, their threads need more memory than the check allows.
set_option Elab.async false

open Sys2Proof Sys2Proof.Machine

/-! ## Helpers -/

/-- The reference design at another size: `LOG2N = k + 1`. -/
def build (k : Fin 20) : Config := { Config.reference with log2nPred := k }

/-- The reset state at that size. -/
def start (k : Fin 20) : State := State.initial (build k) 0

/-- The state with the words of a space given. -/
def fill (s : State) (sp : Space) (ws : List Word) : State := s.writeAll sp (spaceSize s.cfg sp) fun i => ws.getD i 0

/-- The words of a space, from index 0 on. -/
def words (s : State) (sp : Space) : List Word := (List.range (spaceSize s.cfg sp)).map (s.read sp)

/-- A view of the next state, absent on a stop. -/
def after {α : Type} (o : Host.Outcome State Fault Refusal) (view : State → α) : Option α :=
  match o with
  | .next t => some (view t)
  | .fault _ => none
  | .refused _ => none

/-- The refusal, absent otherwise. -/
def refusal (o : Host.Outcome State Fault Refusal) : Option Refusal :=
  match o with
  | .next _ => none
  | .fault _ => none
  | .refused r => some r

/-- The invariant as a check that can be run. -/
def invCheck (s : State) : Bool :=
  s.cfg.legal && decide (s.head < s.cfg.n) && decide (s.headC < s.cfg.n) && decide (s.sH < s.cfg.n) &&
    decide (s.sI ≤ s.cfg.n) && decide (s.pLeft < immLimit) && decide (s.pKeep < s.cfg.n) && decide (s.pKeep ≤ s.pLeft) &&
    [Space.ring, .snap, .frm, .spec, .tgt, .bins].all (fun sp => (s.mem sp).wf sp.resetWord (spaceSize s.cfg sp)) &&
    decide (s.pLeft = 0 → s.pTaken = []) && decide (s.pTaken.length ≤ 1) &&
    decide (decode .consumer s.cTaken = .incomplete) && decide (s.consumerIdle = false → s.cTaken = []) &&
    decide (s.snapshotting = true ∨ s.frameDt ≠ none → s.rPort = [])

theorem inv_of_check {s : State} (h : invCheck s = true) : s.Inv := by
  simp only [invCheck, Bool.and_eq_true, decide_eq_true_eq, List.all_cons, List.all_nil, and_true] at h
  obtain ⟨⟨⟨⟨⟨⟨⟨⟨⟨⟨⟨⟨⟨h1, h2⟩, h3⟩, h4⟩, h5⟩, h6⟩, h7⟩, h8⟩, m1, m2, m3, m4, m5, m6⟩, h9⟩, h10⟩, h11⟩, h12⟩, h13⟩ := h
  exact ⟨h1, h2, h3, h4, h5, h6, h7, h8, fun sp => by cases sp <;> assumption, h9, h10, h11, h12, h13⟩

/-! ## Well-formedness: what the checks refuse (30_encoding.md R83, R87, R91) -/

theorem test_wf_write : (Instr.write 16777215).isWf = true ∧ (Instr.write 16777216).isWf = false := by decide

theorem test_wf_rdbin : (Instr.rdbin 16777215).isWf = true ∧ (Instr.rdbin 16777216).isWf = false := by decide

theorem test_wf_lines : (AsmLine.silence 16777215).isWf = true ∧ (AsmLine.silence 16777216).isWf = false ∧
    (AsmLine.rdbin 16777216).isWf = false := by decide

/-- The opcode field is bits 31:24, the immediate bits 23:0: a wrong opcode byte is no row of the port. -/
theorem test_wf_words : [0x00000000#32, 0x10000000#32, 0x02000000#32].map (fun w => decode .producer [w]) =
    [.reserved 0x00000000#32, .reserved 0x10000000#32, .reserved 0x02000000#32] := by decide

/-! ## Decoding, words from 95_test_vectors.md sections 2.7 and 3.6 -/

theorem test_decode_write : decode .producer [0x01000002#32, 0x3F800000#32] = .done (.write 2) [0x3F800000#32] ∧
    decode .producer [0x01FFFFFF#32] = .done (.write 16777215) [] := by decide

theorem test_decode_snapshot : decode .consumer [0b00010000_00000000_00000000_00000000#32] = .done .snapshot [] := by decide

theorem test_decode_window : decode .consumer [0b00010001_00000000_00000000_00000000#32] = .done .window [] := by decide

theorem test_decode_fft : decode .consumer [0b00010010_00000000_00000000_00000000#32] = .done .fft [] := by decide

theorem test_decode_bucketize : decode .consumer [0b00010011_00000000_00000000_00000000#32] = .done .bucketize [] := by decide

/-- The second beat is data: it is the bit pattern of `dt`, never a command word (R90). -/
theorem test_decode_advance :
    decode .consumer [0b00010100_00000000_00000000_00000000#32, 0x19000000#32] = .done (.advance 0x19000000#32) [] := by decide

theorem test_decode_frame : decode .consumer [0b00010101_00000000_00000000_00000000#32, 0x3C888889#32, 0x16000000#32] =
    .done (.frame 0x3C888889#32) [0x16000000#32] := by decide

theorem test_decode_bcount : decode .consumer [0b00010110_00000000_00000000_00000000#32] = .done .bcount [] := by decide

theorem test_decode_logpow :
    decode .consumer [0b00010111_00000000_00000000_00000000#32, 0x3F800000#32, 0x16000000#32] =
      .done (.logpow 0x3F800000#32 0x16000000#32) [] ∧
    decode .consumer [0x17000000#32, 0x3F800000#32] = .incomplete := by decide

theorem test_decode_rdbin : decode .consumer [0b00011000_00000000_00000000_00100101#32] = .done (.rdbin 37) [] := by decide

theorem test_decode_reserved :
    [0x00000000#32, 0x01000002#32, 0x10000001#32, 0x12000001#32, 0x19000000#32, 0xFFFFFFFF#32].map
      (fun w => decide (decode .consumer [w] = .reserved w)) = [true, true, true, true, true, true] := by decide

theorem test_assemble_pipe : assemble (.pipe (.bits 0x3C888889#32)) =
    (.consumer, [0x10000000#32, 0x11000000#32, 0x12000000#32, 0x13000000#32, 0x14000000#32, 0x3C888889#32]) := by decide

/-- A decimal literal is the nearest `f32`: `P: WRITE 2, (1.0, 0.5), (-2.0, -3.0)`. -/
theorem test_assemble_write :
    assemble (.write [(.decimal false 10 1, .decimal false 5 1), (.decimal true 20 1, .decimal true 30 1)]) =
      (.producer, [0x01000002#32, 0x3F800000#32, 0x3F000000#32, 0xC0000000#32, 0xC0400000#32]) := by decide +kernel

theorem test_assembler_text :
    (AsmLine.write [(.decimal false 10 1, .decimal false 5 1), (.decimal true 20 1, .decimal true 30 1)]).text =
      "P: WRITE 2, (1.0, 0.5), (-2.0, -3.0)" ∧
    (AsmLine.frame (.bits 0x3C888889#32)).text = "C: FRAME 0x3C888889" ∧ (AsmLine.rdbin 37).text = "C: RDBIN 37" := by
  decide +kernel

theorem test_bytes : wordToBytes 0x3C888889#32 = [0x89#8, 0x88#8, 0x88#8, 0x3C#8] ∧
    decodeBytes .consumer [0x00#8, 0x00#8, 0x00#8, 0x16#8] = .done .bcount [] := by decide

theorem test_table_word : decodeTableWord 32 0x18000025 = some (.rdbin 37) ∧ decodeTableWord 32 0x01000002 = some (.write 2) ∧
    decodeTableWord 64 (0x3C888889 * 2 ^ 32 + 0x15000000) = some (.frame 0x3C888889#32) ∧
    decodeTableWord 32 0x12000001 = none := by decide

/-! ## Arithmetic (00_scope.md R14) -/

/-- `1 + 2^-24` is halfway and goes to the even 1; `1 + 3·2^-24` is halfway and goes up to the even `1 + 2^-22`. -/
theorem test_round_ties : fadd 0 0x3F800000#32 0x33800000#32 = 0x3F800000#32 ∧
    fadd 0 0x3F800001#32 0x33800000#32 = 0x3F800002#32 := by decide +kernel

/-- Subnormals are kept: half of the least normal is the subnormal `2^-127`; half of the least subnormal ties to zero. -/
theorem test_subnormal : fmul 0 0x00800000#32 0x3F000000#32 = 0x00400000#32 ∧ fmul 0 0x00000001#32 0x3F000000#32 = 0#32 ∧
    fmul 0 0x00000003#32 0x3F000000#32 = 2#32 := by decide +kernel

/-- The greatest finite number doubled overflows; `inf - inf` and `0/0` are NaNs; 1 divided by `-0` is `-inf`. -/
theorem test_specials : fadd 0 0x7F7FFFFF#32 0x7F7FFFFF#32 = 0x7F800000#32 ∧
    Fp.ofWord (fsub 0 0x7F800000#32 0x7F800000#32) = .nan ∧ Fp.ofWord (fdiv 0 0#32 0#32) = .nan ∧
    fdiv 0 0x3F800000#32 0x80000000#32 = 0xFF800000#32 := by decide +kernel

/-! ## Tables, 95_test_vectors.md sections 2.2 and 2.3, 43_bucketizer.md R167 -/

theorem test_hann_8 : (List.range 8).map (hannWord (build 2)) =
    [0x00000000#32, 0x3E40C5F2#32, 0x3F1C7B91#32, 0x3F7352F3#32, 0x3F7352F3#32, 0x3F1C7B91#32, 0x3E40C5F2#32,
      0x00000000#32] := by decide +kernel

theorem test_hann_8192 : [1, 4095].map (hannWord Config.reference) = [0x341DF3C5#32, 0x3F7FFFFF#32] := by decide +kernel

theorem test_twid_8 : (List.range 4).map (fun m => ((twid (build 2) m).re.toWord 0, (twid (build 2) m).im.toWord 0)) =
    [(0x3F800000#32, 0x00000000#32), (0x3F3504F3#32, 0xBF3504F3#32), (0x00000000#32, 0xBF800000#32),
      (0xBF3504F3#32, 0xBF3504F3#32)] := by decide +kernel

theorem test_twid_8192 : ((twid Config.reference 1).re.toWord 0, (twid Config.reference 1).im.toWord 0) =
    (0x3F7FFFFB#32, 0xBA490FD9#32) := by decide +kernel

/-- The reference window has H1 to H5; so has a table with one pair of entries moved by one unit in the last place; a table that
is not symmetric, or has no zero ends, has not (R131). -/
theorem test_hannLegal :
    let t (a b : Word) (i : Nat) : Fp := Fp.ofWord (([0x00000000#32, 0x3E40C5F2#32, a, 0x3F7352F3#32, 0x3F7352F3#32, b,
      0x3E40C5F2#32, 0x00000000#32] : List Word).getD i 0)
    hannLegal (build 2) (t 0x3F1C7B91#32 0x3F1C7B91#32) = true ∧ hannLegal (build 2) (t 0x3F1C7B90#32 0x3F1C7B90#32) = true ∧
      hannLegal (build 2) (t 0x3F1C7B90#32 0x3F1C7B91#32) = false ∧ hannLegal (build 2) (fun _ => .one) = false := by
  decide +kernel

/-- The same for the twiddles and T1 to T4 (R141). -/
theorem test_twidLegal :
    let t (a b : Word) (m : Nat) : Cpx :=
      ([{ re := .one, im := .zero }, { re := Fp.ofWord a, im := Fp.ofWord b }, { re := .zero, im := Fp.one.neg },
        { re := Fp.ofWord b, im := Fp.ofWord b }] : List Cpx).getD m { re := .nan, im := .nan }
    twidLegal (build 2) (t 0x3F3504F3#32 0xBF3504F3#32) = true ∧ twidLegal (build 2) (t 0x3F3504F2#32 0xBF3504F2#32) = true ∧
      twidLegal (build 2) (t 0x3F3504F3#32 0x3F3504F3#32) = false := by decide +kernel

/-- At `0x402DF855` the real logarithm lies just above 1: one unit in the last place below it, `0x3F7FFFFF`, is still legal, the
value below that is not; nor is, near 1.0, a value on the wrong side of zero (L6, L7). -/
theorem test_lnEntryLegal :
    [(0x402DF855, 0x3F800000#32), (0x402DF855, 0x3F7FFFFF#32), (0x402DF855, 0x3F7FFFFE#32), (0x3F800001, 0x80000000#32)].map
      (fun p => lnEntryLegal (patternMag p.1) (Fp.ofWord p.2)) = [true, true, false, false] := by decide +kernel

theorem test_bounds : [15, 16, 17, 36, 37, 38, 39, 104].map bound = [16, 17, 19, 74, 79, 84, 90, 4325] := by decide +kernel

/-- Pi and the logarithm of 2, to 180 bits, from their series: 4·(4·atan(1/5) - atan(1/239)) and 2·atanh(1/3). -/
theorem test_constants :
    let x5 := fxOne / 25
    let x239 := fxOne / (239 * 239)
    let atan := fun (x2 t : Nat) => ((List.range 90).foldl (fun (a : Int × Nat) i =>
      (a.1 + (if i % 2 = 0 then 1 else -1) * (a.2 / (2 * i + 1) : Nat), a.2 * x2 / fxOne)) ((0 : Int), t)).1
    (16 * atan x5 (fxOne / 5) - 4 * atan x239 (fxOne / 239) - fxPi).natAbs < 2 ^ 12 ∧
      ((2 * atanhSeries (fxOne / 9) 90 0 (fxOne / 3) : Nat) - fxLn2 : Int).natAbs < 2 ^ 12 := by decide +kernel

/-! ## WRITE and SNAPSHOT, section 2.1 -/

theorem test_downmix_algMax :
    [(0x3F800000#32, 0x3F000000#32), (0xC0000000#32, 0xC0400000#32), (0xC0400000#32, 0x3F800000#32), (0#32, 0x80000000#32),
      (0x80000000#32, 0#32), (0x7FC00000#32, 0x3F800000#32), (0x3F800000#32, 0xFFC00001#32), (0x7F800000#32, 0x41200000#32),
      (0xFF800000#32, 0x41200000#32), (1#32, 0#32)].map (fun f => downmix .algMax f.1 f.2) =
    [0x3F800000#32, 0xC0000000#32, 0x3F800000#32, 0x80000000#32, 0#32, 0x3F800000#32, 0xFFC00001#32, 0x7F800000#32,
      0x41200000#32, 1#32] := by decide +kernel

theorem test_downmix_absMax :
    [(0x3F800000#32, 0x3F000000#32), (0xC0000000#32, 0xC0400000#32), (0xC0400000#32, 0x3F800000#32), (0#32, 0x80000000#32),
      (0x80000000#32, 0#32), (0x7FC00000#32, 0x3F800000#32), (0x3F800000#32, 0xFFC00001#32), (0x7F800000#32, 0x41200000#32),
      (0xFF800000#32, 0x41200000#32), (1#32, 0#32)].map (fun f => downmix .absMax f.1 f.2) =
    [0x3F800000#32, 0x40400000#32, 0x40400000#32, 0#32, 0#32, 0x3F800000#32, 0x7FC00001#32, 0x7F800000#32,
      0x7F800000#32, 1#32] := by decide +kernel

/-- `WRITE 6` at `N = 4` keeps three frames. -/
theorem test_write_header : after (exec (.write 6) (start 1)) (fun t => (t.pLeft, t.pKeep, t.head)) = some (6, 3, 0) := by
  decide

/-- Program 2: the frame `(7, -1)` at `HEAD = 3` goes to slot 3 and `HEAD` wraps to 0. -/
theorem test_write_wraps :
    let t := (fill { start 1 with head := 3, pLeft := 2, pKeep := 2 } .ring
      [0x3F800000#32, 0x40000000#32, 0x40400000#32, 0#32]).frameStep 0x40E00000#32 0xBF800000#32
    words t .ring = [0x3F800000#32, 0x40000000#32, 0x40400000#32, 0x40E00000#32] ∧ t.head = 0 ∧ t.pLeft = 1 ∧ t.pKeep = 1 := by
  decide +kernel

theorem test_snapshot_latch : after (exec .snapshot { start 1 with headC := 3 }) (fun t => (t.sH, t.sI)) = some (3, 0) := by
  decide

/-- With `S_H = 0` the read of index 1 is slot 3. -/
theorem test_snapshot_wraps :
    (fill { start 1 with sH := 0, sI := 1 } .ring [10#32, 20#32, 30#32, 40#32]).readSlot.read .snap 1 = 40#32 := by
  decide +kernel

/-! ## The stages, sections 2.2 to 2.5 -/

theorem test_window : after (exec .window (fill (start 1) .snap [0x40000000#32, 0xC1000000#32, 0x40E00000#32, 0x40400000#32]))
    (fun t => words t .frm) = some [0#32, 0xC0C00000#32, 0x40A80000#32, 0#32] := by decide +kernel

/-- The sign of a zero product. -/
theorem test_window_zero_signs :
    after (exec .window (fill (start 1) .snap [0xC0000000#32, 0x3F800000#32, 0x3F800000#32, 0x80000000#32]))
      (fun t => words t .frm) = some [0x80000000#32, 0x3F400000#32, 0x3F400000#32, 0x80000000#32] := by decide +kernel

theorem test_fft_4 : after (exec .fft (fill (start 1) .frm [0x3F800000#32, 0x40000000#32, 0x40400000#32, 0x40800000#32]))
    (fun t => words t .spec) = some [0x41200000#32, 0#32, 0xC0000000#32, 0x40000000#32, 0xC0000000#32, 0#32, 0xC0000000#32,
      0xC0000000#32] := by decide +kernel

/-- Size 8: a shifted impulse, entries 1, 2, 3, 5; two impulses, whose transform is the sum of the two (linearity); the sinusoid
`sin(2π·i/8)`, which is `-4i` at index 1 and `+4i` at the mirror 7, with the rounding leak at 3 and 5 (section 2.3; R147). -/
theorem test_fft_8 :
    after (exec .fft (fill (start 2) .frm [0#32, 0x3F800000#32]))
      (fun t => [t.read .spec 2, t.read .spec 3, t.read .spec 5, t.read .spec 6, t.read .spec 10, t.read .spec 11]) =
      some [0x3F3504F3#32, 0xBF3504F3#32, 0xBF800000#32, 0xBF3504F3#32, 0xBF3504F3#32, 0x3F3504F3#32] ∧
    after (exec .fft (fill (start 2) .frm [0x3F800000#32, 0x3F800000#32]))
      (fun t => [t.read .spec 2, t.read .spec 3, t.read .spec 5, t.read .spec 6, t.read .spec 10, t.read .spec 11]) =
      some [0x3FDA827A#32, 0xBF3504F3#32, 0xBF800000#32, 0x3E95F61A#32, 0x3E95F61A#32, 0x3F3504F3#32] ∧
    after (exec .fft (fill (start 2) .frm [0#32, 0x3F3504F3#32, 0x3F800000#32, 0x3F3504F3#32, 0#32, 0xBF3504F3#32, 0xBF800000#32,
      0xBF3504F3#32]))
      (fun t => [t.read .spec 2, t.read .spec 3, t.read .spec 7, t.read .spec 11, t.read .spec 14, t.read .spec 15]) =
      some [0#32, 0xC0800000#32, 0x34000000#32, 0xB4000000#32, 0#32, 0x40800000#32] := by decide +kernel

/-- The NaN bin is skipped and the large DC bin ignored. -/
theorem test_bucketize : after (exec .bucketize (fill (start 2) .spec [0x447A0000#32, 0#32, 0x40400000#32, 0x40800000#32, 0#32,
    0x40000000#32, 0x7FC00000#32, 0x3F800000#32])) (fun t => words t .tgt) =
    some [0x3F800000#32, 0x3EDC81A3#32, 0#32] := by decide +kernel

/-- The floor of the denominator: no bucket reaches 1.0. -/
theorem test_bucketize_quiet : after (exec .bucketize (fill (start 2) .spec [0#32, 0#32, 0x3FC00000#32, 0#32, 0x3F000000#32,
    0x3F000000#32, 0#32, 0xBF800000#32])) (fun t => words t .tgt) = some [0x3F4F991F#32, 0#32, 0#32] := by decide +kernel

theorem test_logpow : [(0x40400000#32, 0x40800000#32), (0x3F000000#32, 0#32), (0xC0000000#32, 0x40000000#32),
    (0x3FD3089A#32, 0#32), (0x0DA24260#32, 0#32)].map
      (fun z => after (exec (.logpow z.1 z.2) (start 0)) (fun t => t.rPort.map Response.data)) =
    [some [0x404E0210#32], some [0xBFB17218#32], some [0x40051592#32], some [0x3F7FFE4F#32], some [0xFF800000#32]] := by
  decide +kernel

theorem test_logpow_nan : logPower (build 0) { re := .nan, im := .one } = .nan := by decide +kernel

theorem test_bcount : after (exec .bcount State.reset) (fun t => t.rPort) = some [⟨0x00000068#32, true⟩] := by decide +kernel

theorem test_advance : after (exec (.advance 0x3C888889#32) (fill (fill (start 2) .bins [0#32, 0x3E088889#32, 0x3F800000#32]) .tgt
    [0x3F800000#32, 0x3F800000#32, 0#32])) (fun t => words t .bins) =
    some [0x3E088889#32, 0x3E7EDCBC#32, 0x3F5DDDDE#32] := by decide +kernel

/-- `dt = 0.5` overshoots to 4.0 and nothing clamps it. -/
theorem test_advance_overshoots : after (exec (.advance 0x3F000000#32) (fill (fill (start 1) .bins [0#32]) .tgt [0x3F800000#32]))
    (fun t => words t .bins) = some [0x40800000#32] := by decide +kernel

theorem test_rdbin : after (exec (.rdbin 2) (fill (start 2) .bins [1#32, 2#32, 0x3E088889#32])) (fun t => t.rPort) =
    some [⟨0x3E088889#32, true⟩] := by decide +kernel

theorem test_rdbin_refused : refusal (exec (.rdbin 3) (start 2)) = some (.rdbinIndexOutOfRange 3) ∧
    refusal (exec (.rdbin 104) State.reset) = some (.rdbinIndexOutOfRange 104) := by decide +kernel

theorem test_frame_begins : after (exec (.frame 0x3E000000#32) { start 1 with headC := 1 }) (fun t => (t.sH, t.sI, t.frameDt)) =
    some (1, 0, some 0x3E000000#32) := by decide

/-- Program 2 as a `FRAME`: after the snapshot `[2, -8, 7, 3]` the last step leaves `BINS = [1.0]` and responds with it. -/
theorem test_frame_ends : after (step { fill { start 1 with frameDt := some 0x3E000000#32, schedule := [.consumer] } .snap
    [0x40000000#32, 0xC1000000#32, 0x40E00000#32, 0x40400000#32] with tick := 0 })
    (fun t => (words t .spec, words t .tgt, words t .bins, t.rPort, t.frameDt)) =
    some ([0xBF400000#32, 0#32, 0xC0A80000#32, 0x40C00000#32, 0x41340000#32, 0#32, 0xC0A80000#32, 0xC0C00000#32],
      [0x3F800000#32], [0x3F800000#32], [⟨0x3F800000#32, true⟩], none) := by decide +kernel

/-! ## Steps and the host -/

/-- A step from reset with a command presented runs it first. -/
theorem test_fetch_runs_first :
    after (step (State.reset.withFetchWord 64 (0x3C888889 * 2 ^ 32 + 0x15000000))) (fun t => (t.sI, t.frameDt, t.cPort)) =
      some (0, some 0x3C888889#32, []) ∧
    after (step (State.reset.withFetchWord 32 0x01000002)) (fun t => (t.pLeft, t.pKeep)) = some (2, 2) := by decide +kernel

theorem test_fetch_runs_fft : after (step (State.reset.withFetchWord 32 0x12000000)) (fun t => t.draws) = some 1 := by
  decide +kernel

theorem test_fetch_refuses : refusal (step (State.reset.withFetchWord 32 0x19000000)) =
    some (.reservedEncoding .consumer 0x19000000#32) := by decide +kernel

theorem test_response_order :
    after (step { start 1 with rPort := [⟨1#32, false⟩, ⟨2#32, true⟩], schedule := [.acceptR] }) (fun t => (t.rPort, t.cReady)) =
      some ([⟨2#32, true⟩], false) := by decide

/-! ## Witnesses: a state and operands meeting all the hypotheses of an obligation together -/

/-- A finite pattern is one whose value is finite. -/
theorem isFinite_of {w : Word} {neg : Bool} {m : Nat} (h : Fp.ofWord w = .fin neg m) : isFinite w := ⟨neg, m, h⟩

theorem witness_DecodeUndoesEncode : (Instr.write 16777215).wf ∧ (Instr.rdbin 16777215).wf ∧ (Instr.logpow 0 0).wf := by decide

theorem witness_DecodedBeatsAreTheEncoding :
    decode .producer [0x01FFFFFF#32, 1#32] = .done (.write 16777215) [1#32] ∧
      decode .consumer [0x17000000#32, 1#32, 2#32, 3#32] = .done (.logpow 1 2) [3#32] := by decide

theorem witness_ReservedWordsAreRefused :
    (∃ (s : State) (w : Word) (rest : List Word) (later : List Event), s.cfg.legal = true ∧ s.schedule = .producer :: later ∧
      ProducerPresented s (w :: rest) ∧ w &&& 0xFF000000#32 ≠ 0x01000000#32) ∧
    ∃ (s : State) (w : Word) (rest : List Word) (later : List Event), s.cfg.legal = true ∧ s.schedule = .consumer :: later ∧
      ConsumerPresented s (w :: rest) ∧
      w ∉ [0x10000000#32, 0x11000000#32, 0x12000000#32, 0x13000000#32, 0x14000000#32, 0x15000000#32, 0x16000000#32,
        0x17000000#32] ∧ w &&& 0xFF000000#32 ≠ 0x18000000#32 :=
  ⟨⟨{ State.reset with schedule := [.producer], pPort := [0x10000000#32] }, 0x10000000#32, [], [], by decide, rfl,
      ⟨rfl, rfl, rfl⟩, by decide⟩,
    ⟨{ State.reset with schedule := [.consumer], cPort := [0x10000001#32] }, 0x10000001#32, [], [], by decide, rfl,
      ⟨by decide, rfl, rfl⟩, by decide, by decide⟩⟩

/-- One half is halfway between 0 and the least subnormal: the tie of the last clause. -/
theorem witness_RoundingIsToNearestTiesToEven : 0 < 2 ∧ Fp.nearest 1 2 < Fp.overflow ∧ Fp.ofWord 1#32 = .fin false 1 ∧
    1 ≠ Fp.nearest 1 2 ∧ ((Fp.nearest 1 2 * 2 : Int) - 1).natAbs = ((1 * 2 : Int) - 1).natAbs ∧
    Fp.ofWord 0x80000001#32 = .fin true 1 ∧ (1 : Nat) ≠ 0 := by decide +kernel

theorem witness_SumsAndProductsCommuteAndNaNsAreQuiet :
    fsub 5 0x7F800000#32 0x7F800000#32 ∈ [fadd 5 0x7F800000#32 0x7F800000#32, fsub 5 0x7F800000#32 0x7F800000#32,
      fmul 5 0x7F800000#32 0x7F800000#32, fdiv 5 0x7F800000#32 0x7F800000#32] ∧
    Fp.ofWord (fsub 5 0x7F800000#32 0x7F800000#32) = .nan ∧ Fp.ofWord 0xFFC00001#32 = .nan ∧
    Fp.ofWord 0xFF800000#32 = .inf true ∧ Fp.ofWord 0x7F800000#32 = .inf false ∧ Fp.ofWord 0x80000001#32 = .fin true 1 ∧
    Fp.ofWord 0x80000000#32 = .fin true 0 := by decide +kernel

theorem witness_UnitProductAndQuotientAreExact : Fp.ofWord 0x80000001#32 ≠ .nan ∧
    ∃ neg m, Fp.ofWord 0x80000001#32 = .fin neg m ∧ m ≠ 0 := ⟨by decide, true, 1, by decide, by decide⟩

theorem witness_GreaterThanIgnoresNaNsAndZeroSigns : Fp.ofWord 0x7FC00000#32 = .nan ∧
    fgt 0x40000000#32 0x3F800000#32 = true ∧ fgt 0x3F800000#32 0#32 = true ∧ Fp.ofWord 0xFF800000#32 ≠ .nan ∧
    Fp.ofWord 0x80000001#32 = .fin true 1 := by decide +kernel

theorem witness_HannTableIsSymmetricWithZeroEnds : 0 < (build 0).n ∧ 1048575 < (build 19).n ∧
    4 ≤ (build 1).n ∧ 0 < 1 ∧ 2 < (build 1).n - 1 := by decide +kernel

theorem witness_TwiddleTableSymmetries : 4 ≤ (build 1).n ∧ 8 ≤ (build 2).n ∧ 0 < 1 ∧ 1 < (build 2).n / 4 ∧
    1 < (build 1).n / 2 := by decide

theorem witness_BucketCountCountsBoundaries : (2 ≤ 2 ∧ 2 ≤ 18) ∧ (2 ≤ 18 ∧ 18 ≤ 18) ∧ bound 0 < 2 ∧ ¬ bound 1 < 2 := by decide

theorem witness_BoundariesGrowByTheCeilingRecurrence : 16 ≤ 16 ∧ 0 ≤ 16 := by decide

theorem witness_SpansPartitionTheHalfSpectrum :
    (1 ≤ 1 ∧ 1 < (build 2).h) ∧ (1 ≤ 3 ∧ 3 < (build 2).h) ∧ ¬ 4 < (build 2).h ∧ 1 + 1 < binCount (build 2) ∧
      2 < binCount (build 2) ∧ 3 ∈ span (build 2) 2 := by decide

theorem witness_LogarithmSpecialValues : (1 : Nat) ≠ 0 ∧ 0 < (0x00000001#32).toNat ∧
    (0x3F7FFFFF#32).toNat < 0x3F800000 ∧ 0x3F800000 < (0x3F800001#32).toNat ∧ (0x7F7FFFFF#32).toNat < 0x7F800000 := by decide

theorem witness_DownmixSelectsAnOperand : (Fp.ofWord 0x7FC00000#32 = .nan ∨ Fp.ofWord 0#32 = .nan) ∧
    (Fp.ofWord 0x00000000#32).key = (Fp.ofWord 0x80000000#32).key := by decide

/-- `P` in a `WRITE` with one frame left, kept or not. -/
def receiving (keep : Nat) : State :=
  { start 1 with head := 3, pLeft := 1, pKeep := keep, pTaken := [1#32], pPort := [2#32, 3#32], schedule := [.producer] }

theorem witness_FrameStepStoresOrDiscards : ∀ keep, keep ≤ 1 →
    (receiving keep).Inv ∧ (receiving keep).schedule = [.producer] ∧ 0 < (receiving keep).pLeft ∧
      (receiving keep).pTaken ++ (receiving keep).pPort = [1#32, 2#32, 3#32] := by
  intro keep h
  interval_cases keep <;> exact ⟨inv_of_check (by decide +kernel), rfl, by decide, rfl⟩

theorem witness_WriteStoresTheFirstFrames : ∃ (s : State) (frames : List (Word × Word)) (rest : List Word) (later : List Event),
    s.Inv ∧ frames.length < immLimit ∧
      ProducerPresented s (encode (.write frames.length) ++ framePayload frames ++ rest) ∧
      s.schedule = List.replicate (1 + frames.length) .producer ++ later :=
  ⟨{ start 0 with
      head := 1, schedule := List.replicate 3 .producer ++ [.sync]
      pPort := encode (.write 2) ++ framePayload [(1#32, 2#32), (3#32, 4#32)] ++ [5#32] },
    [(1#32, 2#32), (3#32, 4#32)], [5#32], [.sync], inv_of_check (by decide +kernel), by decide, ⟨rfl, rfl, rfl⟩, rfl⟩

theorem witness_RingHoldsTheMostRecentSamples : (start 1).ring = [] ∧ (start 1).head < (start 1).cfg.n ∧
    (1 ≤ 1 ∧ 1 ≤ (start 1).cfg.n) ∧ (1 ≤ 4 ∧ 4 ≤ (start 1).cfg.n) := by decide

/-- A snapshot in progress at its first and at its last read. -/
theorem witness_ReadStepCopiesOneSlot : ∀ i, i = 0 ∨ i = 3 →
    ({ start 1 with sH := 3, sI := i, schedule := [.consumer] } : State).Inv ∧ i < (start 1).cfg.n := by
  rintro i (rfl | rfl) <;> exact ⟨inv_of_check (by decide +kernel), by decide⟩

/-- A quiescent state with beats at the port, and steps of `SYNC` and of the host between its reads. -/
def quiescent (beats : List Word) : State :=
  { start 0 with
    head := 1, headC := 1, cPort := beats
    schedule := [.consumer, .sync, .consumer, .presentP 1#32, .consumer, .producer] }

theorem witness_QuiescentSnapshotIsExact : ∀ i, i = .snapshot ∨ i = .frame 9#32 →
    ∃ (rest : List Word) (es later : List Event), (quiescent (encode i ++ rest)).Inv ∧
      ConsumerPresented (quiescent (encode i ++ rest)) (encode i ++ rest) ∧
      (quiescent (encode i ++ rest)).schedule = .consumer :: (es ++ later) ∧ es.count .consumer = (start 0).cfg.n ∧
      .producer ∉ es ∧ ∀ p c, .reset p c ∉ es := by
  rintro i (rfl | rfl) <;>
  exact ⟨[7#32], [.sync, .consumer, .presentP 1#32, .consumer], [.producer], inv_of_check (by decide +kernel),
    ⟨by decide, rfl, by decide⟩, rfl, by decide, by decide, by decide⟩

theorem witness_SnapshotHoldsTheMostRecentSamples : ∃ (s : State) (later : List Event), s.Inv ∧ s.ring = [] ∧
    ConsumerPresented s (encode .snapshot) ∧ s.schedule = List.replicate (1 + s.cfg.n) .consumer ++ later :=
  ⟨{ start 1 with head := 3, cPort := [0x10000000#32], schedule := List.replicate 5 .consumer }, [],
    inv_of_check (by decide +kernel), rfl, ⟨by decide, rfl, by decide⟩, by decide⟩

theorem witness_WindowMultipliesByTheTable : 0 < (start 0).cfg.n ∧ 1 < (start 0).cfg.n := by decide

/-- An all-ones snapshot. -/
theorem witness_WindowOfOnesIsTheTable :
    let s := fill (start 1) .snap (List.replicate 4 0x3F800000#32)
    ∀ i, i < s.cfg.n → s.read .snap i = 0x3F800000#32 := by decide +kernel

theorem witness_FftStoresTheTransform :
    (fftRec (start 1).cfg (fun _ => .one) (start 1).cfg.log2n 0 1)[3]? = some { re := .zero, im := .zero } := by decide +kernel

theorem witness_TransformRecursion : 0 < 2 ^ 0 ∧ 524287 < 2 ^ 19 := by decide

/-- A silent frame; a finite `x1` at size 2; an amplitude (1.0) whose multiple by the greatest `N` is in range. -/
theorem witness_TransformOfExactFrames :
    (let s := fill (start 1) .frm []
     ∀ i, i < s.cfg.n → s.read .frm i = 0#32) ∧
    ((start 0).cfg.log2n = 1 ∧ isFinite ((fill (start 0) .frm [0x40400000#32, 0x40A00000#32]).read .frm 1)) ∧
    Fp.ofWord 0x3F800000#32 = .fin false (2 ^ 149) ∧ 2 ^ 149 * (build 19).n < Fp.overflow ∧ 4 ≤ (build 19).n :=
  ⟨by decide +kernel, ⟨rfl, isFinite_of (neg := false) (m := 5 * 2 ^ 149) (by decide +kernel)⟩, by decide +kernel,
    by decide +kernel, by decide +kernel⟩

/-- In the integers modulo 17 the number 4 has the square -1, so it is a root for `N = 4`; the index 1 and its mirror 3; the entries
at 1 and 3 of a size-4 frame. -/
theorem witness_TransformHasTheListedProperties : (4 : ZMod 17) ^ 2 ^ 1 = -1 ∧ 0 < 1 ∧ 1 < 2 ^ (1 + 1) ∧ 2 * 1 ≠ 2 ^ (1 + 1) ∧
    3 < 2 ^ (1 + 1) ∧ 1 < (build 1).n ∧
    (let x := fun i => if i = 0 then Fp.one else .zero
     (fftRec (build 1) x (build 1).log2n 0 1)[0]? = some { re := .one, im := .zero } ∧
      (fftRec (build 1) x (build 1).log2n 0 1)[1]? = some { re := .one, im := .zero } ∧
      (fftRec (build 1) x (build 1).log2n 0 1)[4 - 1]? = some { re := .one, im := .zero } ∧
      (fftRec (build 1) (fun i => (x i).neg) (build 1).log2n 0 1)[1]? ≠ none) := by decide +kernel

theorem witness_LogpowCornerCases : Fp.ofWord 0xFF800000#32 = .inf true ∧ Fp.ofWord 0x7F800000#32 ≠ .nan ∧
    Fp.ofWord 0x7F800001#32 = .nan := by decide

theorem witness_BucketValueIsTheGreatestLogPower : 1 ∈ span (build 1) 0 := by decide

theorem witness_DenominatorIsTheGreatestBucketValue : 0 < binCount (build 1) ∧ 1 ≤ 1 ∧ 1 < (build 1).h := by decide

theorem witness_BucketizeDividesByTheDenominator : 0 < binCount (build 1) ∧ 186 < binCount (build 19) := by decide +kernel

/-- `SPEC[1] = (3, 4)`, whose log-power is above 1.0. -/
theorem witness_NormalisedBucketsLieInTheUnitInterval :
    let s := fill (start 1) .spec [0#32, 0#32, 0x40400000#32, 0x40800000#32]
    (∀ q, q < s.cfg.h → 1 ≤ q → logPower s.cfg (s.specEntry q) ≠ .inf false) ∧
      ∃ j, j < binCount s.cfg ∧ (s.bucketValue j).gt .one = true :=
  ⟨by decide +kernel, 0, by decide +kernel, by decide +kernel⟩

/-- Two states that differ in the DC bin. -/
theorem witness_BucketizeReadsOnlyCoveredBins :
    let s := fill (start 1) .spec []
    let s' := s.write .spec 0 0x447A0000#32
    s'.cfg = s.cfg ∧ s'.draws = s.draws ∧ s'.read .spec 0 ≠ s.read .spec 0 ∧
      ∀ q, q < s.cfg.h → 1 ≤ q → s'.specEntry q = s.specEntry q := by decide +kernel

/-- Zeros of both signs. -/
theorem witness_SilenceGivesZeroTargets :
    let s := fill (start 2) .spec [0#32, 0#32, 0x80000000#32, 0#32, 0#32, 0x80000000#32, 0x80000000#32, 0x80000000#32]
    ∀ q, 1 ≤ q → q < s.cfg.h → ∃ a b, s.specEntry q = { re := .fin a 0, im := .fin b 0 } := by
  intro s q h0 h1
  have hq : q < 4 := lt_of_lt_of_eq h1 (by decide)
  interval_cases q
  · exact ⟨true, false, by decide +kernel⟩
  · exact ⟨false, true, by decide +kernel⟩
  · exact ⟨true, true, by decide +kernel⟩

theorem witness_AdvanceIsFourRoundedOperations : 0 < binCount (build 1) ∧ ¬ 0 < binCount (build 0) := by decide

theorem witness_BinsAtRestAndNaNBinsStay :
    let s := fill (start 1) .tgt []
    s.cfg.legal = true ∧ 0 < binCount s.cfg ∧ isFinite 0x3C888889#32 ∧ isFinite (s.read .bins 0) ∧
      s.read .bins 0 ≠ 0x80000000#32 ∧ s.read .tgt 0 = s.read .bins 0 ∧ Fp.ofWord 0x7FC00000#32 = .nan :=
  ⟨by decide, by decide, isFinite_of (neg := false) (m := 8947849 * 2 ^ 120) (by decide +kernel),
    isFinite_of (neg := false) (m := 0) (by decide +kernel), by decide +kernel, by decide +kernel, by decide⟩

theorem witness_RdbinRespondsOrIsRefused : 0 < binCount (start 1).cfg ∧ binCount (start 1).cfg ≤ 1 ∧
    binCount (start 0).cfg ≤ 0 := by decide

/-- An idle state, and one in which a `FRAME` has read its last slot. -/
theorem witness_FrameIsThePipeline : ((start 1).Inv ∧ (start 1).consumerIdle = true) ∧
    ∃ (s : State) (dt : Word) (later : List Event), s.Inv ∧ s.schedule = .consumer :: later ∧ s.sI = s.cfg.n ∧ s.frameDt = some dt :=
  ⟨⟨inv_of_check (by decide +kernel), by decide⟩,
    ⟨{ start 1 with head := 2, frameDt := some 9#32, schedule := [.consumer] }, 9#32, [], inv_of_check (by decide +kernel), rfl,
      rfl, rfl⟩⟩

theorem witness_FirstFrameAfterResetIsZero : (build 19).legal = true ∧ isFinite 0xFF7FFFFF#32 :=
  ⟨by decide, isFinite_of (neg := true) (m := 16777215 * 2 ^ 253) (by decide +kernel)⟩

theorem witness_StepRunsTheDecodedCommand :
    (∃ (s : State) (later : List Event) (i : Instr) (rest : List Word), s.cfg.legal = true ∧ s.schedule = .consumer :: later ∧
      s.consumerIdle = true ∧ decode .consumer (s.cTaken ++ s.cPort) = .done i rest) ∧
    ∃ (s : State) (later : List Event) (i : Instr) (rest : List Word), s.cfg.legal = true ∧ s.schedule = .producer :: later ∧
      s.pLeft = 0 ∧ decode .producer (s.pTaken ++ s.pPort) = .done i rest :=
  ⟨⟨{ State.reset with schedule := [.consumer], cTaken := [0x15000000#32], cPort := [9#32] }, [], .frame 9, [], by decide, rfl,
      by decide, by decide⟩,
    ⟨{ State.reset with schedule := [.producer], pPort := [0x01000000#32] }, [], .write 0, [], by decide, rfl, rfl, by decide⟩⟩

theorem witness_ShortPayloadWaits :
    (∃ (s : State) (later : List Event), s.cfg.legal = true ∧ s.schedule = .consumer :: later ∧ s.consumerIdle = true ∧
      decode .consumer (s.cTaken ++ s.cPort) = .incomplete) ∧
    ∃ (s : State) (later : List Event), s.cfg.legal = true ∧ s.schedule = .producer :: later ∧ 0 < s.pLeft ∧
      (s.pTaken ++ s.pPort).length ≤ 1 :=
  ⟨⟨{ State.reset with schedule := [.consumer], cTaken := [0x17000000#32], cPort := [9#32] }, [], by decide, rfl, by decide,
      by decide⟩,
    ⟨{ State.reset with schedule := [.producer], pLeft := 1, pPort := [9#32] }, [], by decide, rfl, by decide, by decide⟩⟩

theorem witness_UndrainedResponseHoldsOnlyTheConsumer :
    (∃ (s : State) (later : List Event), s.Inv ∧ s.rPort ≠ [] ∧ s.schedule = .consumer :: later) ∧
    (∃ (s : State) (later : List Event) (count : Nat) (rest : List Word), s.Inv ∧ s.rPort ≠ [] ∧
      s.schedule = .producer :: later ∧ ProducerPresented s (encode (.write count) ++ rest) ∧ count < immLimit) ∧
    (∃ (s : State) (later : List Event), s.cfg.legal = true ∧ s.schedule = .presentP 7#32 :: later ∧ s.pPort ≠ []) ∧
    (∃ (s : State) (later : List Event), s.cfg.legal = true ∧ s.schedule = .presentC 7#32 :: later ∧ s.cPort ≠ []) ∧
    (∃ (s : State) (later : List Event) (oldest : Response) (others : List Response), s.cfg.legal = true ∧
      s.schedule = .acceptR :: later ∧ s.rPort = oldest :: others ∧ others ≠ []) ∧
    ∃ (s : State) (later : List Event), s.cfg.legal = true ∧ s.schedule = .acceptR :: later ∧ s.rPort = [] :=
  ⟨⟨{ start 1 with rPort := [⟨0, true⟩], schedule := [.consumer] }, [], inv_of_check (by decide +kernel), by decide, rfl⟩,
    ⟨{ start 1 with rPort := [⟨0, true⟩], schedule := [.producer], pPort := encode (.write 3) }, [], 3, [],
      inv_of_check (by decide +kernel), by decide, rfl, ⟨rfl, rfl, rfl⟩, by decide⟩,
    ⟨{ start 1 with pPort := [1#32], schedule := [.presentP 7#32] }, [], by decide, rfl, by decide⟩,
    ⟨{ start 1 with cPort := [1#32], schedule := [.presentC 7#32] }, [], by decide, rfl, by decide⟩,
    ⟨{ start 1 with rPort := [⟨1, false⟩, ⟨2, true⟩], schedule := [.acceptR] }, [], ⟨1, false⟩, [⟨2, true⟩], by decide, rfl, rfl,
      by decide⟩,
    ⟨{ start 1 with schedule := [.acceptR] }, [], by decide, rfl, rfl⟩⟩

theorem witness_SyncCopiesTheCursor : ∃ (s : State) (later : List Event), s.cfg.legal = true ∧ s.schedule = .sync :: later ∧
    s.headC ≠ s.head :=
  ⟨{ start 1 with head := 3, schedule := [.sync] }, [], by decide, rfl, by decide⟩

theorem witness_AgentsWriteOnlyWhatTheyOwn : (∃ s t : State, s.handle .producer = .next t) ∧
    ∃ s t : State, s.handle .consumer = .next t :=
  ⟨⟨receiving 1, _, rfl⟩, ⟨{ start 1 with rPort := [⟨0, true⟩] }, _, rfl⟩⟩

theorem witness_NeitherSideBlocksTheOther :
    (∃ s s' : State, s'.cfg = s.cfg ∧ SameProducerPart s s' ∧ s'.sI ≠ s.sI) ∧
      ∃ s s' : State, s'.cfg = s.cfg ∧ SameConsumerPart s s' ∧ s'.head ≠ s.head :=
  ⟨⟨start 1, { start 1 with sI := 0 }, rfl, ⟨rfl, rfl, rfl, rfl, rfl, rfl⟩, by decide⟩,
    ⟨start 1, { start 1 with head := 1 }, rfl, ⟨rfl, rfl, rfl, rfl, rfl, rfl, rfl, rfl, rfl, rfl, rfl⟩, by decide⟩⟩

/-- One step in which each cursor moves: `HEAD` by a store, `HEAD_C` by `SYNC`. -/
theorem witness_CursorsMoveOnlyAsTheRulesSay : (∃ s t : State, step s = .next t ∧ t.headC = 3) ∧
    ∃ s t : State, s.Inv ∧ step s = .next t ∧ s.head = 3 ∧ t.head = 0 :=
  ⟨⟨{ start 1 with head := 3, schedule := [.sync] }, _, rfl, rfl⟩,
    ⟨receiving 1, _, inv_of_check (by decide +kernel), rfl, rfl, rfl⟩⟩

/-- The run in which only `SYNC` fires. -/
theorem witness_FairRunsCatchUp : ∃ (f : Nat → Event) (σ : Nat → State) (k h : Nat), IsRun f σ ∧ FairToSync f ∧
    ∀ m, k ≤ m → (σ m).head = h :=
  ⟨fun _ => .sync, fun _ => start 1, 0, 0, fun _ => rfl, fun k => ⟨k, Nat.le_refl k, rfl⟩, fun _ _ => rfl⟩

theorem witness_ResetValues : Space.snap ≠ .ring ∧ Space.snap ≠ .bins := by decide

theorem witness_ResetAbandonsEverything : ∃ (s s' : State), s.cfg.legal = true ∧ s.schedule = .reset true true :: [] ∧
    s.pLeft ≠ 0 ∧ s'.cfg.legal = true ∧ s'.schedule = .reset true false :: [] :=
  ⟨{ start 1 with pLeft := 2, pKeep := 2, schedule := [.reset true true] }, { start 1 with schedule := [.reset true false] },
    by decide, rfl, by decide, by decide, rfl⟩

theorem witness_ResetMeetsTheInvariant : (build 0).legal = true ∧ (build 19).legal = true := by decide

theorem witness_StepKeepsTheInvariant : ∃ s t : State, s.Inv ∧ step s = .next t :=
  ⟨receiving 1, _, inv_of_check (by decide +kernel), rfl⟩

/-- A state that meets the invariant and steps, and one for each way to stop. -/
theorem witness_OnlyHostErrorsStop : (receiving 0).Inv ∧
    (∃ s : State, s.Inv ∧ step s = .refused (.reservedEncoding .producer 0x10000000#32)) ∧
    (∃ s : State, s.Inv ∧ step s = .refused (.reservedEncoding .consumer 0x10000001#32)) ∧
    (∃ s : State, s.Inv ∧ step s = .refused (.rdbinIndexOutOfRange 1)) ∧
    ∃ s : State, s.Inv ∧ step s = .refused .resetsNotTogether :=
  ⟨inv_of_check (by decide +kernel),
    ⟨{ start 1 with schedule := [.producer], pPort := [0x10000000#32] }, inv_of_check (by decide +kernel), rfl⟩,
    ⟨{ start 1 with schedule := [.consumer], cPort := [0x10000001#32] }, inv_of_check (by decide +kernel), rfl⟩,
    ⟨{ start 1 with schedule := [.consumer], cPort := [0x18000001#32] }, inv_of_check (by decide +kernel), rfl⟩,
    ⟨{ start 1 with schedule := [.reset true false] }, inv_of_check (by decide +kernel), rfl⟩⟩

end Sys2Proof.Tests
end

section
/-! SUPPORT. The four primitive operations on patterns (00_scope.md R14): what value each gives, and that 1.0 and a quotient of
equals are exact. -/

namespace Sys2Proof.Machine

@[simp] theorem ofWord_fadd (q : BitVec 23) (a b : Word) : Fp.ofWord (fadd q a b) = (Fp.ofWord a).add (Fp.ofWord b) :=
  Fp.ofWord_toWord_canonical q (Fp.canonical_add _ _ (Fp.ofWord_canonical a) (Fp.ofWord_canonical b))

@[simp] theorem ofWord_fsub (q : BitVec 23) (a b : Word) : Fp.ofWord (fsub q a b) = (Fp.ofWord a).sub (Fp.ofWord b) :=
  Fp.ofWord_toWord_canonical q (Fp.canonical_sub _ _ (Fp.ofWord_canonical a) (Fp.ofWord_canonical b))

@[simp] theorem ofWord_fmul (q : BitVec 23) (a b : Word) : Fp.ofWord (fmul q a b) = (Fp.ofWord a).mul (Fp.ofWord b) :=
  Fp.ofWord_toWord_canonical q (Fp.canonical_mul _ _)

@[simp] theorem ofWord_fdiv (q : BitVec 23) (a b : Word) : Fp.ofWord (fdiv q a b) = (Fp.ofWord a).div (Fp.ofWord b) :=
  Fp.ofWord_toWord_canonical q (Fp.canonical_div _ _)

namespace Fp

/-- What a pattern unpacks to is a value that binary32 holds. -/
theorem canonical_of_ofWord {w : Word} {x : Fp} (h : ofWord w = x) : x.Canonical := h ▸ ofWord_canonical w

/-- The pattern `0x3F800000` is 1.0. -/
theorem ofWord_one : ofWord 0x3F800000#32 = one := by decide

/-- Rounding a fraction does not depend on how it is written. -/
theorem round_mul_left (s : Bool) {k : Nat} (num den : Nat) (hk : 0 < k) : round s (k * num) (k * den) = round s num den :=
  congrArg (ofMag s) (nearest_mul_left num den hk)

/-- The product with 1.0 is exact, the sign of a zero included. -/
theorem one_mul_canonical {x : Fp} (h : x.Canonical) : one.mul x = x := by
  cases x with
  | nan => rfl
  | inf s => exact congrArg inf (Bool.false_xor s)
  | fin s m =>
    obtain ⟨hm, hlt⟩ := h
    calc round (false ^^ s) (2 ^ 149 * m) (2 ^ 149)
        = round s (2 ^ 149 * m) (2 ^ 149 * 1) := by rw [Bool.false_xor, Nat.mul_one]
      _ = round s m 1 := round_mul_left s m 1 (by positivity)
      _ = fin s m := round_held hm hlt

/-- A nonzero finite value goes into itself exactly once. -/
theorem div_self_fin (s : Bool) {m : Nat} (hm : m ≠ 0) : (fin s m).div (fin s m) = one := by
  obtain ⟨hheld, hlt⟩ := canonical_one
  calc (fin s m).div (fin s m)
      = round (s ^^ s) (m * 2 ^ 149) m := if_neg hm
    _ = round false (m * 2 ^ 149) (m * 1) := by rw [Bool.xor_self, Nat.mul_one]
    _ = round false (2 ^ 149) 1 := round_mul_left false (2 ^ 149) 1 (Nat.pos_of_ne_zero hm)
    _ = one := round_held hheld hlt

/-- The difference of finite values, with the sign of an exact zero. -/
theorem sub_fin (s r : Bool) (m k : Nat) : (fin s m).sub (fin r k) =
    if signed s m - signed r k = 0 then fin (s && !r) 0
    else round (decide (signed s m - signed r k < 0)) (signed s m - signed r k).natAbs 1 := by
  show (fin s m).add (fin (!r) k) = _
  simp only [add, signed_not, ← Int.sub_eq_add_neg]

/-- Dividing a finite value by a zero rounds nothing. -/
theorem div_fin_zero (s r : Bool) (m : Nat) : (fin s m).div (fin r 0) = if m = 0 then nan else inf (s ^^ r) := by
  simp only [div, if_true]

/-- A NaN operand on either side gives a NaN. -/
theorem ops_nan {x y : Fp} (h : x = nan ∨ y = nan) : x.add y = nan ∧ x.sub y = nan ∧ x.mul y = nan ∧ x.div y = nan := by
  rcases h with rfl | rfl
  · exact ⟨rfl, rfl, rfl, rfl⟩
  · cases x <;> exact ⟨rfl, rfl, rfl, rfl⟩

/-- A word whose bits 30:22 are all ones contains the mask of a quiet NaN. -/
theorem and_quietMask {w : Word} (h : w.toNat / 2 ^ 22 % 2 ^ 9 = 2 ^ 9 - 1) : w &&& 0x7FC00000#32 = 0x7FC00000#32 := by
  have hmask : (0x7FC00000#32).toNat = (2 ^ 9 - 1) <<< 22 := by decide
  apply BitVec.eq_of_toNat_eq
  rw [BitVec.toNat_and, hmask]
  refine Nat.eq_of_testBit_eq fun i => ?_
  have hbit : (w.toNat / 2 ^ 22 % 2 ^ 9).testBit (i - 22) = (decide (i - 22 < 9) && w.toNat.testBit (i - 22 + 22)) := by
    rw [Nat.testBit_mod_two_pow, Nat.testBit_div_two_pow]
  rw [h, Nat.testBit_two_pow_sub_one] at hbit
  rw [Nat.testBit_and, Nat.testBit_shiftLeft, Nat.testBit_two_pow_sub_one]
  by_cases hi : 22 ≤ i
  · rw [Nat.sub_add_cancel hi] at hbit
    cases hw : w.toNat.testBit i <;> simp_all
  · simp [hi]

/-- A drawn NaN is quiet: exponent bits and top fraction bit are ones, whatever the draw. -/
theorem quietNaN_and_mask (q : BitVec 23) : quietNaN q &&& 0x7FC00000#32 = 0x7FC00000#32 := by
  have hq := q.isLt
  apply and_quietMask
  rw [quietNaN, BitVec.toNat_ofNat]
  omega

/-- A pattern packed from a canonical value and read back as a NaN is a quiet NaN. -/
theorem toWord_quiet (q : BitVec 23) {x : Fp} (hx : x.Canonical) (h : ofWord (x.toWord q) = nan) :
    x.toWord q &&& 0x7FC00000#32 = 0x7FC00000#32 := by
  rw [ofWord_toWord_canonical q hx] at h
  rw [h]
  exact quietNaN_and_mask q

/-- A finite pattern lies strictly between the two infinities. -/
theorem key_fin_bounds {s : Bool} {m : Nat} (hlt : m < overflow) :
    (fin s m).key < (inf false).key ∧ (inf true).key < (fin s m).key := by
  cases s <;> simp [key, signed] <;> omega

end Fp

/-- Every result of the four operations is packed from a value that binary32 holds. -/
theorem exists_canonical_of_mem_ops {q : BitVec 23} {a b z : Word} (hz : z ∈ [fadd q a b, fsub q a b, fmul q a b, fdiv q a b]) :
    ∃ x : Fp, x.Canonical ∧ z = x.toWord q := by
  have ha := Fp.ofWord_canonical a
  have hb := Fp.ofWord_canonical b
  simp only [List.mem_cons, List.not_mem_nil, or_false] at hz
  rcases hz with rfl | rfl | rfl | rfl
  · exact ⟨_, Fp.canonical_add _ _ ha hb, rfl⟩
  · exact ⟨_, Fp.canonical_sub _ _ ha hb, rfl⟩
  · exact ⟨_, Fp.canonical_mul _ _, rfl⟩
  · exact ⟨_, Fp.canonical_div _ _, rfl⟩

/-- The first operand of `fgt` is greater: neither is a NaN, and they stand in that order. -/
theorem fgt_iff (a b : Word) : fgt a b = true ↔
    Fp.ofWord a ≠ .nan ∧ Fp.ofWord b ≠ .nan ∧ (Fp.ofWord b).key < (Fp.ofWord a).key := gt_iff _ _

theorem fgt_eq_false_iff (a b : Word) : fgt a b = false ↔
    (Fp.ofWord a ≠ .nan → Fp.ofWord b ≠ .nan → (Fp.ofWord a).key ≤ (Fp.ofWord b).key) := by
  rw [← Bool.not_eq_true, fgt_iff]
  simp only [not_and, not_lt]

end Sys2Proof.Machine
end

section
/-! SUPPORT. Rounding to nearest, ties to even (00_scope.md R14): the exact `num / den` lies between two neighbouring multiples of the
spacing, no magnitude of the format lies strictly between them, and `nearest` picks the closer one, the even one at a tie. -/

namespace Sys2Proof.Machine.Fp

/-! ## The two neighbours of the exact result -/

/-- The greatest multiple of the spacing that is at most `num / den`. -/
def lower (num den : Nat) : Nat := num / (den * spacing num den) * spacing num den

/-- The next multiple of the spacing, which is above `num / den`. -/
def upper (num den : Nat) : Nat := (num / (den * spacing num den) + 1) * spacing num den

/-- What is left above the lower neighbour, in units of `1 / den`. -/
def rest (num den : Nat) : Nat := num % (den * spacing num den)

/-- `num / den` lies halfway between its neighbours. -/
def Halfway (num den : Nat) : Prop := 2 * rest num den = den * spacing num den

/-- How far the magnitude `m` lies from the exact `num / den`, in units of `1 / den`. -/
def gap (num den m : Nat) : Nat := ((m * den : Int) - num).natAbs

theorem lower_mul_add_rest (num den : Nat) : lower num den * den + rest num den = num := by
  rw [lower, rest, Nat.mul_assoc, Nat.mul_comm (spacing num den), Nat.mul_comm]
  exact Nat.div_add_mod num _

theorem upper_mul (num den : Nat) : upper num den * den = lower num den * den + den * spacing num den := by
  rw [upper, lower]
  ring

theorem rest_lt {den : Nat} (num : Nat) (hd : 0 < den) : rest num den < den * spacing num den :=
  Nat.mod_lt _ (Nat.mul_pos hd (Nat.pow_pos (by norm_num)))

theorem gap_lower (num den : Nat) : gap num den (lower num den) = rest num den := by
  have := lower_mul_add_rest num den
  unfold gap
  omega

theorem gap_upper {den : Nat} (num : Nat) (hd : 0 < den) :
    gap num den (upper num den) = den * spacing num den - rest num den := by
  have := lower_mul_add_rest num den
  have := upper_mul num den
  have := rest_lt num hd
  unfold gap
  omega

theorem gap_lower_lt {num den m : Nat} (hd : 0 < den) (h : m < lower num den) :
    gap num den (lower num den) < gap num den m := by
  have := lower_mul_add_rest num den
  have := Nat.mul_lt_mul_of_pos_right h hd
  unfold gap
  omega

theorem gap_upper_lt {num den m : Nat} (hd : 0 < den) (h : upper num den < m) :
    gap num den (upper num den) < gap num den m := by
  have := lower_mul_add_rest num den
  have := upper_mul num den
  have := rest_lt num hd
  have := Nat.mul_lt_mul_of_pos_right h hd
  unfold gap
  omega

/-- Below `2^24` units the spacing is one unit; from there on the quotient has all 24 bits. -/
theorem spacing_one_or_quotient_ge (num den : Nat) :
    (num / den).log2 - 23 = 0 ∨ 2 ^ 23 ≤ num / (den * spacing num den) := by
  refine or_iff_not_imp_left.2 fun hk => ?_
  have hx : num / den ≠ 0 := by
    intro h
    simp [h] at hk
  have hlog : 23 + ((num / den).log2 - 23) = (num / den).log2 := by omega
  rw [← Nat.div_div_eq_div_mul, spacing, Nat.le_div_iff_mul_le (by positivity), ← pow_add, hlog]
  exact Nat.log2_self_le hx

/-- No magnitude of the format lies strictly between the neighbours: a multiple of the spacing cannot, and what is no multiple
has a lesser exponent. -/
theorem held_not_between {m : Nat} (h : Held m) (num den : Nat) : m ≤ lower num den ∨ upper num den ≤ m := by
  by_cases hdvd : spacing num den ∣ m
  · obtain ⟨j, rfl⟩ := hdvd
    rw [Nat.mul_comm _ j]
    rcases Nat.lt_or_ge (num / (den * spacing num den)) j with hj | hj
    · exact .inr (Nat.mul_le_mul_right _ hj)
    · exact .inl (Nat.mul_le_mul_right _ hj)
  · have hlog : m.log2 - 23 < (num / den).log2 - 23 :=
      Nat.lt_of_not_le fun hle => hdvd ((pow_dvd_pow 2 hle).trans (spacing_dvd h))
    have hq := (spacing_one_or_quotient_ge num den).resolve_left (by omega)
    left
    calc m ≤ 2 ^ (m.log2 + 1) := Nat.lt_log2_self.le
      _ ≤ 2 ^ (23 + ((num / den).log2 - 23)) := Nat.pow_le_pow_right (by norm_num) (by omega)
      _ = 2 ^ 23 * spacing num den := by rw [pow_add, spacing]
      _ ≤ lower num den := Nat.mul_le_mul_right _ hq

/-! ## The choice between them -/

/-- `nearest` picks a neighbour that is at least as near as the other. -/
theorem nearest_eq_lower_or_upper (num den : Nat) :
    nearest num den = lower num den ∧ 2 * rest num den ≤ den * spacing num den ∨
      nearest num den = upper num den ∧ den * spacing num den ≤ 2 * rest num den := by
  unfold nearest lower upper rest
  simp only
  split
  next hup => exact .inr ⟨rfl, by omega⟩
  next hdown => exact .inl ⟨rfl, by omega⟩

/-- Halfway, `nearest` picks the neighbour that is an even multiple of the spacing. -/
theorem nearest_even_of_halfway {num den : Nat} (h : Halfway num den) : ∃ c, nearest num den = c * spacing num den ∧ c % 2 = 0 ∧
    (c = num / (den * spacing num den) ∨ c = num / (den * spacing num den) + 1) := by
  unfold Halfway rest at h
  unfold nearest
  simp only
  split
  next hup => exact ⟨_, rfl, by omega, .inr rfl⟩
  next hdown => exact ⟨_, rfl, by omega, .inl rfl⟩

/-- Another magnitude of the format is farther from `num / den` than the rounded one, or as far when that is halfway. -/
theorem gap_nearest_lt_or_halfway {num den m : Nat} (hd : 0 < den) (h : Held m) (hne : m ≠ nearest num den) :
    gap num den (nearest num den) < gap num den m ∨
      gap num den (nearest num den) = gap num den m ∧ Halfway num den := by
  have hlo := gap_lower num den
  have hhi := gap_upper num hd
  unfold Halfway
  rcases nearest_eq_lower_or_upper num den with ⟨hn, hr⟩ | ⟨hn, hr⟩ <;> rw [hn] at hne ⊢ <;>
    rcases held_not_between h num den with hle | hge
  · exact .inl (gap_lower_lt hd (lt_of_le_of_ne hle hne))
  · rcases hge.lt_or_eq with hlt | rfl
    · have := gap_upper_lt hd hlt
      omega
    · omega
  · rcases hle.lt_or_eq with hlt | rfl
    · have := gap_lower_lt hd hlt
      omega
    · omega
  · exact .inl (gap_upper_lt hd (lt_of_le_of_ne hge hne.symm))

/-- Rounding is to nearest. -/
theorem gap_nearest_le {num den m : Nat} (hd : 0 < den) (h : Held m) : gap num den (nearest num den) ≤ gap num den m := by
  rcases eq_or_ne m (nearest num den) with rfl | hne
  · exact le_refl _
  · rcases gap_nearest_lt_or_halfway hd h hne with hlt | ⟨heq, -⟩
    · exact hlt.le
    · exact heq.le

/-! ## The pattern at a tie -/

/-- The exponent and fraction bits of a magnitude that is written as a 24-bit significand and a power of two. -/
theorem magBits_mul_two_pow {c e : Nat} (hc : c < 2 ^ 24) (h : e = 0 ∨ 2 ^ 23 ≤ c) : magBits (c * 2 ^ e) = e * 2 ^ 23 + c := by
  have hlog : (c * 2 ^ e).log2 - 23 = e := by
    rcases Nat.lt_or_ge c (2 ^ 23) with hlt | hlo
    · obtain rfl := h.resolve_right (by omega)
      have : Nat.log 2 c ≤ 23 := (Nat.log_mono_right hlt.le).trans_eq (Nat.log_pow one_lt_two 23)
      rw [pow_zero, Nat.mul_one, Nat.log2_eq_log_two]
      omega
    · have : (c * 2 ^ e).log2 = 23 + e := by
        rw [Nat.log2_eq_iff (by positivity), pow_add, Nat.add_right_comm, pow_add _ 24]
        exact ⟨Nat.mul_le_mul_right _ hlo, Nat.mul_lt_mul_of_pos_right hc (by positivity)⟩
      omega
  rw [magBits, hlog, Nat.mul_div_cancel _ (by positivity)]

/-- An even significand gives an even pattern, also where rounding carried it to `2^24` and so into the next binade. -/
theorem magBits_even {c e : Nat} (hc : c ≤ 2 ^ 24) (h : e = 0 ∨ 2 ^ 23 ≤ c) (heven : c % 2 = 0) :
    magBits (c * 2 ^ e) % 2 = 0 := by
  rcases Nat.lt_or_eq_of_le hc with hlt | rfl
  · rw [magBits_mul_two_pow hlt h]
    omega
  · rw [show 2 ^ 24 * 2 ^ e = 2 ^ 23 * 2 ^ (e + 1) by ring, magBits_mul_two_pow (by norm_num) (.inr le_rfl)]
    omega

/-- Halfway, the pattern of the rounded magnitude is even. -/
theorem magBits_nearest_even {num den : Nat} (h : Halfway num den) : magBits (nearest num den) % 2 = 0 := by
  obtain ⟨c, hc, heven, hside⟩ := nearest_even_of_halfway h
  have hlt := quotient_lt num den
  have hge := spacing_one_or_quotient_ge num den
  rw [hc, spacing]
  exact magBits_even (by omega) (by omega) heven

end Sys2Proof.Machine.Fp
end

section
/-! PROOFS. The statements about binary32 arithmetic and the bin counts (00_scope.md R12, R14). -/

namespace Sys2Proof.Proofs
open Sys2Proof.Machine

/-- Settles O12: each of the twenty counts is computed from the boundary recurrence. -/
theorem binCountTable : Obligations.BinCountTable := by
  unfold Obligations.BinCountTable
  decide +kernel

/-- Settles O9, by where the values stand. -/
theorem greaterThanIgnoresNaNsAndZeroSigns : Obligations.GreaterThanIgnoresNaNsAndZeroSigns := by
  unfold Obligations.GreaterThanIgnoresNaNsAndZeroSigns
  refine ⟨fun a b hnan => ?_, fun a b ha hb => ?_, fun a neg m ha => ?_, by decide, by decide, fun a b hab => ?_,
    fun a b c hab hbc => ?_⟩
  · rw [fgt_eq_false_iff]
    exact fun ha hb => absurd hnan (not_or.2 ⟨ha, hb⟩)
  · simp only [fgt_iff, ha, hb, ne_eq, not_false_eq_true, true_and]
  · obtain ⟨-, hlt⟩ := Fp.canonical_of_ofWord ha
    rw [ha]
    exact ⟨rfl, Fp.key_fin_bounds hlt⟩
  · rw [fgt_eq_false_iff]
    exact fun _ _ => ((fgt_iff a b).1 hab).2.2.le
  · obtain ⟨ha, -, h1⟩ := (fgt_iff a b).1 hab
    obtain ⟨-, hc, h2⟩ := (fgt_iff b c).1 hbc
    exact (fgt_iff a c).2 ⟨ha, hc, h2.trans h1⟩

/-- Settles O8: on values both operations are exact, and packing undoes unpacking. -/
theorem unitProductAndQuotientAreExact : Obligations.UnitProductAndQuotientAreExact := by
  unfold Obligations.UnitProductAndQuotientAreExact
  refine fun q x => ⟨fun hx => ?_, ?_⟩
  · rw [fmul, Fp.ofWord_one, Fp.one_mul_canonical (Fp.ofWord_canonical x), Fp.toWord_ofWord q x hx]
  · rintro ⟨neg, m, hx, hm⟩
    rw [fdiv, hx, Fp.div_self_fin neg hm, ← Fp.ofWord_one, Fp.toWord_ofWord q _ (by decide)]

/-- Settles O7: each clause is read off the operation on values, which unpacking the result gives back. -/
theorem sumsAndProductsCommuteAndNaNsAreQuiet : Obligations.SumsAndProductsCommuteAndNaNsAreQuiet := by
  unfold Obligations.SumsAndProductsCommuteAndNaNsAreQuiet
  refine ⟨fun q a b => ?_, fun q a b z hz => ⟨fun hnan => ?_, fun hop => ?_⟩, fun q a b s r ha hb => ?_,
    fun q a b s r m ha hb => ?_, fun q a b s r m ha hb => ?_⟩
  · rw [fadd, fadd, fmul, fmul, Fp.add_comm, Fp.mul_comm]
    exact ⟨rfl, rfl⟩
  · obtain ⟨x, hx, rfl⟩ := exists_canonical_of_mem_ops hz
    exact Fp.toWord_quiet q hx hnan
  · obtain ⟨hadd, hsub, hmul, hdiv⟩ := Fp.ops_nan hop
    simp only [List.mem_cons, List.not_mem_nil, or_false] at hz
    rcases hz with rfl | rfl | rfl | rfl
    · rw [ofWord_fadd, hadd]
    · rw [ofWord_fsub, hsub]
    · rw [ofWord_fmul, hmul]
    · rw [ofWord_fdiv, hdiv]
  · simp only [ofWord_fadd, ofWord_fsub, ofWord_fmul, ofWord_fdiv, ha, hb]
    refine ⟨rfl, ?_, rfl, rfl⟩
    cases s <;> cases r <;> rfl
  · simp only [ofWord_fadd, ofWord_fsub, ofWord_fmul, ofWord_fdiv, ha, hb]
    exact ⟨rfl, rfl, rfl, rfl, rfl, rfl⟩
  · rw [ofWord_fdiv, ha, hb, Fp.div_fin_zero]

/-- Settles O6: no magnitude of a pattern lies strictly between the neighbours of the exact result, and rounding picks the nearer
neighbour or, halfway, the one with the even pattern. -/
theorem roundingIsToNearestTiesToEven : Obligations.RoundingIsToNearestTiesToEven := by
  unfold Obligations.RoundingIsToNearestTiesToEven
  refine ⟨fun num den hd => ⟨fun hlt => ?_, fun w neg m hw => ?_⟩, fun neg num den => rfl, fun q a b s r m k ha hb => ?_⟩
  · exact Fp.exists_word ⟨Fp.held_nearest num den, hlt⟩
  · obtain ⟨hm, -⟩ := Fp.canonical_of_ofWord hw
    refine ⟨Fp.gap_nearest_le hd hm, fun hne _ heq => ?_⟩
    rcases Fp.gap_nearest_lt_or_halfway hd hm hne with hlt | ⟨-, hhalf⟩
    · exact absurd heq hlt.ne
    · exact Fp.magBits_nearest_even hhalf
  · simp only [ofWord_fadd, ofWord_fsub, ofWord_fmul, ofWord_fdiv, ha, hb]
    exact ⟨rfl, Fp.sub_fin s r m k, rfl, fun hk => if_neg hk⟩

end Sys2Proof.Proofs
end

section
/-! SUPPORT. What a step of an agent can lead to, said once for each agent, and what it leaves alone: each agent writes only its own
part of the state (10_state.md R34). -/

namespace Sys2Proof.Machine

/-! ## Agent P -/

/-- The P-port's decoder waits only while there is no beat: a `WRITE` is one word. -/
theorem eq_nil_of_decode_producer_incomplete {beats : List Word} (h : decode .producer beats = .incomplete) : beats = [] := by
  cases beats with
  | nil => rfl
  | cons w bs =>
    simp only [decode, decodeProducer] at h
    split at h <;> cases h

/-- Every way for a step of `P` to give a next state: a frame step, taking the first beat of a frame, the header step of a `WRITE`,
or nothing when no beat has come. -/
theorem producer_next_cases {s t : State} (h : s.handle .producer = .next t) :
    (0 < s.pLeft ∧ ∃ l r rest, s.pTaken ++ s.pPort = l :: r :: rest ∧
      t = ({ s with pTaken := [], pPort := rest } : State).frameStep l r) ∨
    (0 < s.pLeft ∧ (s.pTaken ++ s.pPort).length ≤ 1 ∧ t = { s with pTaken := s.pTaken ++ s.pPort, pPort := [] }) ∨
    (∃ count rest, count < immLimit ∧
      t = { s with pTaken := [], pPort := rest, pLeft := count, pKeep := keptFrames s.cfg count }) ∨
    t = s := by
  rcases handle_producer_cases s with ⟨hb, hs⟩ | ⟨-, i, rest, hd, hs⟩ | ⟨-, hd, hs⟩ | ⟨-, w, -, hs⟩
  · cases hs.symm.trans h
    rcases receiveFrame_cases s with ⟨l, r, rest, hx, ht⟩ | ⟨hx, ht⟩
    · exact .inl ⟨hb, l, r, rest, hx, ht⟩
    · exact .inr (.inl ⟨hb, hx, ht⟩)
  · obtain ⟨count, rfl, hc⟩ := decode_producer_done hd
    cases hs.symm.trans h
    exact .inr (.inr (.inl ⟨count, rest, hc, rfl⟩))
  · cases hs.symm.trans h
    obtain ⟨-, hp⟩ := List.append_eq_nil_iff.1 (eq_nil_of_decode_producer_incomplete hd)
    exact .inr (.inr (.inr (by rw [hp, List.append_nil, ← hp])))
  · cases hs.symm.trans h

/-- A step of `P` leaves everything alone that is not `P`'s. -/
theorem producer_frame {s t : State} (h : s.handle .producer = .next t) :
    SameConsumerPart s t ∧ t.headC = s.headC ∧ SameBuild s t ∧ t.draws = s.draws := by
  rcases producer_next_cases h with ⟨-, l, r, rest, -, rfl⟩ | ⟨-, -, rfl⟩ | ⟨count, rest, -, rfl⟩ | rfl
  · simp [SameConsumerPart, SameBuild]
  · simp [SameConsumerPart, SameBuild]
  · simp [SameConsumerPart, SameBuild]
  · simp [SameConsumerPart, SameBuild]

/-! ## Agent C -/

/-- Every way for a command of the C-port to give a next state: it latches a snapshot, writes one of `C`'s own five spaces whole,
or responds with one beat. -/
theorem exec_consumer_cases {i : Instr} {s t : State} (hi : ∀ count, i ≠ .write count) (h : exec i s = .next t) :
    (∃ dt, t = { s.latch with frameDt := dt }) ∨
    (∃ sp f, sp ≠ .ring ∧ t = (s.writeAll sp (spaceSize s.cfg sp) f).nextDraws) ∨
    (∃ w draws, t = { s.respond w true with draws := draws }) := by
  cases i with
  | write count => exact absurd rfl (hi count)
  | snapshot => cases h; exact .inl ⟨s.frameDt, rfl⟩
  | frame dt => cases h; exact .inl ⟨some dt, rfl⟩
  | window => cases h; exact .inr (.inl ⟨.frm, _, by decide, rfl⟩)
  | fft => cases h; exact .inr (.inl ⟨.spec, _, by decide, rfl⟩)
  | bucketize => cases h; exact .inr (.inl ⟨.tgt, _, by decide, rfl⟩)
  | advance dt => cases h; exact .inr (.inl ⟨.bins, _, by decide, rfl⟩)
  | bcount => cases h; exact .inr (.inr ⟨_, s.draws, rfl⟩)
  | logpow re im => cases h; exact .inr (.inr ⟨_, s.draws + 1, rfl⟩)
  | rdbin j =>
    simp only [exec, execRdbin] at h
    split at h
    · cases h; exact .inr (.inr ⟨_, s.draws, rfl⟩)
    · cases h

/-- Every way for a step of `C` to give a next state: a read of a snapshot, the last step of a `FRAME`, nothing while a response is
undelivered, a command it has fetched, or taking the beats of an incomplete command. -/
theorem consumer_next_cases {s t : State} (h : s.handle .consumer = .next t) :
    (s.snapshotting = true ∧ t = s.readSlot) ∨
    (s.snapshotting = false ∧ ∃ dt, s.frameDt = some dt ∧ t = s.frameTail dt) ∨
    t = s ∨
    (s.consumerIdle = true ∧ ∃ i rest, (∀ count, i ≠ .write count) ∧ exec i { s with cTaken := [], cPort := rest } = .next t) ∨
    (s.consumerIdle = true ∧ decode .consumer (s.cTaken ++ s.cPort) = .incomplete ∧
      t = { s with cTaken := s.cTaken ++ s.cPort, cPort := [] }) := by
  rcases handle_consumer_cases s with ⟨hb, hs⟩ | ⟨hb, dt, hdt, hs⟩ | ⟨-, -, -, hs⟩ | ⟨hi, i, rest, hd, hs⟩ | ⟨hi, hd, hs⟩ | ⟨-, w, -, hs⟩
  · cases hs.symm.trans h
    exact .inl ⟨hb, rfl⟩
  · cases hs.symm.trans h
    exact .inr (.inl ⟨hb, dt, hdt, rfl⟩)
  · cases hs.symm.trans h
    exact .inr (.inr (.inl rfl))
  · exact .inr (.inr (.inr (.inl ⟨hi, i, rest, decode_consumer_ne_write hd, hs ▸ h⟩)))
  · cases hs.symm.trans h
    exact .inr (.inr (.inr (.inr ⟨hi, hd, rfl⟩)))
  · cases hs.symm.trans h

/-- A whole-space write of another space leaves `RING` alone. -/
theorem writeAll_ring (s : State) {sp : Space} (h : sp ≠ .ring) (n : Nat) (f : Nat → Word) : (s.writeAll sp n f).ring = s.ring :=
  mem_withMem_ne s h.symm _

/-- A command of the C-port leaves `P`'s part, `HEAD_C` and the build alone. -/
theorem exec_consumer_frame {i : Instr} {s t : State} (hi : ∀ count, i ≠ .write count) (h : exec i s = .next t) :
    SameProducerPart s t ∧ t.headC = s.headC ∧ SameBuild s t := by
  rcases exec_consumer_cases hi h with ⟨dt, rfl⟩ | ⟨sp, f, hsp, rfl⟩ | ⟨w, draws, rfl⟩
  · simp [SameProducerPart, SameBuild]
  · simp [SameProducerPart, SameBuild, writeAll_ring s hsp]
  · simp [SameProducerPart, SameBuild]

/-- A step of `C` leaves `P`'s part, `HEAD_C` and the build alone. -/
theorem consumer_frame {s t : State} (h : s.handle .consumer = .next t) :
    SameProducerPart s t ∧ t.headC = s.headC ∧ SameBuild s t := by
  rcases consumer_next_cases h with ⟨-, rfl⟩ | ⟨-, dt, -, rfl⟩ | rfl | ⟨-, i, rest, hi, hx⟩ | ⟨-, -, rfl⟩
  · simp [SameProducerPart, SameBuild]
  · simp [SameProducerPart, SameBuild]
  · simp [SameProducerPart, SameBuild]
  · have hframe := exec_consumer_frame hi hx
    exact hframe
  · simp [SameProducerPart, SameBuild]

end Sys2Proof.Machine
end

section
/-! SUPPORT. The invariant in parts, one for each agent and one for the memories, each kept by the agent that owns it and untouched by
the other. -/

namespace Sys2Proof.Machine

/-- `P`'s part of the invariant: `HEAD` and the counts of the current `WRITE` within their widths, and at most one beat of a frame
taken. -/
structure ProducerOk (s : State) : Prop where
  head_lt : s.head < s.cfg.n
  pLeft_lt : s.pLeft < immLimit
  pKeep_lt : s.pKeep < s.cfg.n
  pKeep_le : s.pKeep ≤ s.pLeft
  pTaken_idle : s.pLeft = 0 → s.pTaken = []
  pTaken_short : s.pTaken.length ≤ 1

/-- `C`'s part of the invariant: the snapshot's registers within their widths, no part of a command taken while one is in progress, and
no response waiting while one may still be written. -/
structure ConsumerOk (s : State) : Prop where
  sH_lt : s.sH < s.cfg.n
  sI_le : s.sI ≤ s.cfg.n
  cTaken_incomplete : decode .consumer s.cTaken = .incomplete
  cTaken_busy : s.consumerIdle = false → s.cTaken = []
  rPort_busy : s.snapshotting = true ∨ s.frameDt ≠ none → s.rPort = []

/-- The invariant is its parts. -/
theorem inv_iff (s : State) :
    s.Inv ↔ s.cfg.legal = true ∧ s.headC < s.cfg.n ∧ MemoryOk s ∧ ProducerOk s ∧ ConsumerOk s := by
  constructor
  · intro h
    exact ⟨h.legal, h.headC_lt, h.mem_wf,
      ⟨h.head_lt, h.pLeft_lt, h.pKeep_lt, h.pKeep_le, h.pTaken_idle, h.pTaken_short⟩,
      ⟨h.sH_lt, h.sI_le, h.cTaken_incomplete, h.cTaken_busy, h.rPort_busy⟩⟩
  · rintro ⟨hl, hC, hm, hp, hc⟩
    exact ⟨hl, hp.head_lt, hC, hc.sH_lt, hc.sI_le, hp.pLeft_lt, hp.pKeep_lt, hp.pKeep_le, hm, hp.pTaken_idle, hp.pTaken_short,
      hc.cTaken_incomplete, hc.cTaken_busy, hc.rPort_busy⟩

/-! ## What each part depends on -/

/-- `P`'s part of the invariant reads `HEAD`, the counts of the `WRITE` and the beats taken. -/
theorem ProducerOk.congr {s t : State} (h : ProducerOk s) (hc : t.cfg = s.cfg) (hhead : t.head = s.head)
    (hleft : t.pLeft = s.pLeft) (hkeep : t.pKeep = s.pKeep) (htaken : t.pTaken = s.pTaken) : ProducerOk t := by
  constructor
  · rw [hhead, hc]; exact h.head_lt
  · rw [hleft]; exact h.pLeft_lt
  · rw [hkeep, hc]; exact h.pKeep_lt
  · rw [hkeep, hleft]; exact h.pKeep_le
  · rw [hleft, htaken]; exact h.pTaken_idle
  · rw [htaken]; exact h.pTaken_short

/-- `C`'s part of the invariant reads the snapshot's registers, the `FRAME` in progress, the beats taken and the responses. -/
theorem ConsumerOk.congr {s t : State} (h : ConsumerOk s) (hc : t.cfg = s.cfg) (hH : t.sH = s.sH) (hI : t.sI = s.sI)
    (hdt : t.frameDt = s.frameDt) (htaken : t.cTaken = s.cTaken) (hr : t.rPort = s.rPort) : ConsumerOk t := by
  have hsnap : t.snapshotting = s.snapshotting := by rw [State.snapshotting, State.snapshotting, hI, hc]
  have hidle : t.consumerIdle = s.consumerIdle := by rw [State.consumerIdle, State.consumerIdle, hsnap, hdt, hr]
  constructor
  · rw [hH, hc]; exact h.sH_lt
  · rw [hI, hc]; exact h.sI_le
  · rw [htaken]; exact h.cTaken_incomplete
  · rw [hidle, htaken]; exact h.cTaken_busy
  · rw [hsnap, hdt, hr]; exact h.rPort_busy

/-- While no beat is taken, `C`'s part of the invariant is about the snapshot's registers and the responses. -/
theorem ConsumerOk.of_cTaken_nil {t : State} (hH : t.sH < t.cfg.n) (hI : t.sI ≤ t.cfg.n) (htaken : t.cTaken = [])
    (hr : t.snapshotting = true ∨ t.frameDt ≠ none → t.rPort = []) : ConsumerOk t :=
  ⟨hH, hI, by rw [htaken]; rfl, fun _ => htaken, hr⟩

/-! ## The reset state -/

/-- The reset state of a legal build meets the invariant. -/
theorem inv_initial {c : Config} (epoch : Nat) (h : c.legal = true) : (State.initial c epoch).Inv := by
  refine (inv_iff _).2 ⟨h, n_pos c, ?_, ⟨n_pos c, Nat.pow_pos (by decide), n_pos c, le_rfl, fun _ => rfl, Nat.zero_le _⟩,
    .of_cTaken_nil (n_pos c) le_rfl rfl fun _ => rfl⟩
  intro sp
  cases sp <;> rfl

/-! ## A step of `P` -/

theorem MemoryOk.frameStep {s : State} (h : MemoryOk s) (hi : s.head < s.cfg.n) (l r : Word) : MemoryOk (s.frameStep l r) := by
  by_cases hk : 0 < s.pKeep
  · rw [frameStep_keep s l r hk]
    exact (h.storeSample hi _).congr (fun sp => by cases sp <;> rfl) rfl
  · rw [frameStep_discard s l r (by omega)]
    exact h.congr (fun sp => by cases sp <;> rfl) rfl

/-- A step of `P` keeps the memories canonical. -/
theorem MemoryOk.producer {s t : State} (h : MemoryOk s) (hp : ProducerOk s) (hs : s.handle .producer = .next t) : MemoryOk t := by
  rcases producer_next_cases hs with ⟨-, l, r, rest, -, rfl⟩ | ⟨-, -, rfl⟩ | ⟨count, rest, -, rfl⟩ | rfl
  · have hempty : MemoryOk { s with pTaken := [], pPort := rest } := h.congr (fun sp => by cases sp <;> rfl) rfl
    exact hempty.frameStep hp.head_lt l r
  · exact h.congr (fun sp => by cases sp <;> rfl) rfl
  · exact h.congr (fun sp => by cases sp <;> rfl) rfl
  · exact h

/-- A frame step on a whole frame keeps `P`'s part of the invariant. -/
theorem ProducerOk.frameStep {s : State} (h : ProducerOk s) (hleft : 0 < s.pLeft) (htaken : s.pTaken = []) (l r : Word) :
    ProducerOk (s.frameStep l r) := by
  have hlt := h.pLeft_lt
  have hkn := h.pKeep_lt
  have hkl := h.pKeep_le
  by_cases hk : 0 < s.pKeep
  · rw [frameStep_keep s l r hk]
    exact ⟨Nat.mod_lt _ (n_pos _), by simp only; omega, by simp only [storeSample_cfg]; omega, by simp only; omega,
      fun _ => htaken, by simp [htaken]⟩
  · rw [frameStep_discard s l r (by omega)]
    exact ⟨h.head_lt, by simp only; omega, hkn, by simp only; omega, fun _ => htaken, by simp [htaken]⟩

/-- `WRITE` keeps fewer frames than the ring has slots. -/
theorem keptFrames_lt (c : Config) (count : Nat) : keptFrames c count < c.n := by
  have := n_pos c
  unfold keptFrames
  omega

/-- A step of `P` keeps `P`'s part of the invariant. -/
theorem ProducerOk.producer {s t : State} (h : ProducerOk s) (hs : s.handle .producer = .next t) : ProducerOk t := by
  rcases producer_next_cases hs with ⟨hleft, l, r, rest, -, rfl⟩ | ⟨hleft, hshort, rfl⟩ | ⟨count, rest, hcount, rfl⟩ | rfl
  · have hempty : ProducerOk { s with pTaken := [], pPort := rest } :=
      ⟨h.head_lt, h.pLeft_lt, h.pKeep_lt, h.pKeep_le, fun _ => rfl, Nat.zero_le _⟩
    exact hempty.frameStep hleft rfl l r
  · exact ⟨h.head_lt, h.pLeft_lt, h.pKeep_lt, h.pKeep_le, fun h0 => absurd h0 hleft.ne', hshort⟩
  · exact ⟨h.head_lt, hcount, keptFrames_lt _ _, Nat.min_le_left _ _, fun _ => rfl, Nat.zero_le _⟩
  · exact h

/-- A step of `P` keeps the invariant. -/
theorem inv_producer {s t : State} (h : s.Inv) (hs : s.handle .producer = .next t) : t.Inv := by
  obtain ⟨hl, hC, hm, hp, hc⟩ := (inv_iff s).1 h
  obtain ⟨⟨hH, hI, -, -, -, -, -, hdt, -, htaken, hr⟩, hheadC, ⟨hcfg, -⟩, -⟩ := producer_frame hs
  exact (inv_iff t).2 ⟨hcfg ▸ hl, by rw [hheadC, hcfg]; exact hC, hm.producer hp hs, hp.producer hs,
    hc.congr hcfg hH hI hdt htaken hr⟩

/-! ## A step of `C` -/

/-- A command of the C-port keeps the memories canonical. -/
theorem MemoryOk.exec_consumer {i : Instr} {s t : State} (h : MemoryOk s) (hi : ∀ count, i ≠ .write count)
    (hs : exec i s = .next t) : MemoryOk t := by
  rcases exec_consumer_cases hi hs with ⟨dt, rfl⟩ | ⟨sp, f, -, rfl⟩ | ⟨w, draws, rfl⟩
  · exact h.congr (fun sp => by cases sp <;> rfl) rfl
  · exact (h.writeAll sp f).nextDraws
  · exact h.congr (fun sp => by cases sp <;> rfl) rfl

/-- A step of `C` keeps the memories canonical. -/
theorem MemoryOk.consumer {s t : State} (h : MemoryOk s) (hs : s.handle .consumer = .next t) : MemoryOk t := by
  rcases consumer_next_cases hs with ⟨hsnap, rfl⟩ | ⟨-, dt, -, rfl⟩ | rfl | ⟨-, i, rest, hi, hx⟩ | ⟨-, -, rfl⟩
  · exact h.readSlot (of_decide_eq_true hsnap)
  · exact h.frameTail dt
  · exact h
  · have hempty : MemoryOk { s with cTaken := [], cPort := rest } := h.congr (fun sp => by cases sp <;> rfl) rfl
    exact hempty.exec_consumer hi hx
  · exact h.congr (fun sp => by cases sp <;> rfl) rfl

/-- A command that an idle `C` executes, its beats taken, keeps `C`'s part of the invariant. -/
theorem ConsumerOk.exec_consumer {i : Instr} {s t : State} (h : ConsumerOk s) (hC : s.headC < s.cfg.n)
    (hidle : s.consumerIdle = true) (htaken : s.cTaken = []) (hi : ∀ count, i ≠ .write count) (hs : exec i s = .next t) :
    ConsumerOk t := by
  obtain ⟨hsnap, hdt, hr⟩ := (consumerIdle_iff s).1 hidle
  rcases exec_consumer_cases hi hs with ⟨dt, rfl⟩ | ⟨sp, f, -, rfl⟩ | ⟨w, draws, rfl⟩
  · exact .of_cTaken_nil hC (Nat.zero_le _) htaken fun _ => hr
  · exact h.congr (by simp) (by simp) (by simp) (by simp) (by simp) (by simp)
  · refine .of_cTaken_nil h.sH_lt h.sI_le htaken fun hbusy => ?_
    rcases hbusy with hbusy | hbusy
    · exact absurd (hsnap.symm.trans hbusy) (by decide)
    · exact absurd hdt hbusy

/-- A step of `C` keeps `C`'s part of the invariant. -/
theorem ConsumerOk.consumer {s t : State} (h : ConsumerOk s) (hC : s.headC < s.cfg.n) (hs : s.handle .consumer = .next t) :
    ConsumerOk t := by
  rcases consumer_next_cases hs with ⟨hsnap, rfl⟩ | ⟨hsnap, dt, hdt, rfl⟩ | rfl | ⟨hidle, i, rest, hi, hx⟩ | ⟨hidle, hd, rfl⟩
  · have hbusy : s.consumerIdle = false := by simp [State.consumerIdle, hsnap]
    exact .of_cTaken_nil h.sH_lt (of_decide_eq_true hsnap) (h.cTaken_busy hbusy) fun _ => h.rPort_busy (.inl hsnap)
  · have hbusy : s.consumerIdle = false := by simp [State.consumerIdle, hdt]
    refine .of_cTaken_nil ?_ ?_ ?_ fun hb => ?_
    · simpa using h.sH_lt
    · simpa using h.sI_le
    · simpa using h.cTaken_busy hbusy
    · have hdone : s.sI < s.cfg.n := by simpa [State.snapshotting] using hb
      exact absurd hdone (of_decide_eq_false hsnap)
  · exact h
  · have hempty : ConsumerOk { s with cTaken := [], cPort := rest } := .of_cTaken_nil h.sH_lt h.sI_le rfl h.rPort_busy
    exact hempty.exec_consumer hC hidle rfl hi hx
  · exact ⟨h.sH_lt, h.sI_le, hd, fun hbusy => absurd (hidle.symm.trans hbusy) (by decide), h.rPort_busy⟩

/-- A step of `C` keeps the invariant. -/
theorem inv_consumer {s t : State} (h : s.Inv) (hs : s.handle .consumer = .next t) : t.Inv := by
  obtain ⟨hl, hC, hm, hp, hc⟩ := (inv_iff s).1 h
  obtain ⟨⟨hhead, hleft, hkeep, -, -, htaken⟩, hheadC, hcfg, -⟩ := consumer_frame hs
  exact (inv_iff t).2 ⟨hcfg ▸ hl, by rw [hheadC, hcfg]; exact hC, hm.consumer hs, hp.congr hcfg hhead hleft hkeep htaken,
    hc.consumer hC hs⟩

/-! ## The other events -/

/-- The beats that the host presents, the schedule and the model's counters are not part of the invariant. -/
theorem inv_of_host_fields {s : State} (h : s.Inv) (pPort cPort : List Word) (schedule : List Event) (tick draws : Nat) :
    ({ s with pPort := pPort, cPort := cPort, schedule := schedule, tick := tick, draws := draws } : State).Inv := by
  obtain ⟨hl, hC, hm, hp, hc⟩ := (inv_iff s).1 h
  exact (inv_iff _).2 ⟨hl, hC, hm.congr (fun sp => by cases sp <;> rfl) rfl, hp.congr rfl rfl rfl rfl rfl,
    hc.congr rfl rfl rfl rfl rfl rfl⟩

/-- The choice of the next event keeps the invariant. -/
theorem inv_nextEvent {s : State} (h : s.Inv) : s.nextEvent.2.Inv := by
  cases hsch : s.schedule with
  | nil => rw [nextEvent_nil s hsch]; exact inv_of_host_fields h _ _ _ _ _
  | cons e later => rw [nextEvent_cons s hsch]; exact inv_of_host_fields h _ _ _ _ _

/-- `SYNC` keeps the invariant: the cursor that it copies is within its width. -/
theorem inv_synchronise {s : State} (h : s.Inv) : s.synchronise.Inv := by
  obtain ⟨hl, -, hm, hp, hc⟩ := (inv_iff s).1 h
  exact (inv_iff _).2 ⟨hl, hp.head_lt, hm.congr (fun sp => by cases sp <;> rfl) rfl, hp.congr rfl rfl rfl rfl rfl,
    hc.congr rfl rfl rfl rfl rfl rfl⟩

/-- Accepting a response beat does not make `C` busy. -/
theorem consumerIdle_acceptResponse {s : State} (h : s.consumerIdle = true) : s.acceptResponse.consumerIdle = true := by
  obtain ⟨hsnap, hdt, hr⟩ := (consumerIdle_iff s).1 h
  exact (consumerIdle_iff _).2 ⟨hsnap, hdt, by simp [hr]⟩

/-- Accepting a response beat keeps `C`'s part of the invariant. -/
theorem ConsumerOk.acceptResponse {s : State} (h : ConsumerOk s) : ConsumerOk s.acceptResponse := by
  refine ⟨h.sH_lt, h.sI_le, h.cTaken_incomplete, fun hbusy => ?_, fun hbusy => ?_⟩
  · by_cases hidle : s.consumerIdle = true
    · exact absurd ((consumerIdle_acceptResponse hidle).symm.trans hbusy) (by decide)
    · exact h.cTaken_busy (by simpa using hidle)
  · rw [acceptResponse_rPort, h.rPort_busy hbusy, List.tail_nil]

/-- An accepted response beat keeps the invariant. -/
theorem inv_acceptResponse {s : State} (h : s.Inv) : s.acceptResponse.Inv := by
  obtain ⟨hl, hC, hm, hp, hc⟩ := (inv_iff s).1 h
  exact (inv_iff _).2 ⟨hl, hC, hm.congr (fun sp => by cases sp <;> rfl) rfl, hp.congr rfl rfl rfl rfl rfl, hc.acceptResponse⟩

/-- Both resets lead to the reset state of the build, but for what the host offers and the model's own fields. -/
theorem inv_resetBoth {s : State} (h : s.cfg.legal = true) : s.resetBoth.Inv :=
  inv_of_host_fields (inv_initial (s.epoch + 1) h) _ _ _ _ _

/-- The resets that the host asserts and the model accepts: both or none. -/
theorem hostReset_next_cases {s t : State} {p c : Bool} (h : s.hostReset p c = .next t) :
    (p = true ∧ c = true ∧ t = s.resetBoth) ∨ t = s := by
  cases p <;> cases c <;> cases h
  · exact .inr rfl
  · exact .inl ⟨rfl, rfl, rfl⟩

/-- Every event keeps the invariant. -/
theorem inv_handle {s t : State} {e : Event} (h : s.Inv) (hs : s.handle e = .next t) : t.Inv := by
  cases e with
  | producer => exact inv_producer h hs
  | consumer => exact inv_consumer h hs
  | sync => cases hs; exact inv_synchronise h
  | presentP beat => cases hs; exact inv_of_host_fields h _ _ _ _ _
  | presentC beat => cases hs; exact inv_of_host_fields h _ _ _ _ _
  | acceptR => cases hs; exact inv_acceptResponse h
  | reset p c =>
    rcases hostReset_next_cases hs with ⟨-, -, rfl⟩ | rfl
    · exact inv_resetBoth h.legal
    · exact h

end Sys2Proof.Machine
end

section
/-! SUPPORT. The ring as a history (10_state.md R25): what a list of store steps does to `HEAD` and to each slot behind it. -/

namespace Sys2Proof.Machine

/-! ## Slots behind the cursor -/

/-- After the cursor has moved on, the slot one further behind it is the one that was there before. -/
theorem slot_behind_succ {n k : Nat} (h : Nat) (hk : k < n) : ((h + 1) % n + (n - (k + 1))) % n = (h + (n - k)) % n := by
  rw [Nat.mod_add_mod]
  congr 1
  omega

/-- The slots less than `N` behind the cursor are not the slot at it. -/
theorem slot_behind_ne {n h k : Nat} (hh : h < n) (hk : 1 ≤ k) (hkn : k < n) : (h + (n - k)) % n ≠ h := by
  by_cases hlt : h + (n - k) < n
  · rw [Nat.mod_eq_of_lt hlt]
    omega
  · rw [Nat.mod_eq_sub_mod (by omega), Nat.mod_eq_of_lt (by omega)]
    omega

/-! ## Lists of store steps -/

/-- The last sample of a list is stored last. -/
theorem storeAll_concat (s : State) (vs : List Word) (v : Word) : storeAll s (vs ++ [v]) = (storeAll s vs).storeSample v := by
  induction vs generalizing s with
  | nil => rfl
  | cons w rest ih => exact ih (s.storeSample w)

@[simp] theorem storeAll_cfg (s : State) (vs : List Word) : (storeAll s vs).cfg = s.cfg := by
  induction vs generalizing s with
  | nil => rfl
  | cons w rest ih => exact ih (s.storeSample w)

/-- Store steps move `HEAD` by their number modulo `N`. -/
theorem storeAll_head {s : State} (h : s.head < s.cfg.n) (vs : List Word) :
    (storeAll s vs).head = (s.head + vs.length) % s.cfg.n := by
  induction vs using List.reverseRecOn with
  | nil => exact (Nat.mod_eq_of_lt h).symm
  | append_singleton vs v ih =>
    rw [storeAll_concat, storeSample_head, storeAll_cfg, ih, Nat.mod_add_mod, List.length_append, List.length_singleton,
      Nat.add_assoc]

theorem storeAll_head_lt {s : State} (h : s.head < s.cfg.n) (vs : List Word) : (storeAll s vs).head < s.cfg.n := by
  rw [storeAll_head h]
  exact Nat.mod_lt _ (n_pos _)

/-- Store steps keep the ring canonical. -/
theorem storeAll_ring_wf {s : State} (h : s.head < s.cfg.n) (hr : s.ring.wf (some 0) s.cfg.n = true) (vs : List Word) :
    (storeAll s vs).ring.wf (some 0) s.cfg.n = true := by
  induction vs using List.reverseRecOn with
  | nil => exact hr
  | append_singleton vs v ih =>
    rw [storeAll_concat, storeSample_ring]
    exact wf_write v (storeAll_head_lt h vs) ih

/-- The most recent sample is one behind `HEAD`. -/
theorem storeSample_read_one_behind {s : State} (h : s.head < s.cfg.n) (hr : s.ring.wf (some 0) s.cfg.n = true) (v : Word) :
    (s.storeSample v).read .ring (((s.storeSample v).head + (s.cfg.n - 1)) % s.cfg.n) = v := by
  have hslot : ((s.storeSample v).head + (s.cfg.n - 1)) % s.cfg.n = s.head := by
    rw [storeSample_head, slot_behind_succ _ (by omega : 0 < s.cfg.n), Nat.sub_zero, Nat.add_mod_right, Nat.mod_eq_of_lt h]
  rw [hslot]
  exact storeSample_read_head s v ((wf_iff _ _ _).1 hr).1

/-- A store step moves every older sample one further behind `HEAD`. -/
theorem storeSample_read_succ_behind {s : State} (h : s.head < s.cfg.n) (v : Word) {k : Nat} (hk : 1 ≤ k) (hkn : k < s.cfg.n) :
    (s.storeSample v).read .ring (((s.storeSample v).head + (s.cfg.n - (k + 1))) % s.cfg.n) =
      s.read .ring ((s.head + (s.cfg.n - k)) % s.cfg.n) := by
  rw [storeSample_head, slot_behind_succ _ hkn]
  exact storeSample_read_ne s v (slot_behind_ne h hk hkn)

/-- From a ring of zeros the slots behind `HEAD` hold the samples stored, the most recent first, and `+0.0` before the first. -/
theorem storeAll_read_behind {s : State} (hring : s.ring = []) (h : s.head < s.cfg.n) (vs : List Word) {k : Nat}
    (hkn : k < s.cfg.n) :
    (storeAll s vs).read .ring (((storeAll s vs).head + (s.cfg.n - (k + 1))) % s.cfg.n) = (vs.reverse[k]?).getD 0#32 := by
  induction vs using List.reverseRecOn generalizing k with
  | nil => simp [storeAll, State.read, State.unlisted, Space.resetWord, hring, Mem.find?]
  | append_singleton vs v ih =>
    have hlt : (storeAll s vs).head < (storeAll s vs).cfg.n := by
      rw [storeAll_cfg]
      exact storeAll_head_lt h vs
    have hn : s.cfg.n = (storeAll s vs).cfg.n := by rw [storeAll_cfg]
    rw [storeAll_concat, List.reverse_concat, hn]
    cases k with
    | zero =>
      have hwf : s.ring.wf (some 0) s.cfg.n = true := by rw [hring]; rfl
      exact storeSample_read_one_behind hlt (hn ▸ storeAll_ring_wf h hwf vs) v
    | succ k =>
      rw [storeSample_read_succ_behind hlt v (Nat.le_add_left 1 k) (hn ▸ hkn), ← hn]
      exact ih (by omega)

end Sys2Proof.Machine
end

section
/-! SUPPORT. The two cursors (10_state.md R21, 20_memory.md R57): which events move them, and to what. -/

namespace Sys2Proof.Machine

/-- A frame step moves `HEAD` only where it stores. -/
theorem frameStep_head_cases (s : State) (l r : Word) :
    (s.frameStep l r).head = s.head ∨ (0 < s.pKeep ∧ (s.frameStep l r).head = (s.head + 1) % s.cfg.n ∧
      (((s.mem .ring).Pairwise fun x y => x.1 < y.1) → (s.frameStep l r).read .ring s.head = downmix s.cfg.downmix l r)) := by
  by_cases hk : 0 < s.pKeep
  · rw [frameStep_keep s l r hk]
    exact .inr ⟨hk, rfl, fun hring => (read_congr rfl rfl _).trans (storeSample_read_head s _ hring)⟩
  · rw [frameStep_discard s l r (Nat.eq_zero_of_not_pos hk)]
    exact .inl rfl

/-- A step of `P` moves `HEAD` only by a frame step that stores: one slot on, the downmixed sample left at the old cursor. -/
theorem producer_head {s t : State} (h : s.handle .producer = .next t) :
    t.head = s.head ∨ (t.head = (s.head + 1) % s.cfg.n ∧ 0 < s.pLeft ∧ 0 < s.pKeep ∧
      ∃ l r rest, s.pTaken ++ s.pPort = l :: r :: rest ∧ (s.Inv → t.read .ring s.head = downmix s.cfg.downmix l r)) := by
  rcases producer_next_cases h with ⟨hleft, l, r, rest, hx, rfl⟩ | ⟨-, -, rfl⟩ | ⟨count, rest, -, rfl⟩ | rfl
  · rcases frameStep_head_cases { s with pTaken := [], pPort := rest } l r with hhead | ⟨hk, hhead, hread⟩
    · exact .inl hhead
    · exact .inr ⟨hhead, hleft, hk, l, r, rest, hx, fun hinv => hread (hinv.rising .ring)⟩
  · exact .inl rfl
  · exact .inl rfl
  · exact .inl rfl

end Sys2Proof.Machine
end

section
/-! PROOFS. The statements about the state: its reset values, its invariant, and who writes what (10_state.md). -/

namespace Sys2Proof.Proofs
open Sys2Proof.Machine

/-- Settles O59: each agent keeps its own part of the invariant and leaves the other's alone; the host's acts keep both. -/
theorem stepKeepsTheInvariant : Obligations.StepKeepsTheInvariant := by
  unfold Obligations.StepKeepsTheInvariant
  intro s t h hs
  rw [step_legal h.legal] at hs
  exact inv_handle (inv_nextEvent h) hs

/-- Settles O21, by induction from the most recent sample on. -/
theorem ringHoldsTheMostRecentSamples : Obligations.RingHoldsTheMostRecentSamples := by
  unfold Obligations.RingHoldsTheMostRecentSamples
  intro s vs hring h
  refine ⟨storeAll_head h vs, fun k hk hkn => ?_⟩
  obtain ⟨k, rfl⟩ := Nat.exists_eq_add_of_le' hk
  exact storeAll_read_behind hring h vs hkn

/-- Settles O52: the frames of the two agents. -/
theorem agentsWriteOnlyWhatTheyOwn : Obligations.AgentsWriteOnlyWhatTheyOwn := by
  unfold Obligations.AgentsWriteOnlyWhatTheyOwn
  exact ⟨fun _ _ => producer_frame, fun _ _ => consumer_frame⟩

/-- Settles O54, by the event that the step takes. -/
theorem cursorsMoveOnlyAsTheRulesSay : Obligations.CursorsMoveOnlyAsTheRulesSay := by
  unfold Obligations.CursorsMoveOnlyAsTheRulesSay
  intro s t hs
  rw [step_legal (legal_of_step hs)] at hs
  generalize he : s.nextEvent.1 = e at hs
  cases e with
  | producer =>
    obtain ⟨-, hheadC, ⟨hcfg, -⟩, -⟩ := producer_frame hs
    simp only [nextEvent_headC, nextEvent_cfg] at hheadC hcfg
    refine ⟨hcfg, ?_, .inl hheadC⟩
    rcases producer_head hs with hhead | ⟨hhead, hleft, hkeep, l, r, rest, hx, hread⟩
    · exact .inl (by simpa using hhead)
    · simp only [nextEvent_head, nextEvent_cfg, nextEvent_pLeft, nextEvent_pKeep, nextEvent_pTaken, nextEvent_pPort]
        at hhead hleft hkeep hx hread
      exact .inr (.inl ⟨hhead, rfl, hleft, hkeep, l, r, rest, hx, fun hinv => hread (inv_nextEvent hinv)⟩)
  | consumer =>
    obtain ⟨⟨hhead, -⟩, hheadC, hcfg, -⟩ := consumer_frame hs
    exact ⟨by simpa using hcfg, .inl (by simpa using hhead), .inl (by simpa using hheadC)⟩
  | sync => cases hs; simp
  | presentP beat => cases hs; simp
  | presentC beat => cases hs; simp
  | acceptR => cases hs; simp
  | reset p c =>
    rcases hostReset_next_cases hs with ⟨rfl, rfl, rfl⟩ | rfl
    · exact ⟨by simp, .inr (.inr ⟨rfl, rfl⟩), .inr (.inr ⟨rfl, rfl⟩)⟩
    · simp

/-- Settles O56: the reset state lists nothing, so every word reads as its reset word or its draw. -/
theorem resetValues : Obligations.ResetValues := by
  unfold Obligations.ResetValues
  intro c epoch i
  refine ⟨rfl, rfl, rfl, rfl, rfl, rfl, rfl, rfl, fun sp hring hbins => ?_, ?_, rfl, rfl, rfl⟩
  · cases sp with
    | ring => exact absurd rfl hring
    | bins => exact absurd rfl hbins
    | snap => rfl
    | frm => rfl
    | spec => rfl
    | tgt => rfl
  · exact (consumerIdle_iff _).2 ⟨decide_eq_false (lt_irrefl _), rfl, rfl⟩

/-- Settles O58: each part of the invariant holds of the reset values. -/
theorem resetMeetsTheInvariant : Obligations.ResetMeetsTheInvariant := by
  unfold Obligations.ResetMeetsTheInvariant
  exact fun c epoch h => inv_initial epoch h

end Sys2Proof.Proofs
end

section
/-! SUPPORT. Words as bytes outside CORE (20_memory.md R51). -/

namespace Sys2Proof

/-- The four bytes of a word are its digits to the base 256, the least significant first. -/
theorem toNat_wordToBytes (w : Word) : (wordToBytes w).map BitVec.toNat =
    [w.toNat % 256, w.toNat / 256 % 256, w.toNat / 65536 % 256, w.toNat / 16777216] := by
  have htop : w.toNat / 16777216 < 256 := Nat.div_lt_of_lt_mul w.isLt
  simp [wordToBytes, BitVec.extractLsb'_toNat, Nat.shiftRight_eq_div_pow, Nat.mod_eq_of_lt htop]

/-- A byte stream read back is the words it was written from. -/
theorem wordsOfBytes_bytesOfWords (ws : List Word) : wordsOfBytes (bytesOfWords ws) = ws := by
  induction ws with
  | nil => rfl
  | cons w rest ih => exact congrArg₂ List.cons (wordOfBytes_wordToBytes w) ih

end Sys2Proof
end

section
/-! SUPPORT. Eventual visibility (20_memory.md R60): an event changes `HEAD_C` only to what `HEAD` then is. -/

namespace Sys2Proof.Machine

/-- `HEAD_C` stays or becomes the `HEAD` of the next state: by `SYNC` a copy, by a reset 0 like it. -/
theorem handle_headC_cases {s t : State} {e : Event} (h : s.handle e = .next t) : t.headC = s.headC ∨ t.headC = t.head := by
  cases e with
  | producer =>
    obtain ⟨-, hheadC, -⟩ := producer_frame h
    exact .inl hheadC
  | consumer =>
    obtain ⟨-, hheadC, -⟩ := consumer_frame h
    exact .inl hheadC
  | sync => cases h; exact .inr rfl
  | presentP beat => cases h; exact .inl rfl
  | presentC beat => cases h; exact .inl rfl
  | acceptR => cases h; exact .inl rfl
  | reset p c =>
    rcases hostReset_next_cases h with ⟨-, -, rfl⟩ | rfl
    · exact .inr rfl
    · exact .inl rfl

/-- Once `HEAD_C` equals a `HEAD` that has stopped, it stays equal to it. -/
theorem IsRun.headC_stays {f : Nat → Event} {σ : Nat → State} {k h : Nat} (hrun : IsRun f σ) (hC : (σ k).headC = h)
    (hhead : ∀ m, k ≤ m → (σ m).head = h) {m : Nat} (hm : k ≤ m) : (σ m).headC = h := by
  induction m, hm using Nat.le_induction with
  | base => exact hC
  | succ m hm ih =>
    rcases handle_headC_cases (hrun m) with hsame | hcopy
    · exact hsame.trans ih
    · exact hcopy.trans (hhead (m + 1) (Nat.le_succ_of_le hm))

end Sys2Proof.Machine
end

section
/-! SUPPORT. Independence of the two agents (20_memory.md R68): a step of one in two states that differ only in what belongs to the
other. -/

namespace Sys2Proof.Machine

/-! ## Agent P -/

/-- A store step writes `P`'s part from `P`'s part. -/
theorem SameProducerPart.storeSample {s s' : State} (h : SameProducerPart s s') (hcfg : s'.cfg = s.cfg) (v : Word) :
    SameProducerPart (s.storeSample v) (s'.storeSample v) := by
  obtain ⟨hhead, hleft, hkeep, hring, hport, htaken⟩ := h
  simp [SameProducerPart, hcfg, hhead, hleft, hkeep, hring, hport, htaken]

/-- A frame step writes `P`'s part from `P`'s part. -/
theorem SameProducerPart.frameStep {s s' : State} (h : SameProducerPart s s') (hcfg : s'.cfg = s.cfg) (l r : Word) :
    SameProducerPart (s.frameStep l r) (s'.frameStep l r) := by
  have ⟨_, hleft, hkeep, _⟩ := h
  by_cases hk : 0 < s.pKeep
  · rw [frameStep_keep s l r hk, frameStep_keep s' l r (hkeep ▸ hk), hcfg]
    obtain ⟨hhead, -, -, hring, hport, htaken⟩ := h.storeSample hcfg (downmix s.cfg.downmix l r)
    exact ⟨hhead, congrArg (· - 1) hleft, congrArg (· - 1) hkeep, hring, hport, htaken⟩
  · have h0 : s.pKeep = 0 := Nat.eq_zero_of_not_pos hk
    rw [frameStep_discard s l r h0, frameStep_discard s' l r (hkeep.trans h0)]
    obtain ⟨hhead, -, -, hring, hport, htaken⟩ := h
    exact ⟨hhead, congrArg (· - 1) hleft, hkeep, hring, hport, htaken⟩

/-- What `P` does inside a `WRITE` writes `P`'s part from `P`'s part. -/
theorem SameProducerPart.receiveFrame {s s' : State} (h : SameProducerPart s s') (hcfg : s'.cfg = s.cfg) :
    SameProducerPart s.receiveFrame s'.receiveFrame := by
  obtain ⟨hhead, hleft, hkeep, hring, hport, htaken⟩ := h
  rw [State.receiveFrame, State.receiveFrame, hport, htaken]
  cases takeFrame (s.pTaken ++ s.pPort) with
  | none => exact ⟨hhead, hleft, hkeep, hring, rfl, rfl⟩
  | some frame =>
    obtain ⟨l, r, rest⟩ := frame
    have hempty : SameProducerPart { s with pTaken := [], pPort := rest } { s' with pTaken := [], pPort := rest } :=
      ⟨hhead, hleft, hkeep, hring, rfl, rfl⟩
    exact hempty.frameStep hcfg l r

/-- A step of `P` in two states with the same `P`'s part leads to the same `P`'s part, or refuses the same word in both. -/
theorem producer_independent {s s' : State} (hcfg : s'.cfg = s.cfg) (h : SameProducerPart s s') :
    (∃ t t', s.handle .producer = .next t ∧ s'.handle .producer = .next t' ∧ SameProducerPart t t') ∨
    (∃ w, s.handle .producer = .refused (.reservedEncoding .producer w) ∧
      s'.handle .producer = .refused (.reservedEncoding .producer w)) := by
  have ⟨hhead, hleft, hkeep, hring, hport, htaken⟩ := h
  have hbeats : s'.pTaken ++ s'.pPort = s.pTaken ++ s.pPort := by rw [hport, htaken]
  rcases handle_producer_cases s with ⟨hb, hs⟩ | ⟨h0, i, rest, hd, hs⟩ | ⟨h0, hd, hs⟩ | ⟨h0, w, hd, hs⟩
  · exact .inl ⟨_, _, hs, handle_producer_busy (hleft ▸ hb), h.receiveFrame hcfg⟩
  · obtain ⟨count, rfl, -⟩ := decode_producer_done hd
    have hs' : s'.handle .producer = exec (.write count) { s' with pTaken := [], pPort := rest } :=
      handle_producer_done (hleft.trans h0) (hbeats ▸ hd)
    exact .inl ⟨_, _, hs, hs', hhead, rfl, congrArg (keptFrames · count) hcfg, hring, rfl, rfl⟩
  · exact .inl ⟨_, _, hs, handle_producer_incomplete (hleft.trans h0) (hbeats ▸ hd), hhead, hleft, hkeep, hring, rfl, hbeats⟩
  · exact .inr ⟨w, hs, handle_producer_reserved (hleft.trans h0) (hbeats ▸ hd)⟩

/-! ## Agent C -/

/-- Two outcomes of the same kind: both a next state, or both refused for the same reason. -/
def SameFate (o o' : Host.Outcome State Fault Refusal) : Prop :=
  (∃ t t', o = .next t ∧ o' = .next t') ∨ ∃ r, o = .refused r ∧ o' = .refused r

theorem sameFate_next (t t' : State) : SameFate (.next t) (.next t') := .inl ⟨t, t', rfl, rfl⟩

theorem sameFate_refused (r : Refusal) : SameFate (.refused r) (.refused r) := .inr ⟨r, rfl, rfl⟩

/-- Whether a command completes depends on the build alone: only `RDBIN` can be refused, by its index. -/
theorem exec_sameFate (i : Instr) {s s' : State} (hcfg : s'.cfg = s.cfg) : SameFate (exec i s) (exec i s') := by
  cases i with
  | rdbin j =>
    simp only [exec, execRdbin, hcfg]
    split
    · exact sameFate_next _ _
    · exact sameFate_refused _
  | write count => exact sameFate_next _ _
  | snapshot => exact sameFate_next _ _
  | window => exact sameFate_next _ _
  | fft => exact sameFate_next _ _
  | bucketize => exact sameFate_next _ _
  | advance dt => exact sameFate_next _ _
  | frame dt => exact sameFate_next _ _
  | bcount => exact sameFate_next _ _
  | logpow re im => exact sameFate_next _ _

/-- `C`'s part determines whether a snapshot is in progress. -/
theorem SameConsumerPart.snapshotting {s s' : State} (h : SameConsumerPart s s') (hcfg : s'.cfg = s.cfg) :
    s'.snapshotting = s.snapshotting := by
  obtain ⟨-, hI, -⟩ := h
  rw [State.snapshotting, State.snapshotting, hI, hcfg]

/-- `C`'s part determines whether `C` is idle. -/
theorem SameConsumerPart.consumerIdle {s s' : State} (h : SameConsumerPart s s') (hcfg : s'.cfg = s.cfg) :
    s'.consumerIdle = s.consumerIdle := by
  have hsnap := h.snapshotting hcfg
  obtain ⟨-, -, -, -, -, -, -, hdt, -, -, hr⟩ := h
  rw [State.consumerIdle, State.consumerIdle, hsnap, hdt, hr]

/-- A step of `C` in two states with the same `C`'s part gives a next state in both or is refused for the same reason in both. -/
theorem consumer_independent {s s' : State} (hcfg : s'.cfg = s.cfg) (h : SameConsumerPart s s') :
    SameFate (s.handle .consumer) (s'.handle .consumer) := by
  have hsnap := h.snapshotting hcfg
  have hidle := h.consumerIdle hcfg
  obtain ⟨-, -, -, -, -, -, -, hdt, hport, htaken, hr⟩ := h
  have hbeats : s'.cTaken ++ s'.cPort = s.cTaken ++ s.cPort := by rw [hport, htaken]
  rcases handle_consumer_cases s with ⟨hb, hs⟩ | ⟨hb, dt, hf, hs⟩ | ⟨hb, hf, hne, hs⟩ | ⟨hi, i, rest, hd, hs⟩ | ⟨hi, hd, hs⟩
    | ⟨hi, w, hd, hs⟩
  · rw [hs, handle_consumer_snapshotting (hsnap.trans hb)]
    exact sameFate_next _ _
  · rw [hs, handle_consumer_frame (hsnap.trans hb) (hdt.trans hf)]
    exact sameFate_next _ _
  · rw [hs, handle_consumer_held (hsnap.trans hb) (hdt.trans hf) (hr ▸ hne)]
    exact sameFate_next _ _
  · rw [hs, handle_consumer_done (hidle.trans hi) (hbeats ▸ hd)]
    exact exec_sameFate i (s := { s with cTaken := [], cPort := rest }) hcfg
  · rw [hs, handle_consumer_incomplete (hidle.trans hi) (hbeats ▸ hd)]
    exact sameFate_next _ _
  · rw [hs, handle_consumer_reserved (hidle.trans hi) (hbeats ▸ hd)]
    exact sameFate_refused _

end Sys2Proof.Machine
end

section
/-! SUPPORT. A quiescent snapshot (20_memory.md R62): what holds from its latch step on while `P` does not step, and how each event
carries it on. -/

namespace Sys2Proof.Machine

/-- `t` is in or past a snapshot of `s`, taken with both cursors equal and `P` at rest: the words below `S_I` are copied, and every
other space, the cursors and the build are as in `s`. -/
structure QuiescentSince (s t : State) : Prop where
  inv : t.Inv
  cfg : t.cfg = s.cfg
  head : t.head = s.head
  headC : t.headC = s.head
  sH : t.sH = s.head
  copied : ∀ i, i < t.sI → t.read .snap i = s.read .ring ((s.head + s.cfg.n - i) % s.cfg.n)
  others : ∀ sp, sp ≠ .snap → SameWords s t sp

/-- It is a matter of the build, the cursors, the snapshot's registers, the memories and the reset count; `HEAD_C` may be a fresh copy
of `HEAD`. -/
theorem QuiescentSince.congr {s t u : State} (h : QuiescentSince s t) (hinv : u.Inv) (hheadC : u.headC = s.head)
    (hcfg : u.cfg = t.cfg := by rfl) (hhead : u.head = t.head := by rfl) (hH : u.sH = t.sH := by rfl)
    (hI : u.sI = t.sI := by rfl) (hm : ∀ sp, u.mem sp = t.mem sp := by intro sp; cases sp <;> rfl)
    (he : u.epoch = t.epoch := by rfl) : QuiescentSince s u where
  inv := hinv
  cfg := hcfg.trans h.cfg
  head := hhead.trans h.head
  headC := hheadC
  sH := hH.trans h.sH
  copied i hi := (read_congr (hm .snap) he i).trans (h.copied i (hI ▸ hi))
  others sp hsp i := (read_congr (hm sp) he i).trans (h.others sp hsp i)

/-- The latch step, of `SNAPSHOT` or of `FRAME`, begins a snapshot of the state it is taken in. -/
theorem QuiescentSince.latch {s t : State} {dt : Option Word} {rest : List Word} {later : List Event} (hC : s.headC = s.head)
    (ht : t = { s.latch with frameDt := dt, cTaken := [], cPort := rest, schedule := later }) (hinv : t.Inv) :
    QuiescentSince s t := by
  subst ht
  exact ⟨hinv, rfl, rfl, hC, hC, fun i hi => absurd hi (Nat.not_lt_zero i),
    fun sp _ i => read_congr (by cases sp <;> rfl) rfl i⟩

/-- A read step copies one word more, from the ring as it was. -/
theorem QuiescentSince.readSlot {s t : State} (h : QuiescentSince s t) (hinv : t.readSlot.Inv) (hI : t.sI < t.cfg.n) :
    QuiescentSince s t.readSlot where
  inv := hinv
  cfg := h.cfg
  head := h.head
  headC := h.headC
  sH := h.sH
  copied i hi := by
    by_cases hne : i = t.sI
    · subst hne
      rw [readSlot_read_sI t (h.inv.rising .snap), snapSlot_eq t hI, h.sH, h.cfg]
      exact h.others .ring (by decide) _
    · rw [readSlot_read_ne t hne]
      rw [readSlot_sI] at hi
      exact h.copied i (by omega)
  others sp hsp i := (readSlot_read_space t hsp i).trans (h.others sp hsp i)

/-- Every event but a step of `P` and a reset carries the snapshot on; a step of `C`, while words are left to copy, by one word. -/
theorem QuiescentSince.handle {s t : State} {e : Event} (h : QuiescentSince s t) (hP : e ≠ .producer)
    (hR : ∀ p c, e ≠ .reset p c) (hI : e = .consumer → t.sI < t.cfg.n) :
    ∃ u, t.handle e = .next u ∧ QuiescentSince s u ∧ u.sI = t.sI + [e].count .consumer ∧ u.schedule = t.schedule := by
  cases e with
  | producer => exact absurd rfl hP
  | reset p c => exact absurd rfl (hR p c)
  | consumer =>
    have hs : t.handle .consumer = .next t.readSlot := handle_consumer_snapshotting (decide_eq_true (hI rfl))
    exact ⟨_, hs, h.readSlot (inv_handle h.inv hs) (hI rfl), rfl, rfl⟩
  | sync => exact ⟨_, rfl, h.congr (inv_synchronise h.inv) h.head, rfl, rfl⟩
  | presentP beat => exact ⟨_, rfl, h.congr (inv_of_host_fields h.inv _ _ _ _ _) h.headC, rfl, rfl⟩
  | presentC beat => exact ⟨_, rfl, h.congr (inv_of_host_fields h.inv _ _ _ _ _) h.headC, rfl, rfl⟩
  | acceptR => exact ⟨_, rfl, h.congr (inv_acceptResponse h.inv) h.headC, rfl, rfl⟩

/-- A schedule with as many steps of `C` as words are left to copy, and none of `P` and no reset, completes the snapshot. -/
theorem QuiescentSince.run {s t : State} (h : QuiescentSince s t) {es later : List Event} (hsch : t.schedule = es ++ later)
    (hcount : t.sI + es.count .consumer = s.cfg.n) (hP : .producer ∉ es) (hR : ∀ p c, .reset p c ∉ es) :
    ∃ u, Host.Core.run Sys2Proof.core es.length t = .next u ∧ QuiescentSince s u ∧ u.sI = s.cfg.n ∧ u.schedule = later := by
  induction es generalizing t with
  | nil => exact ⟨t, run_zero t, h, hcount, hsch⟩
  | cons e es ih =>
    have hcount' : t.sI + ([e].count .consumer + es.count .consumer) = s.cfg.n := by
      rw [← List.count_append]
      exact hcount
    have ht : QuiescentSince s { t with schedule := es ++ later } :=
      h.congr (inv_of_host_fields h.inv _ _ _ _ _) h.headC
    have hI : e = .consumer → t.sI < t.cfg.n := by
      rintro rfl
      rw [List.count_singleton_self] at hcount'
      rw [h.cfg]
      omega
    obtain ⟨u, hu, hq, hsI, hus⟩ := ht.handle (fun he => hP (he ▸ List.mem_cons_self))
      (fun p c he => hR p c (he ▸ List.mem_cons_self)) hI
    have hstep : step t = .next u := (step_cons h.inv.legal hsch).trans hu
    obtain ⟨v, hv, hend⟩ := ih hq hus (by rw [hsI, ← hcount']; exact Nat.add_assoc _ _ _)
      (fun he => hP (List.mem_cons_of_mem e he)) (fun p c he => hR p c (List.mem_cons_of_mem e he))
    exact ⟨v, (run_succ hstep).trans hv, hend⟩

/-- `SNAPSHOT` and `FRAME` decode from their beats, and their first step is the latch step. -/
theorem decode_and_latch {i : Instr} (hi : i = .snapshot ∨ ∃ dt, i = .frame dt) (rest : List Word) :
    decode .consumer (encode i ++ rest) = .done i rest ∧
      ∀ s : State, ∃ dt, exec i s = .next { s.latch with frameDt := dt } := by
  rcases hi with rfl | ⟨dt, rfl⟩
  · exact ⟨rfl, fun s => ⟨s.frameDt, rfl⟩⟩
  · exact ⟨rfl, fun _ => ⟨some dt, rfl⟩⟩

/-- The step of an idle `C` that is presented a `SNAPSHOT` or a `FRAME`, the cursors being equal, begins a snapshot. -/
theorem step_begins_snapshot {s : State} {i : Instr} {rest : List Word} {later : List Event} (h : s.Inv) (hC : s.headC = s.head)
    (hi : i = .snapshot ∨ ∃ dt, i = .frame dt) (hp : ConsumerPresented s (encode i ++ rest))
    (hsch : s.schedule = .consumer :: later) :
    ∃ t, step s = .next t ∧ QuiescentSince s t ∧ t.sI = 0 ∧ t.schedule = later := by
  obtain ⟨hidle, htaken, hport⟩ := hp
  obtain ⟨hd, hx⟩ := decode_and_latch hi rest
  obtain ⟨dt, hexec⟩ := hx { s with schedule := later, cTaken := [], cPort := rest }
  have hs : ({ s with schedule := later } : State).handle .consumer =
      .next { s.latch with frameDt := dt, cTaken := [], cPort := rest, schedule := later } :=
    (handle_consumer_done (s := { s with schedule := later }) hidle (by rw [htaken, hport]; exact hd)).trans hexec
  exact ⟨_, (step_cons h.legal hsch).trans hs, .latch hC rfl (inv_handle (inv_of_host_fields h _ _ _ _ _) hs), rfl, rfl⟩

end Sys2Proof.Machine
end

section
/-! PROOFS. The statements about memory and its order (20_memory.md). -/

namespace Sys2Proof.Proofs
open Sys2Proof.Machine

/-- Settles O5, by induction over the words. -/
theorem serialisationIsLittleEndian : Obligations.SerialisationIsLittleEndian := by
  unfold Obligations.SerialisationIsLittleEndian
  exact ⟨toNat_wordToBytes, wordsOfBytes_bytesOfWords⟩

/-- Settles O24: the latch step begins the snapshot, and the rest of the schedule completes it. -/
theorem quiescentSnapshotIsExact : Obligations.QuiescentSnapshotIsExact := by
  unfold Obligations.QuiescentSnapshotIsExact
  intro s i rest es later h hC hi hp hsch hcount hP hR
  obtain ⟨t, hstep, hq, hI, htsch⟩ := step_begins_snapshot h hC hi hp hsch
  obtain ⟨u, hrun, hu, huI, husch⟩ := hq.run htsch (by rw [hI, hcount, Nat.zero_add]) hP hR
  refine ⟨u, ?_, fun i hi => hu.copied i (huI ▸ hi), hu.sH, huI, hu.others, hu.head, hu.headC.trans hC.symm, husch⟩
  rw [Nat.add_comm]
  exact (run_succ hstep).trans hrun

/-- Settles O51: the event's own meaning. -/
theorem syncCopiesTheCursor : Obligations.SyncCopiesTheCursor := by
  unfold Obligations.SyncCopiesTheCursor
  intro s later hl hsch
  exact step_cons hl hsch

/-- Settles O53: each agent's step is determined by its own part and the build. -/
theorem neitherSideBlocksTheOther : Obligations.NeitherSideBlocksTheOther := by
  unfold Obligations.NeitherSideBlocksTheOther
  refine fun s s' hcfg => ⟨producer_independent hcfg, fun h => ⟨h.consumerIdle hcfg, ?_, consumer_independent hcfg h⟩⟩
  obtain ⟨-, -, -, -, -, -, -, -, -, -, hr⟩ := h
  exact congrArg List.head? hr

/-- Settles O55: the first `SYNC` after `HEAD` has stopped copies it, and nothing moves `HEAD_C` away again. -/
theorem fairRunsCatchUp : Obligations.FairRunsCatchUp := by
  unfold Obligations.FairRunsCatchUp
  intro f σ k h hrun hfair hhead
  obtain ⟨m, hkm, hsync⟩ := hfair k
  have hcopy : (σ m).synchronise = σ (m + 1) := by
    have hstep := hrun m
    rw [hsync] at hstep
    exact Host.Outcome.next.inj hstep
  have hC : (σ (m + 1)).headC = h := hcopy ▸ hhead m hkm
  have hle : k ≤ m + 1 := Nat.le_succ_of_le hkm
  exact ⟨m + 1, hle, fun m' hm' => hrun.headC_stays hC (fun j hj => hhead j (hle.trans hj)) hm'⟩

end Sys2Proof.Proofs
end

section
/-! SUPPORT. The opcode map read as a table (30_encoding.md R86): the decoder undoes the encoder, and beats that are no command's
encoding are short of payload or begin with a word that selects no row. -/

namespace Sys2Proof

/-- Decoding the beats of a well-formed command gives it back; for the eight commands without an immediate the word is closed, and
decoding it is a computation. -/
theorem decode_encode {i : Instr} (h : i.wf) (rest : List Word) : decode i.port (encode i ++ rest) = .done i rest := by
  cases i with
  | write count =>
    show decodeProducer (commandWord 0x01 count :: rest) = _
    rw [decodeProducer, opcodeOf_commandWord (by decide) h, immOf_commandWord h]
    rfl
  | rdbin j =>
    show decodeConsumer (commandWord 0x18 j :: rest) = _
    rw [decodeConsumer, opcodeOf_commandWord (by decide) h, immOf_commandWord h]
    rfl
  | snapshot => rfl
  | window => rfl
  | fft => rfl
  | bucketize => rfl
  | advance dt => rfl
  | frame dt => rfl
  | bcount => rfl
  | logpow re im => rfl

/-- Masking all but the opcode field of a command word clears its immediate (R83). -/
theorem commandWord_and_opcode {op imm : Nat} (ho : op < 256) (hi : imm < 2 ^ 24) :
    commandWord op imm &&& 0xFF000000#32 = commandWord op 0 := by
  apply BitVec.eq_of_toNat_eq
  rw [toNat_and_opcode, opcodeOf_commandWord ho hi, commandWord, BitVec.toNat_ofNat]
  omega

/-- A word on the P-port is a `WRITE` or selects no row (R86, R88). -/
theorem producer_word_cases (w : Word) :
    (∃ count, count < immLimit ∧ w = commandWord 0x01 count) ∨ ∀ beats, decode .producer (w :: beats) = .reserved w := by
  by_cases h : opcodeOf w = 0x01
  · exact .inl ⟨immOf w, immOf_lt w, by rw [← h, commandWord_fields]⟩
  · exact .inr fun beats => if_neg h

/-- A word on the C-port is an `RDBIN`, one of the eight words without an immediate, or selects no row (R86, R88). -/
theorem consumer_word_cases (w : Word) :
    (∃ j, j < immLimit ∧ w = commandWord 0x18 j) ∨ (∃ op, 0x10 ≤ op ∧ op ≤ 0x17 ∧ w = commandWord op 0) ∨
      ∀ beats, decode .consumer (w :: beats) = .reserved w := by
  by_cases h18 : opcodeOf w = 0x18
  · exact .inl ⟨immOf w, immOf_lt w, by rw [← h18, commandWord_fields]⟩
  by_cases himm : immOf w = 0
  · by_cases hop : 0x10 ≤ opcodeOf w ∧ opcodeOf w ≤ 0x17
    · exact .inr (.inl ⟨opcodeOf w, hop.1, hop.2, by rw [← himm, commandWord_fields]⟩)
    · refine .inr (.inr fun beats => ?_)
      simp (disch := omega) only [decode, decodeConsumer, if_neg]
  · exact .inr (.inr fun beats => (if_neg h18).trans (if_pos himm))

/-- Beats whose first word is one of those eight words are a command's encoding, or short of its payload (R85). -/
theorem consumer_beats_cases {op : Nat} (hlo : 0x10 ≤ op) (hhi : op ≤ 0x17) (beats : List Word) :
    (∃ i rest, i.wf ∧ i.port = .consumer ∧ commandWord op 0 :: beats = encode i ++ rest) ∨
      decode .consumer (commandWord op 0 :: beats) = .incomplete := by
  interval_cases op
  · exact .inl ⟨.snapshot, beats, trivial, rfl, rfl⟩
  · exact .inl ⟨.window, beats, trivial, rfl, rfl⟩
  · exact .inl ⟨.fft, beats, trivial, rfl, rfl⟩
  · exact .inl ⟨.bucketize, beats, trivial, rfl, rfl⟩
  · cases beats with
    | nil => exact .inr rfl
    | cons dt rest => exact .inl ⟨.advance dt, rest, trivial, rfl, rfl⟩
  · cases beats with
    | nil => exact .inr rfl
    | cons dt rest => exact .inl ⟨.frame dt, rest, trivial, rfl, rfl⟩
  · exact .inl ⟨.bcount, beats, trivial, rfl, rfl⟩
  · match beats with
    | [] => exact .inr rfl
    | [_] => exact .inr rfl
    | re :: im :: rest => exact .inl ⟨.logpow re im, rest, trivial, rfl, rfl⟩

/-- Beats begin with a well-formed command of their port, or are short of one, or their first word selects no row. -/
theorem beats_cases (p : Port) (beats : List Word) :
    (∃ i rest, i.wf ∧ i.port = p ∧ beats = encode i ++ rest) ∨ decode p beats = .incomplete ∨
      ∃ w, decode p beats = .reserved w := by
  match p, beats with
  | .producer, [] => exact .inr (.inl rfl)
  | .consumer, [] => exact .inr (.inl rfl)
  | .producer, w :: bs =>
    rcases producer_word_cases w with ⟨count, hc, rfl⟩ | hr
    · exact .inl ⟨.write count, bs, hc, rfl, rfl⟩
    · exact .inr (.inr ⟨w, hr bs⟩)
  | .consumer, w :: bs =>
    rcases consumer_word_cases w with ⟨j, hj, rfl⟩ | ⟨op, hlo, hhi, rfl⟩ | hr
    · exact .inl ⟨.rdbin j, bs, hj, rfl, rfl⟩
    · exact (consumer_beats_cases hlo hhi bs).imp_right .inl
    · exact .inr (.inr ⟨w, hr bs⟩)

end Sys2Proof
end

section
/-! SUPPORT. What an agent fetches from and what holds it (30_encoding.md R81, R82, 70_reset_and_hazards.md R229): the beats it is
presented, an undelivered response, and accepting response beats. -/

namespace Sys2Proof.Machine

/-- An idle `P` that is presented some beats fetches from them. -/
theorem ProducerPresented.fetches {s : State} {beats : List Word} (h : ProducerPresented s beats) :
    s.pLeft = 0 ∧ s.pTaken ++ s.pPort = beats := by
  obtain ⟨hidle, htaken, hport⟩ := h
  exact ⟨hidle, by rw [htaken, hport, List.nil_append]⟩

/-- An idle `C` that is presented some beats fetches from them. -/
theorem ConsumerPresented.fetches {s : State} {beats : List Word} (h : ConsumerPresented s beats) :
    s.consumerIdle = true ∧ s.cTaken ++ s.cPort = beats := by
  obtain ⟨hidle, htaken, hport⟩ := h
  exact ⟨hidle, by rw [htaken, hport, List.nil_append]⟩

/-- While a response is undelivered, `C` has neither a snapshot nor a `FRAME` in progress. -/
theorem State.Inv.no_command_of_response {s : State} (h : s.Inv) (hr : s.rPort ≠ []) :
    s.snapshotting = false ∧ s.frameDt = none := by
  constructor
  · exact Bool.eq_false_iff.2 fun hs => hr (h.rPort_busy (.inl hs))
  · exact by_contra fun hf => hr (h.rPort_busy (.inr hf))

theorem cReady_eq_false_of_response {s : State} (hr : s.rPort ≠ []) : s.cReady = false := by
  refine Bool.eq_false_iff.2 fun hidle => ?_
  obtain ⟨-, -, hnil⟩ := (consumerIdle_iff s).1 hidle
  exact hr hnil

theorem acceptResponse_of_nil {s : State} (h : s.rPort = []) : s.acceptResponse = s := by
  rw [State.acceptResponse, h, List.tail_nil, ← h]

theorem acceptResponse_of_cons {s : State} {oldest : Response} {others : List Response} (h : s.rPort = oldest :: others) :
    s.acceptResponse = { s with rPort := others } := by
  rw [State.acceptResponse, h, List.tail_cons]

end Sys2Proof.Machine
end

section
/-! PROOFS. The statements about the commands' encoding, fetching a command and the ports (30_encoding.md). -/

namespace Sys2Proof.Proofs
open Sys2Proof.Machine

/-- Settles O1, command by command. -/
theorem decodeUndoesEncode : Obligations.DecodeUndoesEncode := by
  unfold Obligations.DecodeUndoesEncode
  exact fun _ rest h => decode_encode h rest

/-- Settles O2: beats that decode at all begin with an encoding, and decoding that gives its command back. -/
theorem decodedBeatsAreTheEncoding : Obligations.DecodedBeatsAreTheEncoding := by
  unfold Obligations.DecodedBeatsAreTheEncoding
  intro p beats i rest h
  rcases beats_cases p beats with ⟨j, rest', hwf, rfl, rfl⟩ | hinc | ⟨w, hres⟩
  · cases (decode_encode hwf rest').symm.trans h
    exact ⟨hwf, rfl, rfl⟩
  · cases hinc.symm.trans h
  · cases hres.symm.trans h

/-- Settles O3: the words written out are the encodings of the commands. -/
theorem opcodeMapWordsDecode : Obligations.OpcodeMapWordsDecode := by
  unfold Obligations.OpcodeMapWordsDecode
  exact ⟨decode_encode (i := .write 2) (by decide) [], decode_encode (i := .snapshot) trivial [],
    decode_encode (i := .window) trivial [], decode_encode (i := .fft) trivial [],
    decode_encode (i := .bucketize) trivial [], decode_encode (i := .advance 0x3C888889#32) trivial [],
    decode_encode (i := .frame 0x3C888889#32) trivial [], decode_encode (i := .bcount) trivial [],
    decode_encode (i := .logpow 0x40400000#32 0x40800000#32) trivial [], decode_encode (i := .rdbin 37) (by decide) []⟩

/-- Settles O4: a word outside the port's rows decodes as reserved, and the fetch refuses it. -/
theorem reservedWordsAreRefused : Obligations.ReservedWordsAreRefused := by
  unfold Obligations.ReservedWordsAreRefused
  constructor
  · intro s w rest later hl hsch hp hop
    have hd : decode .producer (w :: rest) = .reserved w := by
      rcases producer_word_cases w with ⟨count, hc, rfl⟩ | hr
      · exact absurd (commandWord_and_opcode (by decide) hc) hop
      · exact hr rest
    obtain ⟨hidle, hbeats⟩ := hp.fetches
    exact (step_cons hl hsch).trans (handle_producer_reserved (s := { s with schedule := later }) hidle (hbeats ▸ hd))
  · intro s w rest later hl hsch hp hplain hop
    have hd : decode .consumer (w :: rest) = .reserved w := by
      rcases consumer_word_cases w with ⟨j, hj, rfl⟩ | ⟨op, hlo, hhi, rfl⟩ | hr
      · exact absurd (commandWord_and_opcode (by decide) hj) hop
      · exact absurd (by interval_cases op <;> decide) hplain
      · exact hr rest
    obtain ⟨hidle, hbeats⟩ := hp.fetches
    exact (step_cons hl hsch).trans (handle_consumer_reserved (s := { s with schedule := later }) hidle (hbeats ▸ hd))

/-- Settles O48: the listed event is the agent's step, and an idle agent executes what it fetches. -/
theorem stepRunsTheDecodedCommand : Obligations.StepRunsTheDecodedCommand := by
  unfold Obligations.StepRunsTheDecodedCommand
  constructor
  · intro s later i rest hl hsch hidle hd
    exact (step_cons hl hsch).trans (handle_consumer_done (s := { s with schedule := later }) hidle hd)
  · intro s later i rest hl hsch hidle hd
    exact (step_cons hl hsch).trans (handle_producer_done (s := { s with schedule := later }) hidle hd)

/-- Settles O49: neither agent has what it would go on with. -/
theorem shortPayloadWaits : Obligations.ShortPayloadWaits := by
  unfold Obligations.ShortPayloadWaits
  constructor
  · intro s later hl hsch hidle hd
    exact (step_cons hl hsch).trans (handle_consumer_incomplete (s := { s with schedule := later }) hidle hd)
  · intro s later hl hsch hbusy hshort
    rw [step_cons hl hsch, handle_producer_busy (s := { s with schedule := later }) hbusy]
    rcases receiveFrame_cases { s with schedule := later } with ⟨l, r, rest, hx, -⟩ | ⟨-, hw⟩
    · have hx : s.pTaken ++ s.pPort = l :: r :: rest := hx
      simp [hx] at hshort
    · rw [hw]

/-- Settles O50: the response holds `C` because no command is in progress; each act of the host is its event's own meaning. -/
theorem undrainedResponseHoldsOnlyTheConsumer : Obligations.UndrainedResponseHoldsOnlyTheConsumer := by
  unfold Obligations.UndrainedResponseHoldsOnlyTheConsumer
  refine ⟨fun s later h hr => ⟨cReady_eq_false_of_response hr, fun hsch => ?_, fun count rest hsch hp hc => ?_⟩,
    fun s later beat hl => ⟨fun hsch => step_cons hl hsch, fun hsch => step_cons hl hsch⟩, fun s later hl hsch => ?_⟩
  · obtain ⟨hs, hf⟩ := h.no_command_of_response hr
    exact (step_cons h.legal hsch).trans (handle_consumer_held (s := { s with schedule := later }) hs hf hr)
  · obtain ⟨hidle, hbeats⟩ := hp.fetches
    have hd : decode .producer (s.pTaken ++ s.pPort) = .done (.write count) rest :=
      hbeats ▸ decode_encode (i := .write count) hc rest
    exact ⟨_, (step_cons h.legal hsch).trans (handle_producer_done (s := { s with schedule := later }) hidle hd), rfl⟩
  · have hstep : step s = .next ({ s with schedule := later } : State).acceptResponse := step_cons hl hsch
    constructor
    · intro oldest others hr
      exact ⟨by rw [State.rValid, hr]; rfl, congrArg List.head? hr,
        by rw [hstep, acceptResponse_of_cons (s := { s with schedule := later }) hr]⟩
    · intro hr
      exact ⟨by rw [State.rValid, hr]; rfl, by rw [hstep, acceptResponse_of_nil (s := { s with schedule := later }) hr]⟩

end Sys2Proof.Proofs
end

section
/-! SUPPORT. What the downmix selects (40_sample_ring.md R115). -/

namespace Sys2Proof.Machine

/-- `fabs` clears bit 31 and keeps the bits below it. -/
theorem toNat_fabs (w : Word) : (fabs w).toNat = w.toNat % 2 ^ 31 :=
  (BitVec.toNat_and w 0x7FFFFFFF#32).trans (Nat.and_two_pow_sub_one_eq_mod w.toNat 31)

/-- A pattern is a NaN when its exponent bits are all ones and its fraction is not zero. -/
theorem ofWord_eq_nan_iff (w : Word) : Fp.ofWord w = .nan ↔ w.toNat / 2 ^ 23 % 2 ^ 8 = 255 ∧ w.toNat % 2 ^ 23 ≠ 0 := by
  simp only [Fp.ofWord]
  split
  · split <;> simp_all
  · split <;> simp_all

/-- Clearing the sign makes no NaN and removes none. -/
theorem ofWord_fabs_eq_nan_iff (w : Word) : Fp.ofWord (fabs w) = .nan ↔ Fp.ofWord w = .nan := by
  have hexp : (fabs w).toNat / 2 ^ 23 % 2 ^ 8 = w.toNat / 2 ^ 23 % 2 ^ 8 := by rw [toNat_fabs]; omega
  have hfrac : (fabs w).toNat % 2 ^ 23 = w.toNat % 2 ^ 23 := by rw [toNat_fabs]; omega
  rw [ofWord_eq_nan_iff, ofWord_eq_nan_iff, hexp, hfrac]

/-- `ABS_MAX` is `ALG_MAX` on the absolute values. -/
theorem downmix_absMax (l r : Word) : downmix .absMax l r = downmix .algMax (fabs l) (fabs r) := rfl

/-- Where the left channel is not greater, the right one is selected. -/
theorem downmix_algMax_of_not_fgt {l r : Word} (h : fgt l r = false) : downmix .algMax l r = r := by
  simp only [downmix, h, Bool.false_eq_true, if_false]

/-- A NaN in either channel gives the right one. -/
theorem downmix_algMax_of_nan {l r : Word} (h : Fp.ofWord l = .nan ∨ Fp.ofWord r = .nan) : downmix .algMax l r = r :=
  downmix_algMax_of_not_fgt ((fgt_eq_false_iff l r).2 fun hl hr => (h.elim hl hr).elim)

end Sys2Proof.Machine
end

section
/-! SUPPORT. The frame step of a `WRITE` (40_sample_ring.md R110, R112): what it stores, what it discards, what it leaves alone. -/

namespace Sys2Proof.Machine

/-- Store or discard, one frame fewer is left to keep. -/
@[simp] theorem frameStep_pKeep (s : State) (l r : Word) : (s.frameStep l r).pKeep = s.pKeep - 1 := by
  by_cases hk : 0 < s.pKeep
  · rw [frameStep_keep s l r hk]
  · rw [frameStep_discard s l r (Nat.eq_zero_of_not_pos hk)]
    show s.pKeep = s.pKeep - 1
    omega

/-- While frames are kept, the frame step is the store step of the downmixed sample on `HEAD` and on every space. -/
theorem frameStep_stores {s : State} (l r : Word) (h : 0 < s.pKeep) :
    (s.frameStep l r).head = (s.storeSample (downmix s.cfg.downmix l r)).head ∧
      ∀ sp, SameWords (s.storeSample (downmix s.cfg.downmix l r)) (s.frameStep l r) sp := by
  rw [frameStep_keep s l r h]
  exact ⟨rfl, fun sp => read_congr (by cases sp <;> rfl) rfl⟩

/-- Once no frame is kept any more, the frame step leaves `HEAD` and every space alone. -/
theorem frameStep_discards {s : State} (l r : Word) (h : s.pKeep = 0) :
    (s.frameStep l r).head = s.head ∧ ∀ sp, SameWords s (s.frameStep l r) sp := by
  rw [frameStep_discard s l r h]
  exact ⟨rfl, fun sp => read_congr (by cases sp <;> rfl) rfl⟩

/-- The frame step leaves every space but `RING` alone. -/
theorem frameStep_read_space (s : State) (l r : Word) {sp : Space} (h : sp ≠ .ring) : SameWords s (s.frameStep l r) sp := by
  intro i
  by_cases hk : 0 < s.pKeep
  · obtain ⟨-, hread⟩ := frameStep_stores l r hk
    exact (hread sp i).trans (storeSample_read_space s _ h i)
  · obtain ⟨-, hread⟩ := frameStep_discards l r (Nat.eq_zero_of_not_pos hk)
    exact hread sp i

/-- With a whole frame at the port, a step of `P` inside a `WRITE` is the frame step on it. -/
theorem step_receives_frame {s : State} {later : List Event} {l r : Word} {rest : List Word} (hl : s.cfg.legal = true)
    (hsch : s.schedule = .producer :: later) (hleft : 0 < s.pLeft) (hx : s.pTaken ++ s.pPort = l :: r :: rest) :
    step s = .next (({ s with schedule := later, pTaken := [], pPort := rest } : State).frameStep l r) := by
  rw [step_cons hl hsch, handle_producer_busy (s := { s with schedule := later }) hleft, State.receiveFrame, hx, takeFrame]

end Sys2Proof.Machine
end

section
/-! SUPPORT. A whole `WRITE` (40_sample_ring.md R110, R111): its frame steps one after another. -/

namespace Sys2Proof.Machine

/-- The state inside a `WRITE`: these frames still come, the first `keep` of them to be stored, then the other beats, and `P` steps
once for each frame before the later events. -/
def State.receiving (s : State) (keep : Nat) (frames : List (Word × Word)) (rest : List Word) (later : List Event) : State :=
  { s with
    pLeft := frames.length, pKeep := keep, pTaken := [], pPort := framePayload frames ++ rest
    schedule := List.replicate frames.length .producer ++ later }

/-- A step of `P` receives the first frame. -/
theorem step_receiving {s : State} (hl : s.cfg.legal = true) (keep : Nat) (l r : Word) (frames : List (Word × Word))
    (rest : List Word) (later : List Event) :
    step (s.receiving keep ((l, r) :: frames) rest later) =
      .next (({ s.receiving keep frames rest later with pLeft := frames.length + 1 } : State).frameStep l r) :=
  step_receives_frame (s := s.receiving keep ((l, r) :: frames) rest later) hl rfl (Nat.succ_pos _) rfl

/-- A frame that is kept is stored. -/
theorem step_receiving_keep {s : State} (hl : s.cfg.legal = true) (keep : Nat) (l r : Word) (frames : List (Word × Word))
    (rest : List Word) (later : List Event) :
    step (s.receiving (keep + 1) ((l, r) :: frames) rest later) =
      .next ((s.storeSample (downmix s.cfg.downmix l r)).receiving keep frames rest later) := by
  rw [step_receiving hl, frameStep_keep _ _ _ (Nat.succ_pos keep)]
  rfl

/-- Any other frame changes nothing but the count of frames left. -/
theorem step_receiving_discard {s : State} (hl : s.cfg.legal = true) (l r : Word) (frames : List (Word × Word))
    (rest : List Word) (later : List Event) :
    step (s.receiving 0 ((l, r) :: frames) rest later) = .next (s.receiving 0 frames rest later) := by
  rw [step_receiving hl, frameStep_discard _ _ _ rfl]
  rfl

/-- The frame steps store the first `keep` frames, downmixed and in order, and consume the payload. -/
theorem run_receiving {s : State} (hl : s.cfg.legal = true) {keep : Nat} {frames : List (Word × Word)}
    (hk : keep ≤ frames.length) (rest : List Word) (later : List Event) :
    Host.Core.run Sys2Proof.core frames.length (s.receiving keep frames rest later) =
      .next ((storeAll s ((frames.take keep).map fun f => downmix s.cfg.downmix f.1 f.2)).receiving 0 [] rest later) := by
  induction frames generalizing s keep with
  | nil =>
    obtain rfl := Nat.le_zero.1 hk
    rfl
  | cons f frames ih =>
    obtain ⟨l, r⟩ := f
    cases keep with
    | zero => exact (run_succ (step_receiving_discard hl l r frames rest later)).trans (ih hl (Nat.zero_le _))
    | succ keep =>
      exact (run_succ (step_receiving_keep hl keep l r frames rest later)).trans
        (ih (s := s.storeSample (downmix s.cfg.downmix l r)) hl (Nat.le_of_succ_le_succ hk))

/-- The header step of a `WRITE` presented with its payload: the first frames are to be kept, `N - 1` of them at most. -/
theorem step_begins_write {s : State} {frames : List (Word × Word)} {rest : List Word} {later : List Event}
    (hl : s.cfg.legal = true) (hc : frames.length < immLimit)
    (hp : ProducerPresented s (encode (.write frames.length) ++ framePayload frames ++ rest))
    (hsch : s.schedule = .producer :: (List.replicate frames.length .producer ++ later)) :
    step s = .next (s.receiving (keptFrames s.cfg frames.length) frames rest later) := by
  obtain ⟨hidle, hbeats⟩ := hp.fetches
  have hd : decode .producer (s.pTaken ++ s.pPort) = .done (.write frames.length) (framePayload frames ++ rest) := by
    rw [hbeats, List.append_assoc]
    exact decode_encode (i := .write frames.length) hc _
  exact (step_cons hl hsch).trans (handle_producer_done (s := { s with schedule := _ ++ _ }) hidle hd)

end Sys2Proof.Machine
end

section
/-! SUPPORT. Snapshots of stored samples (40_sample_ring.md R113, R116). -/

namespace Sys2Proof.Machine

/-- A store step keeps the invariant. -/
theorem inv_storeSample {s : State} (h : s.Inv) (v : Word) : (s.storeSample v).Inv := by
  obtain ⟨hl, hC, hm, hp, hc⟩ := (inv_iff s).1 h
  exact (inv_iff _).2 ⟨hl, hC, hm.storeSample hp.head_lt v,
    ⟨Nat.mod_lt _ (n_pos _), hp.pLeft_lt, hp.pKeep_lt, hp.pKeep_le, hp.pTaken_idle, hp.pTaken_short⟩,
    hc.congr rfl rfl rfl rfl rfl rfl⟩

/-- Store steps keep the invariant, and leave `C`, what it is presented and the schedule alone. -/
theorem storeAll_keeps_presented {s : State} {beats : List Word} (h : s.Inv) (hp : ConsumerPresented s beats) (vs : List Word) :
    (storeAll s vs).Inv ∧ ConsumerPresented (storeAll s vs) beats ∧ (storeAll s vs).schedule = s.schedule := by
  induction vs generalizing s with
  | nil => exact ⟨h, hp, rfl⟩
  | cons v rest ih => exact ih (inv_storeSample h v) hp

/-- The slot that a snapshot at the cursor `h` reads at index `k mod N` is the one `k` behind the cursor. -/
theorem slot_of_age {n k : Nat} (h : Nat) (hkn : k ≤ n) : (h + n - k % n) % n = (h + (n - k)) % n := by
  rcases Nat.lt_or_eq_of_le hkn with hlt | rfl
  · rw [Nat.mod_eq_of_lt hlt, Nat.add_sub_assoc hkn]
  · rw [Nat.mod_self, Nat.sub_self, Nat.sub_zero, Nat.add_mod_right, Nat.add_zero]

/-- From a ring of zeros, the slot that a snapshot reads at index `k mod N` holds the `k`-th most recent sample. -/
theorem storeAll_read_age {s : State} (hring : s.ring = []) (h : s.head < s.cfg.n) (vs : List Word) {k : Nat} (hk : 1 ≤ k)
    (hkn : k ≤ s.cfg.n) :
    (storeAll s vs).read .ring (((storeAll s vs).head + s.cfg.n - k % s.cfg.n) % s.cfg.n) = (vs.reverse[k - 1]?).getD 0#32 := by
  obtain ⟨k, rfl⟩ := Nat.exists_eq_add_of_le' hk
  rw [slot_of_age _ hkn]
  exact storeAll_read_behind hring h vs hkn

end Sys2Proof.Machine
end

section
/-! PROOFS. The statements about the ring and the snapshot (40_sample_ring.md). -/

namespace Sys2Proof.Proofs
open Sys2Proof.Machine

/-- Settles O17: the header step sets the two counts and nothing else. -/
theorem writeHeaderSetsTheCounts : Obligations.WriteHeaderSetsTheCounts := by
  unfold Obligations.WriteHeaderSetsTheCounts
  intro count s
  refine ⟨{ s with pLeft := count, pKeep := keptFrames s.cfg count }, rfl, rfl, rfl,
    fun sp => read_congr (by cases sp <;> rfl) rfl, ?_⟩
  simp [SameCommandPorts, SameBuild]

/-- Settles O18: a NaN or a tie leaves the left channel not greater, and `fabs` keeps NaNs. -/
theorem downmixSelectsAnOperand : Obligations.DownmixSelectsAnOperand := by
  unfold Obligations.DownmixSelectsAnOperand
  refine fun l r => ⟨rfl, downmix_absMax l r, fun hnan => ⟨downmix_algMax_of_nan hnan, ?_⟩, fun hkey => ?_⟩
  · exact (downmix_absMax l r).trans
      (downmix_algMax_of_nan (hnan.imp (ofWord_fabs_eq_nan_iff l).2 (ofWord_fabs_eq_nan_iff r).2))
  · exact downmix_algMax_of_not_fgt ((fgt_eq_false_iff l r).2 fun _ _ => hkey.le)

/-- Settles O19, by whether the frame is kept. -/
theorem frameStepStoresOrDiscards : Obligations.FrameStepStoresOrDiscards := by
  unfold Obligations.FrameStepStoresOrDiscards
  intro s later l r rest h hsch hleft hx
  refine ⟨_, step_receives_frame h.legal hsch hleft hx, by simp, by simp, by simp, by simp, fun hk => ?_, fun hk => ?_,
    fun sp hsp i => ?_, by simp [SameConsumerPart], by simp⟩
  · obtain ⟨hhead, hread⟩ := frameStep_stores (s := { s with schedule := later, pTaken := [], pPort := rest }) l r hk
    exact ⟨hhead, (hread .ring _).trans (storeSample_read_head _ _ (h.rising .ring)),
      fun i hi => (hread .ring i).trans (storeSample_read_ne _ _ hi)⟩
  · obtain ⟨hhead, hread⟩ := frameStep_discards (s := { s with schedule := later, pTaken := [], pPort := rest }) l r hk
    exact ⟨hhead, hread .ring⟩
  · exact (frameStep_read_space _ l r hsp i).trans (read_congr (by cases sp <;> rfl) rfl i)

/-- Settles O20: the header step, then the frame steps by induction over the frames. -/
theorem writeStoresTheFirstFrames : Obligations.WriteStoresTheFirstFrames := by
  unfold Obligations.WriteStoresTheFirstFrames
  intro s frames rest later h hc hp hsch
  rw [Nat.add_comm] at hsch ⊢
  exact (run_succ (step_begins_write h.legal hc hp hsch)).trans (run_receiving h.legal (Nat.min_le_left _ _) rest later)

/-- Settles O22: the latch step sets the two registers and nothing else. -/
theorem snapshotLatchesTheCursor : Obligations.SnapshotLatchesTheCursor := by
  unfold Obligations.SnapshotLatchesTheCursor
  intro s
  refine ⟨s.latch, rfl, rfl, rfl, fun sp => read_congr (by cases sp <;> rfl) rfl, ?_⟩
  simp [SameCommandPorts, SameBuild]

/-- Settles O23: a snapshot in progress makes the step of `C` a read step. -/
theorem readStepCopiesOneSlot : Obligations.ReadStepCopiesOneSlot := by
  unfold Obligations.ReadStepCopiesOneSlot
  intro s later h hsch hI
  have hstep : step s = .next ({ s with schedule := later } : State).readSlot :=
    (step_cons h.legal hsch).trans (handle_consumer_snapshotting (decide_eq_true hI))
  refine ⟨_, hstep, rfl, rfl, ?_, fun i hi => readSlot_read_ne { s with schedule := later } hi, fun sp hsp i => ?_, ?_⟩
  · rw [← snapSlot_eq s hI]
    exact readSlot_read_sI { s with schedule := later } (h.rising .snap)
  · exact (readSlot_read_space _ hsp i).trans (read_congr (by cases sp <;> rfl) rfl i)
  · simp [SameProducerPart, SameCommandPorts]

/-- Settles O25: the quiescent snapshot (O24) of a ring that holds the most recent samples (O21). -/
theorem snapshotHoldsTheMostRecentSamples : Obligations.SnapshotHoldsTheMostRecentSamples := by
  unfold Obligations.SnapshotHoldsTheMostRecentSamples
  intro s vs later h hring hp hsch
  obtain ⟨hinv, hpres, hsame⟩ := storeAll_keeps_presented h hp vs
  have hn : (storeAll s vs).synchronise.cfg.n = s.cfg.n := congrArg Config.n (storeAll_cfg s vs)
  have hsch' : (storeAll s vs).synchronise.schedule = .consumer :: (List.replicate s.cfg.n .consumer ++ later) := by
    rw [synchronise_schedule, hsame, hsch, Nat.add_comm]
    rfl
  obtain ⟨t, hrun, hcopied, -⟩ := quiescentSnapshotIsExact _ .snapshot [] _ later (inv_synchronise hinv) rfl (.inl rfl) hpres
    hsch' (by rw [List.count_replicate_self, hn]) (by simp) (by simp)
  rw [List.length_replicate] at hrun
  have hage : ∀ k, 1 ≤ k → k ≤ s.cfg.n → t.read .snap (k % s.cfg.n) = (vs.reverse[k - 1]?).getD 0#32 := by
    intro k hk hkn
    rw [hcopied _ (hn ▸ Nat.mod_lt _ (n_pos _)), hn, ← storeAll_read_age hring h.head_lt vs hk hkn]
    exact read_congr rfl rfl _
  refine ⟨t, hrun, fun k hk hkn => ?_, ?_⟩
  · rw [← hage k hk hkn.le, Nat.mod_eq_of_lt hkn]
  · rw [← hage s.cfg.n (n_pos _) le_rfl, Nat.mod_self]

end Sys2Proof.Proofs
end

section
/-! SUPPORT. The window table (41_hann_window.md R131): what the statements about `HANN` and `WINDOW` need of it, for the reference
contents and for any legal ones. -/

namespace Sys2Proof.Machine

namespace Fp

/-- `+0.0` packs to the zero pattern, whatever the draw. -/
@[simp] theorem toWord_zero (q : BitVec 23) : zero.toWord q = 0#32 := (by decide : BitVec.ofNat 32 (signBit false + magBits 0) = 0#32)

theorem round_false_zero (den : Nat) : round false 0 den = zero := by
  rw [round, nearest_zero, ofMag, if_pos (by norm_num [overflow]), zero]

theorem round_ne_nan (neg : Bool) (num den : Nat) : round neg num den ≠ nan := by
  unfold round ofMag
  split <;> exact nofun

/-- Rounding a number of at least one unit and at most `2^200` gives a positive finite value. -/
theorem round_pos_fin {num den : Nat} (hd : 0 < den) (hlo : den ≤ num) (hhi : num / den ≤ 2 ^ 200) :
    ∃ m, 0 < m ∧ round false num den = .fin false m := by
  have hlt : nearest num den < overflow := by
    have := nearest_le num den
    unfold overflow
    omega
  exact ⟨_, nearest_pos hd hlo, if_pos hlt⟩

theorem ne_nan_of_atMostOne {x : Fp} (h : x.atMostOne = true) : x ≠ nan := by
  rintro rfl
  cases h

/-- A value of magnitude at most 1 that stands above zero is positive and finite. -/
theorem pos_fin_of_atMostOne {x : Fp} (h : x.atMostOne = true) (hkey : 0 < x.key) : ∃ m, 0 < m ∧ x = .fin false m := by
  cases x with
  | nan => cases h
  | inf neg => exact absurd h (by cases neg <;> decide)
  | fin neg m =>
    cases neg
    case false => exact ⟨m, by simpa [key, signed] using hkey, rfl⟩
    case true =>
      simp only [key, signed, if_true] at hkey
      omega

end Fp

/-- What is used of a window table: H1, H2, and of H3 that every entry is a number and every inner one positive and finite. -/
structure WindowShape (c : Config) (t : Nat → Fp) : Prop where
  first : t 0 = .zero
  last : t (c.n - 1) = .zero
  mirror : ∀ i, i < c.n → t i = t (c.n - 1 - i)
  number : ∀ i, i < c.n → t i ≠ .nan
  inner : 4 ≤ c.n → ∀ i, 0 < i → i < c.n - 1 → ∃ m, 0 < m ∧ t i = .fin false m

/-- Legal contents have the shape: it is a part of H1 to H3. -/
theorem windowShape_of_legal {c : Config} {t : Nat → Fp} (h : hannLegal c t = true) : WindowShape c t := by
  obtain ⟨⟨⟨⟨⟨hfirst, hlast⟩, hmirror⟩, hunit⟩, -⟩, -⟩ := (hannLegal_iff c t).1 h
  refine ⟨hfirst, hlast, hmirror, fun i hi => Fp.ne_nan_of_atMostOne (hunit i hi).1, fun hn i hpos hi => ?_⟩
  obtain ⟨hone, -, hkey⟩ := hunit i (by omega)
  exact Fp.pos_fin_of_atMostOne hone (hkey hn hpos hi)

/-! ## The reference table -/

/-- An entry depends only on how far its index lies from the nearer end. -/
theorem hannRounded_eq_of_min_eq {c : Config} {i k : Nat} (h : min i (c.n - 1 - i) = min k (c.n - 1 - k)) :
    hannRounded c i = hannRounded c k := by
  rw [hannRounded, hannRounded, h]

theorem hannRounded_mirror {c : Config} {i : Nat} (hi : i < c.n) : hannRounded c i = hannRounded c (c.n - 1 - i) :=
  hannRounded_eq_of_min_eq (by omega)

theorem fxSin_zero (b : Nat) : fxSin 0 b = 0 := by
  refine Nat.le_zero.1 ((sinSeries_le _ _ _ _).trans_eq ?_)
  simp

theorem hannRounded_first (c : Config) : hannRounded c 0 = .zero := by
  simp only [hannRounded, Nat.zero_min, Nat.mul_zero, fxSin_zero, Nat.zero_div, Fp.round_false_zero]

/-- The square of a sine of the reference table is at least one unit of binary32 and at most 4. -/
theorem fxSin_sq_bounds {a b : Nat} (h : a ≤ b) (ha : 0 < a) (hb : b ≤ 2 ^ 20) :
    fxUnit ≤ fxSin a b * fxSin a b / fxOne ∧ fxSin a b * fxSin a b / fxOne ≤ 4 * fxOne := by
  have hlo := fxSin_ge h ha hb
  have hhi : fxSin a b ≤ 2 * fxOne := (fxSin_le h).trans (by decide)
  constructor
  · rw [Nat.le_div_iff_mul_le (by decide)]
    exact (by decide : fxUnit * fxOne ≤ 2 ^ 170 * 2 ^ 170).trans (Nat.mul_le_mul hlo hlo)
  · exact Nat.div_le_of_le_mul ((Nat.mul_le_mul hhi hhi).trans_eq (by ring))

theorem hannRounded_inner {c : Config} {i : Nat} (hpos : 0 < i) (hi : i < c.n - 1) :
    ∃ m, 0 < m ∧ hannRounded c i = .fin false m := by
  have hn := n_le c
  obtain ⟨hlo, hhi⟩ := fxSin_sq_bounds (a := 2 * min i (c.n - 1 - i)) (b := c.n - 1) (by omega) (by omega) (by omega)
  exact Fp.round_pos_fin (by decide) hlo ((Nat.div_le_div_right hhi).trans (by decide))

theorem windowShape_hannRounded (c : Config) : WindowShape c (hannRounded c) where
  first := hannRounded_first c
  last := (hannRounded_eq_of_min_eq (by omega)).trans (hannRounded_first c)
  mirror _ hi := hannRounded_mirror hi
  number _ _ := Fp.round_ne_nan _ _ _
  inner _ _ hpos hi := hannRounded_inner hpos hi

/-! ## The table of a build -/

/-- A build holds the reference table, or the free one when that is legal. -/
theorem hann_eq_rounded_or_legal (c : Config) :
    hann c = hannRounded c ∨ hann c = hannFree c ∧ hannLegal c (hannFree c) = true := by
  unfold hann
  cases c.hannRom
  case reference => exact .inl rfl
  case other =>
    cases hlegal : hannLegal c (hannFree c)
    case false => exact .inl rfl
    case true => exact .inr ⟨rfl, rfl⟩

theorem windowShape_hann (c : Config) : WindowShape c (hann c) := by
  rcases hann_eq_rounded_or_legal c with h | ⟨h, hlegal⟩
  · exact h ▸ windowShape_hannRounded c
  · exact h ▸ windowShape_of_legal hlegal

theorem hannWord_first (c : Config) : hannWord c 0 = 0#32 := by
  rw [hannWord, (windowShape_hann c).first, Fp.toWord_zero]

theorem hannWord_last (c : Config) : hannWord c (c.n - 1) = 0#32 := by
  rw [hannWord, (windowShape_hann c).last, Fp.toWord_zero]

theorem hannWord_mirror {c : Config} {i : Nat} (hi : i < c.n) : hannWord c i = hannWord c (c.n - 1 - i) :=
  congrArg (Fp.toWord 0) ((windowShape_hann c).mirror i hi)

theorem ofWord_hannWord_ne_nan {c : Config} {i : Nat} (hi : i < c.n) : Fp.ofWord (hannWord c i) ≠ .nan := by
  rw [ofWord_hannWord]
  exact (windowShape_hann c).number i hi

/-- What `WINDOW` leaves in `FRM`, on patterns. -/
theorem windowStage_read_fmul (s : State) {i : Nat} (hi : i < s.cfg.n) :
    s.windowStage.read .frm i = fmul (s.nanDraw i) (s.read .snap i) (hannWord s.cfg i) := by
  rw [windowStage_read s hi, fmul, ofWord_hannWord, State.readFp]

end Sys2Proof.Machine
end

section
/-! PROOFS. The statements about the window (41_hann_window.md). -/

namespace Sys2Proof.Proofs
open Sys2Proof.Machine

/-- Settles O10: the reference table and every legal one have the shape. -/
theorem hannTableIsSymmetricWithZeroEnds : Obligations.HannTableIsSymmetricWithZeroEnds := by
  unfold Obligations.HannTableIsSymmetricWithZeroEnds
  refine fun c => ⟨hannWord_first c, hannWord_last c, fun i hi => hannWord_mirror hi, fun i hn hpos hi => ?_⟩
  rw [ofWord_hannWord]
  exact (windowShape_hann c).inner hn i hpos hi

/-- Settles O26: the stage writes `FRM` as a whole and draws anew. -/
theorem windowMultipliesByTheTable : Obligations.WindowMultipliesByTheTable := by
  unfold Obligations.WindowMultipliesByTheTable
  intro s
  refine ⟨s.windowStage, rfl, fun i hi => windowStage_read_fmul s hi, fun sp hsp => windowStage_read_space s hsp, ?_⟩
  simp [SameRegisters, SameCommandPorts, SameBuild]

/-- Settles O27: the product with 1.0 is exact (O8), so `FRM` is the table, and the table has its shape (O10). -/
theorem windowOfOnesIsTheTable : Obligations.WindowOfOnesIsTheTable := by
  unfold Obligations.WindowOfOnesIsTheTable
  intro s hones
  have hn := n_pos s.cfg
  have hfrm : ∀ i, i < s.cfg.n → s.windowStage.read .frm i = hannWord s.cfg i := fun i hi => by
    rw [windowStage_read_fmul s hi, hones i hi]
    exact (unitProductAndQuotientAreExact _ _).1 (ofWord_hannWord_ne_nan hi)
  refine ⟨s.windowStage, rfl, fun i hi => ⟨hfrm i hi, ?_⟩, ?_, ?_⟩
  · rw [hfrm i hi, hfrm _ (by omega), hannWord_mirror hi]
  · rw [hfrm 0 hn, hannWord_first]
  · rw [hfrm _ (by omega), hannWord_last]

end Sys2Proof.Proofs
end

section
/-! SUPPORT. The twiddle table (42_fft.md R141): what the statements about `TWID` and `FFT` need of it, for the reference contents
and for any legal ones. -/

namespace Sys2Proof.Machine

/-! ## Rounded sines -/

/-- Up to a right angle a rounded sine is finite. -/
theorem sinFp_eq_fin (neg : Bool) {a b : Nat} (h : a ≤ b) : sinFp neg a b = .fin neg (Fp.nearest (fxSin a b) fxUnit) := by
  have hquot : fxSin a b / fxUnit ≤ 2 ^ 200 := (Nat.div_le_div_right (fxSin_le h)).trans (by decide)
  have hlt : Fp.nearest (fxSin a b) fxUnit < Fp.overflow := by
    have := nearest_le (fxSin a b) fxUnit
    unfold Fp.overflow
    omega
  exact if_pos hlt

/-- The rounded sine of a nonzero part of a right angle, at the sizes of CORE, is not zero. -/
theorem nearest_fxSin_pos {a b : Nat} (h : a ≤ b) (ha : 0 < a) (hb : b ≤ 2 ^ 20) : 0 < Fp.nearest (fxSin a b) fxUnit :=
  nearest_pos (by decide) ((by decide : fxUnit ≤ 2 ^ 170).trans (fxSin_ge h ha hb))

theorem sinFp_neg (neg : Bool) (a b : Nat) : (sinFp neg a b).neg = sinFp (!neg) a b := Fp.neg_round _ _ _

theorem sinFp_zero (b : Nat) : sinFp false 0 b = .zero := by
  rw [sinFp, fxSin_zero, Fp.round_false_zero]

/-- The sine of a right angle rounds to 1.0. -/
theorem sinFp_right {b : Nat} (hb : 0 < b) : sinFp false b b = .one := by
  have hangle : fxPi * b / (2 * b) = fxPi * 1 / (2 * 1) := by
    rw [Nat.mul_div_mul_right _ _ hb, Nat.mul_one, Nat.mul_one]
  have hsin : fxSin b b = fxSin 1 1 := by simp only [fxSin, hangle]
  rw [sinFp, hsin]
  decide

/-! ## The reference table -/

theorem twidCos_low {c : Config} {m : Nat} (h : 4 * m ≤ c.n) : twidCos c m = sinFp false (c.n - 4 * m) c.n := if_pos h

theorem twidCos_high {c : Config} {m : Nat} (h : c.n < 4 * m) : twidCos c m = sinFp true (4 * m - c.n) c.n :=
  if_neg (Nat.not_le.2 h)

theorem twidSin_low {c : Config} {m : Nat} (hpos : 0 < m) (h : 4 * m ≤ c.n) : twidSin c m = sinFp true (4 * m) c.n := by
  rw [twidSin, if_neg (by omega), if_pos h]

theorem twidSin_high {c : Config} {m : Nat} (h : c.n < 4 * m) : twidSin c m = sinFp true (2 * c.n - 4 * m) c.n := by
  rw [twidSin, if_neg (by omega), if_neg (by omega)]

/-- What is used of a twiddle table: T1, T2, T4, and of T3 that inner entries are finite with a negative imaginary part. -/
structure TwiddleShape (c : Config) (t : Nat → Cpx) : Prop where
  first : t 0 = { re := .one, im := .zero }
  quarter : 4 ≤ c.n → t (c.n / 4) = { re := .zero, im := Fp.one.neg }
  re_fin : ∀ m, 0 < m → m < c.n / 2 → ∃ s k, (t m).re = .fin s k
  im_neg : ∀ m, 0 < m → m < c.n / 2 → ∃ k, 0 < k ∧ (t m).im = .fin true k
  mirror : ∀ m, 0 < m → m < c.n / 4 → t (c.n / 2 - m) = { re := (t m).re.neg, im := (t m).im }
  turn : ∀ m, 0 < m → m < c.n / 4 → t (c.n / 4 + m) = { re := (t m).im, im := (t m).re.neg }

theorem twidRounded_first (c : Config) : twidRounded c 0 = { re := .one, im := .zero } := by
  rw [twidRounded, twidCos_low (by omega), twidSin, if_pos rfl, Nat.mul_zero, Nat.sub_zero, sinFp_right (n_pos c)]

theorem twidRounded_quarter {c : Config} (h : 4 ≤ c.n) : twidRounded c (c.n / 4) = { re := .zero, im := Fp.one.neg } := by
  have hn := n_four c h
  rw [twidRounded, twidCos_low (by omega), twidSin_low (by omega) (by omega), hn, Nat.sub_self, sinFp_zero,
    ← sinFp_right (n_pos c), sinFp_neg]
  rfl

theorem twidCos_fin {c : Config} {m : Nat} (h : m < c.n / 2) : ∃ s k, twidCos c m = .fin s k := by
  rcases Nat.lt_or_ge c.n (4 * m) with hm | hm
  · exact ⟨_, _, (twidCos_high hm).trans (sinFp_eq_fin _ (by omega))⟩
  · exact ⟨_, _, (twidCos_low hm).trans (sinFp_eq_fin _ (by omega))⟩

theorem twidSin_neg {c : Config} {m : Nat} (hpos : 0 < m) (h : m < c.n / 2) : ∃ k, 0 < k ∧ twidSin c m = .fin true k := by
  have hn := n_le c
  rcases Nat.lt_or_ge c.n (4 * m) with hm | hm
  · exact ⟨_, nearest_fxSin_pos (by omega) (by omega) hn, (twidSin_high hm).trans (sinFp_eq_fin _ (by omega))⟩
  · exact ⟨_, nearest_fxSin_pos (by omega) (by omega) hn, (twidSin_low hpos hm).trans (sinFp_eq_fin _ (by omega))⟩

/-- Mirrored in the quarter turn, an entry has the same sines, the cosine's sign changed. -/
theorem twidRounded_mirror {c : Config} {m : Nat} (hpos : 0 < m) (h : m < c.n / 4) :
    twidRounded c (c.n / 2 - m) = { re := (twidRounded c m).re.neg, im := (twidRounded c m).im } := by
  have hn := n_four c (by omega)
  simp only [twidRounded]
  rw [twidCos_high (by omega), twidSin_high (by omega), twidCos_low (by omega), twidSin_low hpos (by omega), sinFp_neg,
    show 4 * (c.n / 2 - m) - c.n = c.n - 4 * m by omega, show 2 * c.n - 4 * (c.n / 2 - m) = 4 * m by omega]
  rfl

/-- A quarter turn on, cosine and sine change places. -/
theorem twidRounded_turn {c : Config} {m : Nat} (hpos : 0 < m) (h : m < c.n / 4) :
    twidRounded c (c.n / 4 + m) = { re := (twidRounded c m).im, im := (twidRounded c m).re.neg } := by
  have hn := n_four c (by omega)
  simp only [twidRounded]
  rw [twidCos_high (by omega), twidSin_high (by omega), twidCos_low (by omega), twidSin_low hpos (by omega), sinFp_neg,
    show 4 * (c.n / 4 + m) - c.n = 4 * m by omega, show 2 * c.n - 4 * (c.n / 4 + m) = c.n - 4 * m by omega]
  rfl

theorem twiddleShape_twidRounded (c : Config) : TwiddleShape c (twidRounded c) where
  first := twidRounded_first c
  quarter := twidRounded_quarter
  re_fin _ _ h := twidCos_fin h
  im_neg _ hpos h := twidSin_neg hpos h
  mirror _ hpos h := twidRounded_mirror hpos h
  turn _ hpos h := twidRounded_turn hpos h

/-! ## The table of a build -/

/-- A value of magnitude at most 1 is finite. -/
theorem Fp.fin_of_atMostOne {x : Fp} (h : x.atMostOne = true) : ∃ s m, x = .fin s m := by
  cases x with
  | nan => cases h
  | inf s => exact absurd h (by cases s <;> decide)
  | fin s m => exact ⟨s, m, rfl⟩

/-- A finite value below zero has the minus sign and a magnitude. -/
theorem Fp.fin_true_of_key_neg {s : Bool} {m : Nat} (h : (Fp.fin s m).key < 0) : 0 < m ∧ s = true := by
  cases s <;> simp [key, signed] at h ⊢ <;> omega

/-- Legal contents have the shape: it is a part of T1 to T4. -/
theorem twiddleShape_of_legal {c : Config} {t : Nat → Cpx} (h : twidLegal c t = true) : TwiddleShape c t := by
  obtain ⟨⟨⟨hfirst, hquarter⟩, hinner⟩, hsym⟩ := (twidLegal_iff c t).1 h
  refine ⟨hfirst, hquarter, fun m hpos hm => Fp.fin_of_atMostOne (hinner m hm hpos).2.1, fun m hpos hm => ?_,
    fun m hpos hm => (hsym m hm hpos (by omega)).1, fun m hpos hm => (hsym m hm hpos (by omega)).2⟩
  obtain ⟨hkey, -, hone⟩ := hinner m hm hpos
  obtain ⟨s, k, hfin⟩ := Fp.fin_of_atMostOne hone
  rw [hfin] at hkey
  obtain ⟨hk, rfl⟩ := Fp.fin_true_of_key_neg hkey
  exact ⟨k, hk, hfin⟩

/-- The choice between the two tables is made for the table as a whole. -/
theorem twid_eq_entryOf (c : Config) : twid c = entryOf c.twidRom (twidLegal c (twidFree c)) (twidFree c) (twidRounded c) := by
  unfold twid entryOf
  cases c.twidRom
  case reference => rfl
  case other => cases twidLegal c (twidFree c) <;> rfl

theorem twiddleShape_twid (c : Config) : TwiddleShape c (twid c) := by
  rw [twid_eq_entryOf]
  exact entryOf_cases _ _ _ _ (twiddleShape_twidRounded c) fun _ hlegal => twiddleShape_of_legal hlegal

end Sys2Proof.Machine
end

section
/-! SUPPORT. The recursion of the transform (42_fft.md R142, R143) for `fftRec`: one level of it, induction over it, and how the
stage stores its entries. -/

namespace Sys2Proof.Machine

variable {c : Config} {x : Nat → Fp}

/-- A real number as a complex value, the base case of the recursion (R143). -/
def Cpx.ofReal (r : Fp) : Cpx := { re := r, im := .zero }

theorem fftRec_zero (base stride : Nat) : fftRec c x 0 base stride = [Cpx.ofReal (x base)] := rfl

/-- One level of the recursion: entry `k` of each half gives entries `k` and `k + 2^level`. -/
theorem fftRec_succ (level base stride : Nat) {k : Nat} (hk : k < 2 ^ level) : ∃ e o,
    (fftRec c x level base (2 * stride))[k]? = some e ∧ (fftRec c x level (base + stride) (2 * stride))[k]? = some o ∧
      (fftRec c x (level + 1) base stride)[k]? = some (e.add ((twid c (k * stride)).mul o)) ∧
      (fftRec c x (level + 1) base stride)[k + 2 ^ level]? = some (e.sub ((twid c (k * stride)).mul o)) := by
  obtain ⟨e, he⟩ := exists_entry (fun v => Cpx.ofReal v) (fun m o => (twid c m).mul o) Cpx.add Cpx.sub x level base (2 * stride) hk
  obtain ⟨o, ho⟩ := exists_entry (fun v => Cpx.ofReal v) (fun m o => (twid c m).mul o) Cpx.add Cpx.sub x level (base + stride)
    (2 * stride) hk
  exact ⟨e, o, he, ho, fftGraph_succ _ _ _ _ _ level base stride hk he ho⟩

/-- Every entry of one level comes from one entry of each half. -/
theorem fftRec_succ_cases {level base stride q : Nat} {z : Cpx} (hz : (fftRec c x (level + 1) base stride)[q]? = some z) :
    ∃ k e o, k < 2 ^ level ∧ (fftRec c x level base (2 * stride))[k]? = some e ∧
      (fftRec c x level (base + stride) (2 * stride))[k]? = some o ∧
      (q = k ∧ z = e.add ((twid c (k * stride)).mul o) ∨ q = k + 2 ^ level ∧ z = e.sub ((twid c (k * stride)).mul o)) := by
  have hq : q < 2 ^ level + 2 ^ level := by
    rw [← Nat.two_mul, ← Nat.pow_succ', ← fftRec_length c x (level + 1) base stride]
    exact (List.getElem?_eq_some_iff.1 hz).1
  rcases Nat.lt_or_ge q (2 ^ level) with hlow | hhigh
  · obtain ⟨e, o, he, ho, hsum, -⟩ := fftRec_succ (c := c) (x := x) level base stride hlow
    exact ⟨q, e, o, hlow, he, ho, .inl ⟨rfl, Option.some.inj (hz.symm.trans hsum)⟩⟩
  · obtain ⟨k, rfl⟩ := Nat.exists_eq_add_of_le' hhigh
    obtain ⟨e, o, he, ho, -, hdiff⟩ := fftRec_succ (c := c) (x := x) level base stride (Nat.lt_of_add_lt_add_right hq)
    exact ⟨k, e, o, Nat.lt_of_add_lt_add_right hq, he, ho, .inr ⟨rfl, Option.some.inj (hz.symm.trans hdiff)⟩⟩

/-- What `FFT` leaves in `SPEC`: entry `q` as words `2q` and `2q + 1`. -/
theorem fftStage_read_entry (s : State) {q : Nat} {z : Cpx}
    (hz : (fftRec s.cfg (s.readFp .frm) s.cfg.log2n 0 1)[q]? = some z) :
    s.fftStage.read .spec (2 * q) = z.re.toWord (s.nanDraw (2 * q)) ∧
      s.fftStage.read .spec (2 * q + 1) = z.im.toWord (s.nanDraw (2 * q + 1)) := by
  have hq : q < s.cfg.n := by
    rw [Config.n, ← fftRec_length s.cfg (s.readFp .frm) s.cfg.log2n 0 1]
    exact (List.getElem?_eq_some_iff.1 hz).1
  rw [fftStage_read s (by omega), fftStage_read s (by omega), specWord, specWord, Nat.mul_div_cancel_left q (by decide),
    show (2 * q + 1) / 2 = q by omega, show (2 * q + 1) % 2 = 1 by omega, Nat.mul_mod_right, hz]
  exact ⟨rfl, rfl⟩

end Sys2Proof.Machine
end

section
/-! PROOFS. The statements about the twiddle table, the stage and the recursion (42_fft.md R140 to R143). -/

namespace Sys2Proof.Proofs
open Sys2Proof.Machine

/-- Settles O11: the reference table and every legal one have the shape. -/
theorem twiddleTableSymmetries : Obligations.TwiddleTableSymmetries := by
  unfold Obligations.TwiddleTableSymmetries
  intro c
  have hshape := twiddleShape_twid c
  exact ⟨hshape.first, hshape.quarter, hshape.im_neg, fun _ m hpos hm => ⟨hshape.mirror m hpos hm, hshape.turn m hpos hm⟩⟩

/-- Settles O28: the stage writes `SPEC` as a whole and draws anew. -/
theorem fftStoresTheTransform : Obligations.FftStoresTheTransform := by
  unfold Obligations.FftStoresTheTransform
  intro s
  refine ⟨s.fftStage, rfl, fftRec_length _ _ _ _ _, fun q z hz => fftStage_read_entry s hz,
    fun sp hsp => fftStage_read_space s hsp, ?_⟩
  simp [SameRegisters, SameCommandPorts, SameBuild]

/-- Settles O29: the base case and one level of the recursion; the complex operations are their rounded operations. -/
theorem transformRecursion : Obligations.TransformRecursion := by
  unfold Obligations.TransformRecursion
  have hzero : Fp.ofWord 0x00000000#32 = .zero := by decide
  intro c x base stride
  refine ⟨fun level => fftRec_length c x level base stride, ?_, fun level k hk => fftRec_succ level base stride hk⟩
  rw [hzero, fftRec_zero, Cpx.ofReal]

end Sys2Proof.Proofs
end

section
/-! SUPPORT. Complex values up to the signs of zeros: the operations of 00_scope.md R16 respect them, commute with conjugation and
negation, and are exact where one operand is a zero or a twiddle of T1 or T2 (42_fft.md R141, R147). -/

namespace Sys2Proof.Machine

namespace Fp

/-- A zero added to a value that binary32 holds changes nothing. -/
theorem zero_add_value {s : Bool} {m : Nat} {a b : Fp} (hm : Held m) (hlt : m < overflow) (ha : a.value = .zero)
    (hb : b.value = (Fp.fin s m).value) : (a.add b).value = (Fp.fin s m).value := by
  rw [add_comm]
  exact add_zero_value hm hlt hb ha

/-- A zero times a finite value is a zero. -/
theorem zero_mul_value {a b : Fp} (ha : a.value = .zero) (hb : ∃ r k, b = .fin r k) : (a.mul b).value = .zero := by
  rw [mul_comm]
  exact mul_zero_value hb ha

/-- A value that agrees with its negation is a zero or a NaN. -/
theorem zero_or_nan_of_value_eq_neg {a : Fp} (h : a.value = a.neg.value) : a.value = .zero ∨ a = .nan := by
  cases a with
  | nan => exact .inr rfl
  | inf s => cases s <;> cases h
  | fin s m =>
    rcases Nat.eq_zero_or_pos m with rfl | hm
    · exact .inl (value_fin_zero s)
    · cases s <;> simp [value, neg, hm.ne'] at h

/-- `+0.0` plus a zero of either sign is `+0.0`; so is the difference. -/
theorem zero_add_of_zero {b : Fp} (h : b.value = .zero) : zero.add b = zero ∧ zero.sub b = zero := by
  obtain ⟨s, k, rfl⟩ := fin_of_value (s := false) (m := 0) h
  obtain rfl : k = 0 := (Fp.fin.inj h).2
  cases s <;> decide

/-- `+0.0` subtracted from a finite value that binary32 holds leaves it as it is, the sign of a zero included. -/
theorem sub_zero_canonical {s : Bool} {m : Nat} (h : (fin s m).Canonical) : (fin s m).sub zero = fin s m := by
  obtain ⟨hm, hlt⟩ := h
  rw [zero, sub_fin, show signed s m - signed false 0 = signed s m by simp [signed]]
  split
  next hzero =>
    obtain rfl : m = 0 := by cases s <;> simpa [signed] using hzero
    rw [Bool.not_false, Bool.and_true]
  next hne =>
    have hsign : decide (signed s m < 0) = s := by cases s <;> simp [signed] at hne ⊢; omega
    have habs : (signed s m).natAbs = m := by cases s <;> simp [signed]
    rw [hsign, habs, round_held hm hlt]

end Fp

namespace Cpx

/-- A complex value without the signs of zeros. -/
def value (u : Cpx) : Cpx := { re := u.re.value, im := u.im.value }

/-- The value with both signs flipped. -/
def neg (u : Cpx) : Cpx := { re := u.re.neg, im := u.im.neg }

/-- The conjugate: the sign of the imaginary part flipped. -/
def conj (u : Cpx) : Cpx := { re := u.re, im := u.im.neg }

variable {t t' u u' v v' w o : Cpx}

theorem value_eq_iff : u.value = v.value ↔ u.re.value = v.re.value ∧ u.im.value = v.im.value := by
  simp only [value, mk.injEq]

theorem add_congr (hu : u.value = u'.value) (hv : v.value = v'.value) : (u.add v).value = (u'.add v').value := by
  rw [value_eq_iff] at *
  exact ⟨Fp.add_congr hu.1 hv.1, Fp.add_congr hu.2 hv.2⟩

theorem sub_congr (hu : u.value = u'.value) (hv : v.value = v'.value) : (u.sub v).value = (u'.sub v').value := by
  rw [value_eq_iff] at *
  exact ⟨Fp.sub_congr hu.1 hv.1, Fp.sub_congr hu.2 hv.2⟩

theorem mul_congr (hu : u.value = u'.value) (hv : v.value = v'.value) : (u.mul v).value = (u'.mul v').value := by
  rw [value_eq_iff] at *
  exact ⟨Fp.sub_congr (Fp.mul_congr hu.1 hv.1) (Fp.mul_congr hu.2 hv.2),
    Fp.add_congr (Fp.mul_congr hu.1 hv.2) (Fp.mul_congr hu.2 hv.1)⟩

theorem neg_congr (hu : u.value = u'.value) : u.neg.value = u'.neg.value := by
  rw [value_eq_iff] at *
  exact ⟨Fp.neg_congr hu.1, Fp.neg_congr hu.2⟩

/-! ## Negation and conjugation -/

theorem sub_neg (u v : Cpx) : u.sub v.neg = u.add v := by
  simp only [sub, add, neg, Fp.sub, Fp.neg_neg]

theorem neg_add (u v : Cpx) : (u.neg.add v.neg).value = (u.add v).neg.value :=
  value_eq_iff.2 ⟨Fp.neg_add _ _, Fp.neg_add _ _⟩

theorem neg_sub (u v : Cpx) : (u.neg.sub v.neg).value = (u.sub v).neg.value :=
  value_eq_iff.2 ⟨Fp.neg_add _ _, Fp.neg_add _ _⟩

theorem mul_neg (t v : Cpx) : (t.mul v.neg).value = (t.mul v).neg.value := by
  simp only [value_eq_iff, mul, neg, Fp.mul_neg]
  exact ⟨Fp.neg_add _ _, Fp.neg_add _ _⟩

theorem neg_mul (t v : Cpx) : (t.neg.mul v).value = (t.mul v).neg.value := by
  simp only [value_eq_iff, mul, neg, Fp.neg_mul]
  exact ⟨Fp.neg_add _ _, Fp.neg_add _ _⟩

theorem conj_add (u v : Cpx) : (u.conj.add v.conj).value = (u.add v).conj.value :=
  value_eq_iff.2 ⟨rfl, Fp.neg_add _ _⟩

theorem conj_sub (u v : Cpx) : (u.conj.sub v.conj).value = (u.sub v).conj.value :=
  value_eq_iff.2 ⟨rfl, Fp.neg_add _ _⟩

theorem conj_mul (t v : Cpx) : (t.conj.mul v.conj).value = (t.mul v).conj.value := by
  simp only [value_eq_iff, mul, conj, Fp.neg_mul, Fp.mul_neg, Fp.neg_neg]
  exact ⟨trivial, Fp.neg_add _ _⟩

/-- A butterfly of conjugates whose twiddle is the conjugate gives the conjugates of its two results. -/
theorem butterfly_conj (hu : u'.value = u.conj.value) (hw : t'.value = t.conj.value) (hv : v'.value = v.conj.value) :
    (u'.add (t'.mul v')).value = (u.add (t.mul v)).conj.value ∧ (u'.sub (t'.mul v')).value = (u.sub (t.mul v)).conj.value := by
  have hprod : (t'.mul v').value = (t.mul v).conj.value := (mul_congr hw hv).trans (conj_mul t v)
  exact ⟨(add_congr hu hprod).trans (conj_add _ _), (sub_congr hu hprod).trans (conj_sub _ _)⟩

/-- A butterfly of conjugates whose twiddle is the conjugate negated gives the conjugates of the two results, exchanged. -/
theorem butterfly_neg_conj (hu : u'.value = u.conj.value) (hw : t'.value = t.conj.neg.value) (hv : v'.value = v.conj.value) :
    (u'.sub (t'.mul v')).value = (u.add (t.mul v)).conj.value ∧ (u'.add (t'.mul v')).value = (u.sub (t.mul v)).conj.value := by
  have hprod : (t'.mul v').value = (t.mul v).conj.neg.value :=
    ((mul_congr hw hv).trans (neg_mul t.conj v.conj)).trans (neg_congr (conj_mul t v))
  constructor
  · calc (u'.sub (t'.mul v')).value = (u.conj.sub (t.mul v).conj.neg).value := sub_congr hu hprod
      _ = (u.conj.add (t.mul v).conj).value := by rw [sub_neg]
      _ = (u.add (t.mul v)).conj.value := conj_add _ _
  · calc (u'.add (t'.mul v')).value = (u.conj.sub (t.mul v).conj).value := add_congr hu hprod
      _ = (u.sub (t.mul v)).conj.value := conj_sub _ _

/-- A butterfly of negated operands gives the negated results. -/
theorem butterfly_neg (t : Cpx) (hu : u'.value = u.neg.value) (hv : v'.value = v.neg.value) :
    (u'.add (t.mul v')).value = (u.add (t.mul v)).neg.value ∧ (u'.sub (t.mul v')).value = (u.sub (t.mul v)).neg.value := by
  have hprod : (t.mul v').value = (t.mul v).neg.value := (mul_congr rfl hv).trans (mul_neg t v)
  exact ⟨(add_congr hu hprod).trans (neg_add _ _), (sub_congr hu hprod).trans (neg_sub _ _)⟩

end Cpx

end Sys2Proof.Machine
end

section
/-! SUPPORT. The transform in CORE's rounded operations: conjugate symmetric, and odd (42_fft.md R147). -/

namespace Sys2Proof.Machine

variable {c : Config} {x : Nat → Fp}

/-- Mirrored in the quarter turn, a twiddle is its conjugate negated (T2, T4). -/
theorem twid_mirror_value {m : Nat} (hpos : 0 < m) (h : m < c.n / 2) :
    (twid c (c.n / 2 - m)).value = (twid c m).conj.neg.value := by
  have hshape := twiddleShape_twid c
  have hn := n_four c (by have := n_eq_two_mul_h c; unfold Config.h at this; omega)
  rcases Nat.lt_trichotomy m (c.n / 4) with hlt | rfl | hgt
  · rw [hshape.mirror m hpos hlt]
    exact Cpx.value_eq_iff.2 ⟨rfl, by simp only [Cpx.conj, Cpx.neg, Fp.neg_neg]⟩
  · rw [show c.n / 2 - c.n / 4 = c.n / 4 by omega, hshape.quarter (by omega)]
    decide
  · have hm := hshape.mirror (c.n / 2 - m) (by omega) (by omega)
    rw [show c.n / 2 - (c.n / 2 - m) = m by omega] at hm
    rw [hm]
    exact Cpx.value_eq_iff.2 ⟨by simp only [Cpx.conj, Cpx.neg, Fp.neg_neg], by simp only [Cpx.conj, Cpx.neg, Fp.neg_neg]⟩

theorem twid_zero_conj (c : Config) : (twid c 0).value = (twid c 0).conj.value := by
  rw [(twiddleShape_twid c).first]
  decide

/-- To show something of every entry of the sub-problems of one transform: show it of a single input, and of the two entries that
one butterfly makes of two entries it holds of. The stride of a sub-problem is `N` divided by its size (R142). -/
theorem fftRec_induction {P : (level base stride q : Nat) → Cpx → Prop}
    (hleaf : ∀ base, P 0 base c.n 0 (Cpx.ofReal (x base)))
    (hstep : ∀ level base stride k e o, k < 2 ^ level → stride * 2 ^ (level + 1) = c.n → P level base (2 * stride) k e →
      P level (base + stride) (2 * stride) k o →
      P (level + 1) base stride k (e.add ((twid c (k * stride)).mul o)) ∧
      P (level + 1) base stride (k + 2 ^ level) (e.sub ((twid c (k * stride)).mul o)))
    {level base stride q : Nat} {z : Cpx} (hs : stride * 2 ^ level = c.n) (hz : (fftRec c x level base stride)[q]? = some z) :
    P level base stride q z := by
  refine fftGraph_induction (P := fun level base stride q z => stride * 2 ^ level = c.n → P level base stride q z) _ _ _ _ _
    (fun base stride hs => ?_) (fun level base stride k e o hk he ho => imp_and.1 fun hs => ?_) level base stride q z hz hs
  · rw [pow_zero, Nat.mul_one] at hs
    exact hs ▸ hleaf base
  · have hhalf : 2 * stride * 2 ^ level = c.n := by rw [← hs, pow_succ]; ring
    exact hstep level base stride k e o hk hs (he hhalf) (ho hhalf)

theorem stride_mul_half {level stride : Nat} (hs : stride * 2 ^ (level + 1) = c.n) : stride * 2 ^ level = c.n / 2 := by
  rw [← hs, pow_succ, ← Nat.mul_assoc, Nat.mul_div_cancel _ (by decide)]

/-- The twiddle indices of a sub-problem are below `N/2`, and only that of entry 0 is 0. -/
theorem twiddle_index {level stride k : Nat} (hs : stride * 2 ^ (level + 1) = c.n) (hk : k < 2 ^ level) :
    k * stride < c.n / 2 ∧ (0 < k → 0 < k * stride) := by
  have hstride : 0 < stride := Nat.pos_of_mul_pos_right (hs ▸ n_pos c)
  rw [← stride_mul_half hs, Nat.mul_comm]
  exact ⟨Nat.mul_lt_mul_of_pos_left hk hstride, fun hpos => Nat.mul_pos hstride hpos⟩

/-- The mirror of an index within a sub-problem. -/
def mirrorIndex (level q : Nat) : Nat := (2 ^ level - q) % 2 ^ level

theorem mirrorIndex_lt (level q : Nat) : mirrorIndex level q < 2 ^ level := Nat.mod_lt _ (by positivity)

theorem mirrorIndex_zero (level : Nat) : mirrorIndex level 0 = 0 := by rw [mirrorIndex, Nat.sub_zero, Nat.mod_self]

theorem mirrorIndex_pos {level q : Nat} (hpos : 0 < q) : mirrorIndex level q = 2 ^ level - q :=
  Nat.mod_eq_of_lt (Nat.sub_lt (by positivity) hpos)

/-- (c) of R147 in every sub-problem of a transform: mirrored entries are conjugates, up to the signs of zeros. -/
theorem fftRec_mirror {level base stride q : Nat} {u : Cpx} (hs : stride * 2 ^ level = c.n)
    (hu : (fftRec c x level base stride)[q]? = some u) :
    ∀ v, (fftRec c x level base stride)[mirrorIndex level q]? = some v → v.value = u.conj.value := by
  refine fftRec_induction (P := fun level base stride q u =>
    ∀ v, (fftRec c x level base stride)[mirrorIndex level q]? = some v → v.value = u.conj.value) ?_ ?_ hs hu
  · intro base v hv
    obtain rfl := Option.some.inj hv
    exact Cpx.value_eq_iff.2 ⟨rfl, rfl⟩
  · intro level base stride k e o hk hs ihe iho
    obtain ⟨e', o', he, ho, hsum, hdiff⟩ := fftRec_succ (c := c) (x := x) level base stride (mirrorIndex_lt level k)
    have hpow : 2 ^ (level + 1) = 2 * 2 ^ level := Nat.pow_succ'
    rcases Nat.eq_zero_or_pos k with rfl | hpos
    · rw [mirrorIndex_zero] at hsum hdiff
      rw [mirrorIndex_zero, Nat.zero_add, mirrorIndex_pos (by positivity), show 2 ^ (level + 1) - 2 ^ level = 0 + 2 ^ level by omega,
        hsum, hdiff, Nat.zero_mul]
      obtain ⟨hadd, hsub⟩ := Cpx.butterfly_conj (ihe e' he) (twid_zero_conj c) (iho o' ho)
      exact ⟨fun v hv => Option.some.inj hv ▸ hadd, fun v hv => Option.some.inj hv ▸ hsub⟩
    · rw [mirrorIndex_pos hpos] at hsum hdiff
      rw [mirrorIndex_pos hpos, mirrorIndex_pos (by omega), show 2 ^ (level + 1) - k = 2 ^ level - k + 2 ^ level by omega,
        show 2 ^ (level + 1) - (k + 2 ^ level) = 2 ^ level - k by omega, hsum, hdiff]
      obtain ⟨hlt, hne⟩ := twiddle_index hs hk
      have htwid : (twid c ((2 ^ level - k) * stride)).value = (twid c (k * stride)).conj.neg.value := by
        rw [Nat.sub_mul, Nat.mul_comm (2 ^ level), stride_mul_half hs]
        exact twid_mirror_value (hne hpos) hlt
      obtain ⟨hsub, hadd⟩ := Cpx.butterfly_neg_conj (ihe e' he) htwid (iho o' ho)
      exact ⟨fun v hv => Option.some.inj hv ▸ hsub, fun v hv => Option.some.inj hv ▸ hadd⟩

/-- (b) of R147 in every sub-problem of a transform: negating the inputs negates the entries, up to the signs of zeros. -/
theorem fftRec_neg {level base stride q : Nat} {u : Cpx} (hs : stride * 2 ^ level = c.n)
    (hu : (fftRec c x level base stride)[q]? = some u) :
    ∀ v, (fftRec c (fun i => (x i).neg) level base stride)[q]? = some v → v.value = u.neg.value := by
  refine fftRec_induction (P := fun level base stride q u =>
    ∀ v, (fftRec c (fun i => (x i).neg) level base stride)[q]? = some v → v.value = u.neg.value) ?_ ?_ hs hu
  · intro base v hv
    obtain rfl := Option.some.inj hv
    exact Cpx.value_eq_iff.2 ⟨rfl, rfl⟩
  · intro level base stride k e o hk hs ihe iho
    obtain ⟨e', o', he, ho, hsum, hdiff⟩ := fftRec_succ (c := c) (x := fun i => (x i).neg) level base stride hk
    rw [hsum, hdiff]
    obtain ⟨hadd, hsub⟩ := Cpx.butterfly_neg (twid c (k * stride)) (ihe e' he) (iho o' ho)
    exact ⟨fun v hv => Option.some.inj hv ▸ hadd, fun v hv => Option.some.inj hv ▸ hsub⟩

end Sys2Proof.Machine
end

section
/-! SUPPORT. The graph of the transform at exact operations is the discrete Fourier transform (42_fft.md R144, R147). -/

namespace Sys2Proof.Machine

variable {K : Type} [CommRing K]

/-- An entry of a sub-problem whose size times stride is `N` is the Fourier sum of its inputs. -/
theorem exactGraph_entry {w : K} {top : Nat} (hw : w ^ 2 ^ top = -1) (x : Nat → K) {level base stride q : Nat} {z : K}
    (hs : stride * 2 ^ level = 2 ^ (top + 1))
    (hz : (fftGraph id (fun m o => w ^ m * o) (· + ·) (· - ·) x level base stride)[q]? = some z) :
    z = ∑ i ∈ Finset.range (2 ^ level), x (base + stride * i) * w ^ (q * (stride * i)) := by
  refine fftGraph_induction (P := fun level base stride q z => stride * 2 ^ level = 2 ^ (top + 1) →
    z = ∑ i ∈ Finset.range (2 ^ level), x (base + stride * i) * w ^ (q * (stride * i))) _ _ _ _ _
    (fun base stride _ => by simp) (fun level base stride k e o _ he ho => imp_and.1 fun hs => ?_) level base stride q z hz hs
  have hhalf : 2 * stride * 2 ^ level = 2 ^ (top + 1) := by rw [← hs, pow_succ]; ring
  have hquarter : 2 ^ level * stride = 2 ^ top := by
    rw [pow_succ] at hhalf
    linarith
  have hroot : w ^ (2 ^ level * stride) = -1 := hquarter ▸ hw
  have hupper : ∀ i, w ^ ((k + 2 ^ level) * (stride * i)) = (-1) ^ i * w ^ (k * (stride * i)) := fun i => by
    rw [← hroot, ← pow_mul, ← pow_add]
    ring_nf
  rw [he hhalf, ho hhalf, pow_succ', sum_two_mul, sum_two_mul, Finset.mul_sum]
  constructor
  · congr 1
    · exact Finset.sum_congr rfl fun i _ => by ring_nf
    · exact Finset.sum_congr rfl fun i _ => by ring_nf
  · rw [sub_eq_add_neg, ← Finset.sum_neg_distrib]
    congr 1
    · exact Finset.sum_congr rfl fun i _ => by
        rw [hupper, (even_two_mul i).neg_one_pow]
        ring_nf
    · exact Finset.sum_congr rfl fun i _ => by
        rw [hupper, (odd_two_mul_add_one i).neg_one_pow]
        ring_nf

theorem exactTransform_length (w : K) (x : Nat → K) (level : Nat) : (exactTransform w x level).length = 2 ^ level :=
  fftGraph_length ..

/-- The graph at exact operations is the discrete Fourier transform. -/
theorem exactTransform_entry {w : K} {level : Nat} (hw : w ^ 2 ^ level = -1) (x : Nat → K) {q : Nat} (hq : q < 2 ^ (level + 1)) :
    (exactTransform w x (level + 1))[q]? = some (∑ i ∈ Finset.range (2 ^ (level + 1)), x i * w ^ (q * i)) := by
  obtain ⟨z, hz⟩ := exists_entry id (fun m o => w ^ m * o) (· + ·) (· - ·) x (level + 1) 0 1 hq
  rw [exactTransform, hz, exactGraph_entry hw x (Nat.one_mul _) hz]
  simp only [Nat.zero_add, Nat.one_mul]

theorem exactTransform_linear {w : K} {level : Nat} (hw : w ^ 2 ^ level = -1) (a b : K) (x y : Nat → K) :
    exactTransform w (fun i => a * x i + b * y i) (level + 1) =
      List.zipWith (fun u v => a * u + b * v) (exactTransform w x (level + 1)) (exactTransform w y (level + 1)) := by
  refine List.ext_getElem? fun q => ?_
  rcases Nat.lt_or_ge q (2 ^ (level + 1)) with hq | hq
  · rw [List.getElem?_zipWith, exactTransform_entry hw _ hq, exactTransform_entry hw _ hq, exactTransform_entry hw _ hq]
    simp only [add_mul, Finset.sum_add_distrib, Finset.mul_sum, mul_assoc]
  · rw [List.getElem?_eq_none (by rw [exactTransform_length]; exact hq),
      List.getElem?_eq_none (by rw [List.length_zipWith, exactTransform_length, exactTransform_length, min_self]; exact hq)]

/-- `N` divides the sum of an index and a frequency between 0 and `N` only where the index is the frequency's mirror. -/
theorem dvd_add_iff_eq_mirror {n k q : Nat} (hk : 0 < k) (hkn : k < n) (hq : q < n) : n ∣ k + q ↔ q = n - k := by
  constructor
  · rintro ⟨d, hd⟩
    have h1 : d < 2 := Nat.lt_of_mul_lt_mul_left (a := n) (by omega)
    interval_cases d <;> omega
  · rintro rfl
    exact ⟨1, by omega⟩

/-- A sinusoid of index `k` has entries at index `k` and its mirror only. -/
theorem exactTransform_sinusoid {w : K} {level : Nat} (hw : w ^ 2 ^ level = -1) (a b : K) {k q : Nat} (hk : 0 < k)
    (hkn : k < 2 ^ (level + 1)) (hne : 2 * k ≠ 2 ^ (level + 1)) (hq : q < 2 ^ (level + 1)) :
    (exactTransform w (fun i => a * w ^ (k * i) + b * w ^ ((2 ^ (level + 1) - k) * i)) (level + 1))[q]? =
      some (if q = k then 2 ^ (level + 1) * b else if q = 2 ^ (level + 1) - k then 2 ^ (level + 1) * a else 0) := by
  have hterm : ∀ i, (a * w ^ (k * i) + b * w ^ ((2 ^ (level + 1) - k) * i)) * w ^ (q * i) =
      a * w ^ ((k + q) * i) + b * w ^ ((2 ^ (level + 1) - k + q) * i) := fun i => by
    rw [Nat.add_mul, Nat.add_mul, pow_add, pow_add]
    ring
  rw [exactTransform_entry hw _ hq]
  simp only [hterm, Finset.sum_add_distrib, ← Finset.mul_sum, sum_root_powers w level hw]
  simp only [dvd_add_iff_eq_mirror hk hkn hq, dvd_add_iff_eq_mirror (k := 2 ^ (level + 1) - k) (by omega) (by omega) hq,
    show 2 ^ (level + 1) - (2 ^ (level + 1) - k) = k by omega]
  rcases eq_or_ne q k with rfl | hqk
  · rw [if_neg (by omega), if_pos rfl, if_pos rfl]
    ring_nf
  · rw [if_neg hqk, if_neg hqk, mul_zero, add_zero, mul_ite, mul_zero, mul_comm a]

end Sys2Proof.Machine
end

section
/-! PROOFS. The properties that 42_fft.md R147 lists. -/

namespace Sys2Proof.Proofs
open Sys2Proof.Machine

/-- Settles O31: the exact graph by its Fourier sums; CORE's by induction over the recursion, with the mirror symmetry of the table. -/
theorem transformHasTheListedProperties : Obligations.TransformHasTheListedProperties := by
  unfold Obligations.TransformHasTheListedProperties
  refine ⟨fun _ _ _ _ _ => rfl, fun K _ w level hw => ⟨fun x q hq => exactTransform_entry hw x hq, exactTransform_linear hw,
    fun a b k q hk hkn hne hq => exactTransform_sinusoid hw a b hk hkn hne hq⟩, fun c x => ⟨fun z hz => ?_, ?_, ?_⟩⟩
  · have hself : z.value = z.conj.value := fftRec_mirror (Nat.one_mul _) hz z (by rw [mirrorIndex_zero]; exact hz)
    exact Fp.zero_or_nan_of_value_eq_neg (Cpx.value_eq_iff.1 hself).2
  · intro q u v hpos _ hu hv
    exact Cpx.value_eq_iff.1 (fftRec_mirror (Nat.one_mul _) hu v (by rw [mirrorIndex_pos hpos]; exact hv))
  · intro q u v hu hv
    exact Cpx.value_eq_iff.1 (fftRec_neg (Nat.one_mul _) hu v hv)

end Sys2Proof.Proofs
end

section
/-! SUPPORT. Frames whose transform is exact in binary32 (42_fft.md R146, R147): silence, size 2, a constant, and the tones of index
`N/2` and `N/4`. -/

namespace Sys2Proof.Machine

namespace Cpx

variable {s : Bool} {m : Nat} {t u v w o : Cpx}

/-- Neither part is infinite or a NaN. -/
def IsFinite (w : Cpx) : Prop := (∃ s k, w.re = .fin s k) ∧ ∃ s k, w.im = .fin s k

theorem ofReal_add (a b : Fp) : (ofReal a).add (ofReal b) = ofReal (a.add b) :=
  congrArg (Cpx.mk (a.add b)) (by decide : Fp.zero.add .zero = .zero)

theorem ofReal_sub (a b : Fp) : (ofReal a).sub (ofReal b) = ofReal (a.sub b) :=
  congrArg (Cpx.mk (a.sub b)) (by decide : Fp.zero.sub .zero = .zero)

/-- The product with 1.0, which is `TWID[0]`, of a finite real value is that value, the signs of zeros included. -/
theorem one_mul_ofReal (h : (Fp.fin s m).Canonical) : (ofReal .one).mul (ofReal (.fin s m)) = ofReal (.fin s m) := by
  have hre : (Fp.one.mul (.fin s m)).sub (Fp.zero.mul .zero) = .fin s m := by
    rw [Fp.one_mul_canonical h, (by decide : Fp.zero.mul .zero = .zero), Fp.sub_zero_canonical h]
  have him : (Fp.one.mul .zero).add (Fp.zero.mul (.fin s m)) = .zero := by
    rw [Fp.one_mul_canonical Fp.canonical_zero]
    exact (Fp.zero_add_of_zero (Fp.zero_mul_value rfl ⟨s, m, rfl⟩)).1
  exact congrArg₂ Cpx.mk hre him

/-! ## Zeros -/

theorem mul_zero_of_finite (hw : w.IsFinite) (ho : o.value = ofReal .zero) : (w.mul o).value = ofReal .zero := by
  obtain ⟨hre, him⟩ := hw
  obtain ⟨hore, hoim⟩ := Cpx.mk.inj ho
  obtain ⟨h1, h2⟩ := mul_zero_value hre him hore hoim
  exact congrArg₂ Cpx.mk h1 h2

theorem zeros_add_sub (hu : u.value = ofReal .zero) (hv : v.value = ofReal .zero) :
    (u.add v).value = ofReal .zero ∧ (u.sub v).value = ofReal .zero := by
  rw [add_congr (u' := ofReal .zero) (v' := ofReal .zero) hu hv, sub_congr (u' := ofReal .zero) (v' := ofReal .zero) hu hv]
  decide

/-- `+0.0` absorbs a zero whose parts have either sign. -/
theorem zero_add_sub_of_zero (h : v.value = ofReal .zero) :
    (ofReal .zero).add v = ofReal .zero ∧ (ofReal .zero).sub v = ofReal .zero := by
  obtain ⟨hre, him⟩ := Cpx.mk.inj h
  obtain ⟨haddre, hsubre⟩ := Fp.zero_add_of_zero hre
  obtain ⟨haddim, hsubim⟩ := Fp.zero_add_of_zero him
  exact ⟨congrArg₂ Cpx.mk haddre haddim, congrArg₂ Cpx.mk hsubre hsubim⟩

/-! ## Real and imaginary values, up to the signs of zeros -/

theorem neg_real (hv : v.value = ofReal (Fp.fin s m).value) : v.neg.value = ofReal (Fp.fin (!s) m).value :=
  neg_congr (u' := ofReal (.fin s m)) hv

theorem one_mul_real (hm : Fp.Held m) (hlt : m < Fp.overflow) (ho : o.value = ofReal (Fp.fin s m).value) :
    ((ofReal .one).mul o).value = ofReal (Fp.fin s m).value := by
  obtain ⟨hre, him⟩ := Cpx.mk.inj ho
  obtain ⟨h1, h2⟩ := one_mul_value hm hlt hre him
  exact congrArg₂ Cpx.mk h1 h2

/-- Equal real values: the sum is the double, exactly, and the difference a zero. -/
theorem equal_add_sub (hm : Fp.Held (m * 2)) (hlt : m * 2 < Fp.overflow) (hu : u.value = ofReal (Fp.fin s m).value)
    (hv : v.value = ofReal (Fp.fin s m).value) :
    (u.add v).value = ofReal (Fp.fin s (m * 2)).value ∧ (u.sub v).value = ofReal .zero := by
  obtain ⟨hure, huim⟩ := Cpx.mk.inj hu
  obtain ⟨hvre, hvim⟩ := Cpx.mk.inj hv
  exact ⟨congrArg₂ Cpx.mk (Fp.add_self_value hm hlt hure hvre) (Fp.add_zeros huim hvim),
    congrArg₂ Cpx.mk (Fp.add_neg_value hure (Cpx.mk.inj (neg_real hv)).1) (Fp.sub_zeros huim hvim)⟩

/-- Opposite real values: the sum is a zero and the difference the double, exactly. -/
theorem opposite_add_sub (hm : Fp.Held (m * 2)) (hlt : m * 2 < Fp.overflow) (hu : u.value = ofReal (Fp.fin s m).value)
    (hv : v.value = ofReal (Fp.fin (!s) m).value) :
    (u.add v).value = ofReal .zero ∧ (u.sub v).value = ofReal (Fp.fin s (m * 2)).value := by
  have hneg : v.neg.value = ofReal (Fp.fin s m).value := by simpa only [Bool.not_not] using neg_real hv
  obtain ⟨hadd, hsub⟩ := equal_add_sub hm hlt hu hneg
  exact ⟨by rwa [sub_neg] at hsub, hadd⟩

/-- The product with `-i`, which is `TWID[N/4]`, turns a real value into an imaginary one. -/
theorem quarter_mul_real (hm : Fp.Held m) (hlt : m < Fp.overflow) (ho : o.value = ofReal (Fp.fin s m).value) :
    (({ re := .zero, im := Fp.one.neg } : Cpx).mul o).value = { re := .zero, im := (Fp.fin (!s) m).value } := by
  obtain ⟨hre, him⟩ := Cpx.mk.inj ho
  have hone : (Fp.one.neg.mul o.re).value = (Fp.fin (!s) m).value := by
    rw [Fp.neg_mul]
    exact Fp.neg_congr (a' := .fin s m) (Fp.one_mul_value hm hlt hre)
  have hfin : ∃ r k, o.im = .fin r k := Fp.fin_of_value (s := false) (m := 0) him
  exact congrArg₂ Cpx.mk
    (Fp.sub_zeros (Fp.zero_mul_value rfl (Fp.fin_of_value hre)) (Fp.mul_zero_value ⟨_, _, rfl⟩ him))
    (Fp.zero_add_value hm hlt (Fp.zero_mul_value rfl hfin) hone)

/-- An imaginary value added to or subtracted from a zero. -/
theorem zero_add_sub_imag (hm : Fp.Held m) (hlt : m < Fp.overflow) (hu : u.value = ofReal .zero)
    (hv : v.value = { re := .zero, im := (Fp.fin s m).value }) :
    (u.add v).value = { re := .zero, im := (Fp.fin s m).value } ∧
      (u.sub v).value = { re := .zero, im := (Fp.fin (!s) m).value } := by
  obtain ⟨hure, huim⟩ := Cpx.mk.inj hu
  obtain ⟨hvre, hvim⟩ := Cpx.mk.inj hv
  exact ⟨congrArg₂ Cpx.mk (Fp.add_zeros hure hvre) (Fp.zero_add_value hm hlt huim hvim),
    congrArg₂ Cpx.mk (Fp.sub_zeros hure hvre) (Fp.zero_add_value hm hlt huim (Fp.neg_congr (a' := .fin s m) hvim))⟩

end Cpx

variable {c : Config} {x : Nat → Fp} {s : Bool} {m level base stride q : Nat} {z : Cpx}

/-- The first twiddle is 1.0 (T1). -/
theorem twid_zero (c : Config) : twid c 0 = Cpx.ofReal .one := (twiddleShape_twid c).first

/-- Every twiddle that the transform uses is finite. -/
theorem isFinite_twid {m : Nat} (h : m < c.n / 2) : (twid c m).IsFinite := by
  have hshape := twiddleShape_twid c
  rcases Nat.eq_zero_or_pos m with rfl | hpos
  · rw [hshape.first]
    exact ⟨⟨_, _, rfl⟩, ⟨_, _, rfl⟩⟩
  · obtain ⟨k, -, hk⟩ := hshape.im_neg m hpos h
    exact ⟨hshape.re_fin m hpos h, ⟨_, _, hk⟩⟩

/-- The inputs of a sub-problem, in their order. -/
def InputsAre (x : Nat → Fp) (level base stride : Nat) (y : Nat → Fp) : Prop := ∀ i, i < 2 ^ level → x (base + stride * i) = y i

/-- The two halves of a sub-problem take its even and its odd inputs. -/
theorem InputsAre.halves {y : Nat → Fp} (h : InputsAre x (level + 1) base stride y) :
    InputsAre x level base (2 * stride) (fun i => y (2 * i)) ∧
      InputsAre x level (base + stride) (2 * stride) (fun i => y (2 * i + 1)) := by
  have hpow : 2 ^ (level + 1) = 2 * 2 ^ level := Nat.pow_succ'
  refine ⟨fun i hi => ?_, fun i hi => ?_⟩
  · show _ = y (2 * i)
    rw [← h (2 * i) (by omega)]
    ring_nf
  · show _ = y (2 * i + 1)
    rw [← h (2 * i + 1) (by omega)]
    ring_nf

theorem InputsAre.first {y : Nat → Fp} (h : InputsAre x 0 base stride y) : x base = y 0 := h 0 (by decide)

/-- The inputs of the whole transform are the frame. -/
theorem inputsAre_frame {y : Nat → Fp} (h : ∀ i, i < c.n → x i = y i) : InputsAre x c.log2n 0 1 y := fun i hi => by
  rw [Nat.zero_add, Nat.one_mul]
  exact h i hi

/-- Silence: whatever the twiddle, its product with a zero is a zero, which `+0.0` absorbs. -/
theorem fftRec_silence (hs : stride * 2 ^ level = c.n) (hz : (fftRec c x level base stride)[q]? = some z)
    (hx : InputsAre x level base stride fun _ => .zero) : z = Cpx.ofReal .zero := by
  refine fftRec_induction (P := fun level base stride q z => InputsAre x level base stride (fun _ => .zero) → z = Cpx.ofReal .zero)
    (fun base hx => by rw [hx.first]) (fun level base stride k e o hk hs he ho => imp_and.1 fun hx => ?_) hs hz hx
  obtain ⟨heven, hodd⟩ := hx.halves
  rw [he heven, ho hodd]
  exact Cpx.zero_add_sub_of_zero (Cpx.mul_zero_of_finite (isFinite_twid (twiddle_index hs hk).1) rfl)

/-- A constant: the sum at index 0, zeros elsewhere. -/
theorem fftRec_constant (hm : Fp.Held m) (hs : stride * 2 ^ level = c.n) (hz : (fftRec c x level base stride)[q]? = some z)
    (hlt : m * 2 ^ level < Fp.overflow) (hx : InputsAre x level base stride fun _ => .fin s m) :
    z.value = Cpx.ofReal (if q = 0 then (Fp.fin s (m * 2 ^ level)).value else .zero) := by
  refine fftRec_induction (P := fun level base stride q z =>
    m * 2 ^ level < Fp.overflow ∧ InputsAre x level base stride (fun _ => .fin s m) →
      z.value = Cpx.ofReal (if q = 0 then (Fp.fin s (m * 2 ^ level)).value else .zero))
    (fun base hin => ?_) (fun level base stride k e o hk hs he ho => imp_and.1 fun hin => ?_) hs hz ⟨hlt, hx⟩
  · rw [hin.2.first, if_pos rfl, pow_zero, Nat.mul_one]
    rfl
  · obtain ⟨hlt, hx⟩ := hin
    have hheld := Fp.held_mul hm level
    have hdouble : m * 2 ^ (level + 1) = m * 2 ^ level * 2 := by rw [pow_succ, Nat.mul_assoc]
    have hpow : 0 < 2 ^ level := by positivity
    have hheld2 := Fp.held_mul hm (level + 1)
    rw [hdouble] at hlt hheld2 ⊢
    obtain ⟨heven, hodd⟩ := hx.halves
    have he := he ⟨by omega, heven⟩
    have ho := ho ⟨by omega, hodd⟩
    rw [if_neg (show k + 2 ^ level ≠ 0 by omega)]
    rcases Nat.eq_zero_or_pos k with rfl | hpos
    · rw [if_pos rfl] at he ho ⊢
      rw [Nat.zero_mul, twid_zero]
      exact Cpx.equal_add_sub hheld2 hlt he (Cpx.one_mul_real hheld (by omega) ho)
    · rw [if_neg hpos.ne'] at he ho ⊢
      exact Cpx.zeros_add_sub he (Cpx.mul_zero_of_finite (isFinite_twid (twiddle_index hs hk).1) ho)

/-- The tone `A, -A, A, -A, …`: its halves are opposite constants, so the sum stands at half the size. -/
theorem fftRec_alternating (hm : Fp.Held m) (hs : stride * 2 ^ (level + 1) = c.n)
    (hz : (fftRec c x (level + 1) base stride)[q]? = some z) (hlt : m * 2 ^ (level + 1) < Fp.overflow)
    (hx : InputsAre x (level + 1) base stride fun i => .fin (s ^^ decide (i % 2 = 1)) m) :
    z.value = Cpx.ofReal (if q = 2 ^ level then (Fp.fin s (m * 2 ^ (level + 1))).value else .zero) := by
  have hheld := Fp.held_mul hm level
  have hheld2 := Fp.held_mul hm (level + 1)
  have hdouble : m * 2 ^ (level + 1) = m * 2 ^ level * 2 := by rw [pow_succ, Nat.mul_assoc]
  have hhalf : 2 * stride * 2 ^ level = c.n := by rw [← hs, pow_succ]; ring
  have hpow : 0 < 2 ^ level := by positivity
  rw [hdouble] at hlt hheld2 ⊢
  obtain ⟨heven, hodd⟩ := hx.halves
  simp only [Nat.mul_mod_right, Nat.mul_add_mod, Nat.one_mod, Nat.zero_ne_one, decide_false, decide_true, Bool.xor_false,
    Bool.xor_true] at heven hodd
  obtain ⟨k, e, o, hk, he, ho, hq⟩ := fftRec_succ_cases hz
  have he := fftRec_constant hm hhalf he (by omega) heven
  have ho := fftRec_constant hm hhalf ho (by omega) hodd
  rcases Nat.eq_zero_or_pos k with rfl | hpos
  · rw [if_pos rfl] at he ho
    rw [Nat.zero_mul, twid_zero] at hq
    obtain ⟨hadd, hsub⟩ := Cpx.opposite_add_sub hheld2 hlt he (Cpx.one_mul_real hheld (by omega) ho)
    rcases hq with ⟨rfl, rfl⟩ | ⟨rfl, rfl⟩
    · rwa [if_neg hpow.ne]
    · rwa [if_pos (Nat.zero_add _)]
  · rw [if_neg hpos.ne'] at he ho
    obtain ⟨hadd, hsub⟩ := Cpx.zeros_add_sub he (Cpx.mul_zero_of_finite (isFinite_twid (twiddle_index hs hk).1) ho)
    rcases hq with ⟨rfl, rfl⟩ | ⟨rfl, rfl⟩
    · rwa [if_neg hk.ne]
    · rwa [if_neg (by omega)]

/-- The tone `0, A, 0, -A, …`: its even half is silent and its odd half alternates, so `-i` times the odd half's one entry stands at a
quarter of the size and `i` times it at three quarters. -/
theorem fftRec_quarterTone (hm : Fp.Held m) (hs : stride * 2 ^ (level + 2) = c.n)
    (hz : (fftRec c x (level + 2) base stride)[q]? = some z) (hlt : m * 2 ^ (level + 1) < Fp.overflow)
    (hx : InputsAre x (level + 2) base stride fun i => if i % 2 = 0 then .zero else .fin (s ^^ decide (i % 4 = 3)) m) :
    z.value = { re := .zero, im := if q = 2 ^ level then (Fp.fin (!s) (m * 2 ^ (level + 1))).value
      else if q = 3 * 2 ^ level then (Fp.fin s (m * 2 ^ (level + 1))).value else .zero } := by
  have hheld := Fp.held_mul hm (level + 1)
  have hhalf : 2 * stride * 2 ^ (level + 1) = c.n := by rw [← hs, pow_succ _ (level + 1)]; ring
  have hquarter : c.n = 4 * (2 ^ level * stride) := by rw [← hs, pow_add]; ring
  have hpow : 2 ^ (level + 1) = 2 * 2 ^ level := Nat.pow_succ'
  obtain ⟨heven, hodd⟩ := hx.halves
  simp only [Nat.mul_mod_right, if_true] at heven
  have hsign : ∀ i, (if (2 * i + 1) % 2 = 0 then Fp.zero else .fin (s ^^ decide ((2 * i + 1) % 4 = 3)) m) =
      .fin (s ^^ decide (i % 2 = 1)) m := fun i => by
    rw [if_neg (by omega), decide_eq_decide.2 (by omega : (2 * i + 1) % 4 = 3 ↔ i % 2 = 1)]
  simp only [hsign] at hodd
  obtain ⟨k, e, o, hk, he, ho, hq⟩ := fftRec_succ_cases hz
  have heval : e.value = Cpx.ofReal .zero := congrArg Cpx.value (fftRec_silence hhalf he heven)
  have hoval := fftRec_alternating hm hhalf ho hlt hodd
  have hpos := n_pos c
  by_cases hkq : k = 2 ^ level
  · subst hkq
    rw [if_pos rfl] at hoval
    have htwid : twid c (2 ^ level * stride) = { re := .zero, im := Fp.one.neg } := by
      rw [← (twiddleShape_twid c).quarter (by omega)]
      exact congrArg _ (by omega)
    obtain ⟨hadd, hsub⟩ := Cpx.zero_add_sub_imag hheld hlt heval (htwid ▸ Cpx.quarter_mul_real hheld hlt hoval)
    rcases hq with ⟨rfl, rfl⟩ | ⟨rfl, rfl⟩
    · rwa [if_pos rfl]
    · rwa [if_neg (by omega), if_pos (by omega), ← Bool.not_not s]
  · rw [if_neg hkq] at hoval
    obtain ⟨hadd, hsub⟩ := Cpx.zeros_add_sub heval (Cpx.mul_zero_of_finite (isFinite_twid (twiddle_index hs hk).1) hoval)
    rcases hq with ⟨rfl, rfl⟩ | ⟨rfl, rfl⟩
    · rwa [if_neg hkq, if_neg (by omega)]
    · rwa [if_neg (by omega), if_neg (by omega)]

/-- Size 2, the second input finite: the sum and the difference. -/
theorem fftRec_size_two (hlevel : level = 1) (hx : x 1 = .fin s m) (hcanon : (x 1).Canonical) :
    (fftRec c x level 0 1)[0]? = some (Cpx.ofReal ((x 0).add (x 1))) ∧
      (fftRec c x level 0 1)[1]? = some (Cpx.ofReal ((x 0).sub (x 1))) := by
  subst hlevel
  obtain ⟨e, o, he, ho, hsum, hdiff⟩ := fftRec_succ (c := c) (x := x) 0 0 1 (k := 0) (by decide)
  obtain rfl : Cpx.ofReal (x 0) = e := Option.some.inj he
  obtain rfl : Cpx.ofReal (x 1) = o := Option.some.inj ho
  have hprod : (twid c (0 * 1)).mul (Cpx.ofReal (x 1)) = Cpx.ofReal (x 1) := by
    rw [Nat.zero_mul, twid_zero, hx, Cpx.one_mul_ofReal (hx ▸ hcanon)]
  rw [hprod, Cpx.ofReal_add] at hsum
  rw [hprod, Cpx.ofReal_sub] at hdiff
  exact ⟨hsum, hdiff⟩

/-- A silent frame gives a silent spectrum, every word `+0.0` (R146). -/
theorem fftStage_read_silence {s : State} (h : ∀ i, i < s.cfg.n → s.read .frm i = 0#32) {i : Nat} (hi : i < 2 * s.cfg.n) :
    s.fftStage.read .spec i = 0#32 := by
  have hframe : ∀ i, i < s.cfg.n → s.readFp .frm i = .zero := fun i hi => by
    rw [State.readFp, h i hi]
    decide
  have hq : i / 2 < 2 ^ s.cfg.log2n := Nat.div_lt_of_lt_mul hi
  obtain ⟨e, he⟩ : ∃ e, (fftRec s.cfg (s.readFp .frm) s.cfg.log2n 0 1)[i / 2]? = some e :=
    ⟨_, List.getElem?_eq_getElem (by rw [fftRec_length]; exact hq)⟩
  have hzero := fftRec_silence (Nat.one_mul _) he (inputsAre_frame hframe)
  rw [fftStage_read s hi, specWord, he, hzero, Cpx.ofReal]
  simp

/-- At size 2 the spectrum is the sum and the difference, with imaginary parts `+0.0` (R146). -/
theorem fftStage_read_size_two {s : State} (hsize : s.cfg.log2n = 1) (hfin : isFinite (s.read .frm 1)) :
    s.fftStage.read .spec 0 = fadd (s.nanDraw 0) (s.read .frm 0) (s.read .frm 1) ∧ s.fftStage.read .spec 1 = 0#32 ∧
      s.fftStage.read .spec 2 = fsub (s.nanDraw 2) (s.read .frm 0) (s.read .frm 1) ∧ s.fftStage.read .spec 3 = 0#32 := by
  obtain ⟨neg, m, hx⟩ := hfin
  obtain ⟨hsum, hdiff⟩ := fftRec_size_two (c := s.cfg) (x := s.readFp .frm) hsize hx (Fp.ofWord_canonical _)
  obtain ⟨h0, h1⟩ := fftStage_read_entry s hsum
  obtain ⟨h2, h3⟩ := fftStage_read_entry s hdiff
  exact ⟨h0, h1.trans (Fp.toWord_zero _), h2, h3.trans (Fp.toWord_zero _)⟩

end Sys2Proof.Machine
end

section
/-! PROOFS. The frames whose transform is exact (42_fft.md R146, R147). -/

namespace Sys2Proof.Proofs
open Sys2Proof.Machine

/-- Settles O30: each kind of frame is split into its halves, whose transforms are of a simpler kind. -/
theorem transformOfExactFrames : Obligations.TransformOfExactFrames := by
  unfold Obligations.TransformOfExactFrames
  refine ⟨fun s h => ⟨s.fftStage, rfl, fun i hi => fftStage_read_silence h hi⟩,
    fun s hsize hfin => ⟨s.fftStage, rfl, fftStage_read_size_two hsize hfin⟩, ?_⟩
  intro c a s m ha hlt x q z hz
  obtain ⟨hm, -⟩ := Fp.canonical_of_ofWord ha
  refine ⟨fun hx => ?_, fun hx => ?_, fun hsize hx => ?_⟩
  · exact Cpx.mk.inj (fftRec_constant hm (Nat.one_mul _) hz hlt (inputsAre_frame hx))
  · have hhalf : c.n / 2 = 2 ^ c.log2nPred.val := by rw [← stride_mul_half (c := c) (Nat.one_mul _), Nat.one_mul]
    rw [hhalf]
    exact Cpx.mk.inj (fftRec_alternating hm (Nat.one_mul _) hz hlt (inputsAre_frame hx))
  · obtain ⟨level, hlevel⟩ := Nat.exists_eq_add_of_le' ((Nat.pow_le_pow_iff_right (by decide : 1 < 2)).1 hsize : 2 ≤ c.log2n)
    have hn : 1 * 2 ^ (level + 2) = c.n := by rw [Nat.one_mul, ← hlevel, Config.n]
    have hdouble : 2 ^ (level + 2) = 2 ^ (level + 1) * 2 := pow_succ 2 (level + 1)
    have hhalf : c.n / 2 = 2 ^ (level + 1) := by omega
    have hquarter : c.n / 4 = 2 ^ level := by omega
    have hin := inputsAre_frame hx
    rw [hlevel] at hz hin
    rw [hhalf, hquarter]
    exact Cpx.mk.inj (fftRec_quarterTone hm hn hz ((Nat.mul_le_mul_left m (by omega)).trans_lt hlt) hin)

end Sys2Proof.Proofs
end

section
/-! SUPPORT. The bucket boundaries (43_bucketizer.md R157, R158, R162, R166): the ceiling, growth, what the bin count counts, and which
bins lie in a span. -/

namespace Sys2Proof.Machine

/-! ## The recurrence -/

/-- The next boundary is the ceiling of `f * 106/100`. -/
theorem nextBound_ceil (f : Nat) : 106 * f ≤ 100 * nextBound f ∧ 100 * nextBound f < 106 * f + 100 := by
  unfold nextBound
  omega

/-- The width that follows a boundary does not shrink as the boundary grows. -/
theorem nextBound_width_mono {f g : Nat} (h : f ≤ g) : nextBound f - f ≤ nextBound g - g := by
  unfold nextBound
  omega

theorem bound_succ (j : Nat) : bound (j + 1) = nextBound (bound j) := rfl

theorem succ_le_bound (j : Nat) : j + 1 ≤ bound j := by
  induction j with
  | zero => exact le_rfl
  | succ j ih =>
    have := nextBound_ceil (bound j)
    rw [bound_succ]
    omega

theorem bound_lt_succ (j : Nat) : bound j < bound (j + 1) := by
  have := nextBound_ceil (bound j)
  have := succ_le_bound j
  rw [bound_succ]
  omega

theorem bound_strictMono : StrictMono bound := strictMono_nat_of_lt_succ bound_lt_succ

/-- While 6/100 of a boundary is at most one, the boundaries count up by one. -/
theorem bound_eq_succ {j : Nat} (h : j ≤ 16) : bound j = j + 1 := by
  induction j with
  | zero => rfl
  | succ j ih =>
    have := nextBound_ceil (bound j)
    rw [ih (by omega)] at this
    rw [bound_succ, ih (by omega)]
    omega

/-! ## The count -/

/-- The count from the boundary `F[i]` on stops at the first boundary that is not below `h`, or when the fuel ends. -/
theorem lt_countBelow_iff (h fuel i j : Nat) : j < countBelow h fuel (bound i) ↔ j < fuel ∧ bound (i + j) < h := by
  induction fuel generalizing i j with
  | zero => simp [countBelow]
  | succ fuel ih =>
    rw [countBelow, ← bound_succ]
    split
    next hlt =>
      cases j with
      | zero => simpa using hlt
      | succ j =>
        rw [Nat.add_lt_add_iff_right, Nat.add_lt_add_iff_right, ih, Nat.add_right_comm]
        rfl
    next hge =>
      have := bound_strictMono.monotone (Nat.le_add_right i j)
      omega

/-- The fuel is enough, since `F[j]` is at least `j + 1`. -/
theorem lt_bucketCount_iff (h j : Nat) : j < bucketCount h ↔ bound j < h := by
  have := succ_le_bound j
  rw [bucketCount, lt_countBelow_iff, Nat.zero_add]
  omega

/-- The count is fixed by the last boundary below `h` and the next one. -/
theorem bucketCount_eq_succ {h j : Nat} (hlt : bound j < h) (hle : h ≤ bound (j + 1)) : bucketCount h = j + 1 := by
  rw [← lt_bucketCount_iff] at hlt
  rw [← Nat.not_lt, ← lt_bucketCount_iff] at hle
  omega

theorem bucketCount_eq_zero {h : Nat} (hle : h ≤ 1) : bucketCount h = 0 :=
  Nat.eq_zero_of_not_pos fun hpos => Nat.not_lt.2 hle ((lt_bucketCount_iff h 0).1 hpos)

theorem bucketCount_eq_pred {h : Nat} (hlo : 2 ≤ h) (hhi : h ≤ 18) : bucketCount h = h - 1 := by
  obtain ⟨j, rfl⟩ := Nat.exists_eq_add_of_le' hlo
  have := bound_eq_succ (j := j) (by omega)
  exact bucketCount_eq_succ (by omega) (succ_le_bound (j + 1))

theorem bucketCount_le (h : Nat) : bucketCount h ≤ h - 1 := by
  by_contra hgt
  have := (lt_bucketCount_iff h (h - 1)).1 (by omega)
  have := succ_le_bound (h - 1)
  omega

/-! ## The spans -/

theorem mem_span_iff (c : Config) (j q : Nat) : q ∈ span c j ↔ bound j ≤ q ∧ q < min (bound (j + 1)) c.h := by
  rw [span, List.mem_range'_1]
  omega

/-- The bins of every span are bins `1 .. H-1`. -/
theorem bin_of_mem_span {c : Config} {j q : Nat} (h : q ∈ span c j) : 1 ≤ q ∧ q < c.h := by
  have := (mem_span_iff c j q).1 h
  have := succ_le_bound j
  omega

/-- Every bin from 1 on lies between a boundary and the next. -/
theorem exists_bound_le_lt {q : Nat} (h : 1 ≤ q) : ∃ j, bound j ≤ q ∧ q < bound (j + 1) := by
  induction q, h using Nat.le_induction with
  | base => exact ⟨0, by decide⟩
  | succ q _ ih =>
    obtain ⟨j, hle, hlt⟩ := ih
    rcases Nat.lt_or_eq_of_le (Nat.succ_le_of_lt hlt) with hlt | heq
    · exact ⟨j, by omega, hlt⟩
    · exact ⟨j + 1, heq.ge, heq.trans_lt (bound_lt_succ (j + 1))⟩

/-- The spans of the `M` buckets cover the bins `1 .. H-1`. -/
theorem exists_span {c : Config} {q : Nat} (hpos : 1 ≤ q) (hlt : q < c.h) : ∃ j, j < binCount c ∧ q ∈ span c j := by
  obtain ⟨j, hle, hnext⟩ := exists_bound_le_lt hpos
  exact ⟨j, (lt_bucketCount_iff _ _).2 (hle.trans_lt hlt), (mem_span_iff c j q).2 ⟨hle, lt_min hnext hlt⟩⟩

/-- A bin lies in no two spans. -/
theorem span_unique {c : Config} {j k q : Nat} (hj : q ∈ span c j) (hk : q ∈ span c k) : j = k := by
  obtain ⟨hj, hj'⟩ := (mem_span_iff c j q).1 hj
  obtain ⟨hk, hk'⟩ := (mem_span_iff c k q).1 hk
  have hjk : j < k + 1 := bound_strictMono.lt_iff_lt.1 (hj.trans_lt (lt_min_iff.1 hk').1)
  have hkj : k < j + 1 := bound_strictMono.lt_iff_lt.1 (hk.trans_lt (lt_min_iff.1 hj').1)
  omega

end Sys2Proof.Machine
end

section
/-! PROOFS. The statements about the bucket boundaries, the bin count and the spans (43_bucketizer.md). -/

namespace Sys2Proof.Proofs
open Sys2Proof.Machine

/-- Settles O13, by what the count counts; each listed value follows from the boundaries on both sides of `h`. -/
theorem bucketCountCountsBoundaries : Obligations.BucketCountCountsBoundaries := by
  unfold Obligations.BucketCountCountsBoundaries
  exact ⟨fun h j => (lt_bucketCount_iff h j).symm, succ_le_bound, bucketCount_eq_zero (by decide), bucketCount_eq_zero le_rfl,
    bucketCount_eq_pred le_rfl (by decide), fun h => bucketCount_eq_pred,
    bucketCount_eq_succ (j := 103) (by decide +kernel) (by decide +kernel), fun c => ⟨rfl, bucketCount_le c.h⟩⟩

/-- Settles O14: each clause is a fact about one ceiling, `F[j] <= F[j+1]` giving the last. -/
theorem boundariesGrowByTheCeilingRecurrence : Obligations.BoundariesGrowByTheCeilingRecurrence := by
  unfold Obligations.BoundariesGrowByTheCeilingRecurrence
  exact ⟨rfl, fun j => nextBound_ceil (bound j), bound_lt_succ, fun j => bound_eq_succ, by decide,
    fun j => nextBound_width_mono (bound_lt_succ j).le⟩

/-- Settles O15: consecutive boundaries cut the bins from 1 on, and `M` counts the boundaries below `H`. -/
theorem spansPartitionTheHalfSpectrum : Obligations.SpansPartitionTheHalfSpectrum := by
  unfold Obligations.SpansPartitionTheHalfSpectrum
  exact fun c q => ⟨fun j => mem_span_iff c j q, fun j hj => (lt_bucketCount_iff c.h (j + 1)).1 hj,
    ⟨fun ⟨hpos, hlt⟩ => exists_span hpos hlt, fun ⟨_, _, hq⟩ => bin_of_mem_span hq⟩, fun _ _ _ _ => span_unique⟩

end Sys2Proof.Proofs
end

section
/-! SUPPORT. The logarithm (43_bucketizer.md R156): for the reference function and for any legal one, the result is finite and its
sign is that of the real logarithm. -/

namespace Sys2Proof.Machine

namespace Fp

/-! ## Around 1.0 -/

/-- No magnitude of the format lies between 1.0 and the next one on either side. -/
theorem held_near_one {m : Nat} (h : Held m) : m + 2 ^ 125 ≤ 2 ^ 149 ∨ m = 2 ^ 149 ∨ 2 ^ 149 + 2 ^ 126 ≤ m := by
  have hdvd := spacing_dvd h
  rcases Nat.lt_or_ge m (2 ^ 148) with hlt | hge
  · omega
  · have hlog : 148 ≤ m.log2 := (Nat.le_log2 (by omega)).2 hge
    rcases Nat.lt_or_ge m (2 ^ 149) with hlt | hge
    · have := (pow_dvd_pow 2 (by omega : 125 ≤ m.log2 - 23)).trans hdvd
      omega
    · have hlog : 149 ≤ m.log2 := (Nat.le_log2 (by omega)).2 hge
      have := (pow_dvd_pow 2 (by omega : 126 ≤ m.log2 - 23)).trans hdvd
      omega

/-- A magnitude below 1.0 has a lesser pattern. -/
theorem magBits_lt_one {m : Nat} (h : m < 2 ^ 149) : magBits m < 0x3F800000 := by
  have hquot := div_spacing_lt m
  have hlog : m.log2 - 23 ≤ 125 := by
    rcases Nat.eq_zero_or_pos m with rfl | hpos
    · simp
    · have : m.log2 < 149 := (Nat.log2_lt (by omega)).2 h
      omega
  have := Nat.mul_le_mul_right (2 ^ 23) hlog
  unfold magBits
  omega

/-- A magnitude from 1.0 on has at least the pattern of 1.0. -/
theorem one_le_magBits {m : Nat} (h : 2 ^ 149 ≤ m) : 0x3F800000 ≤ magBits m := by
  have hlog : 149 ≤ m.log2 := (Nat.le_log2 (by omega)).2 h
  have hquot : 2 ^ 23 ≤ m / 2 ^ (m.log2 - 23) := by
    rw [Nat.le_div_iff_mul_le (by positivity), ← pow_add, Nat.add_sub_cancel' (by omega)]
    exact Nat.log2_self_le (by omega)
  have := Nat.mul_le_mul_right (2 ^ 23) (by omega : 126 ≤ m.log2 - 23)
  unfold magBits
  omega

theorem magBits_one : magBits (2 ^ 149) = 0x3F800000 := by decide

/-! ## Positive finite patterns -/

/-- A pattern below that of `+inf` is that of its magnitude. -/
theorem ofWord_eq_fin {x : Word} (h : x.toNat < 0x7F800000) :
    ∃ m, ofWord x = .fin false m ∧ (Fp.fin false m).Canonical ∧ magBits m = x.toNat := by
  have hexp : x.toNat / 2 ^ 23 % 2 ^ 8 ≠ 255 := by omega
  have hsign : decide (2 ^ 31 ≤ x.toNat) = false := decide_eq_false (by omega)
  obtain ⟨m, hm⟩ : ∃ m, ofWord x = .fin false m := by
    simp only [ofWord, hsign, if_neg hexp]
    split
    · exact ⟨_, rfl⟩
    · exact ⟨_, rfl⟩
  have hc := canonical_of_ofWord hm
  refine ⟨m, hm, hc, ?_⟩
  have hpack := toWord_ofWord 0 x (hm ▸ nofun)
  rw [hm] at hpack
  rw [← hpack, toNat_toWord_fin 0 false hc.2, signBit, if_neg (by decide), Nat.zero_add]

theorem ofWord_magBits {m : Nat} (h : (Fp.fin false m).Canonical) : ofWord (BitVec.ofNat 32 (magBits m)) = .fin false m := by
  have := ofWord_toWord_canonical 0 h
  rwa [toWord, signBit, if_neg (by decide), Nat.zero_add] at this

theorem magBits_pos {m : Nat} (h : (Fp.fin false m).Canonical) (hpos : 0 < m) : 0 < magBits m := by
  refine Nat.pos_of_ne_zero fun hz => ?_
  have hm := ofWord_magBits h
  rw [hz, show ofWord (BitVec.ofNat 32 0) = .zero by decide] at hm
  cases hm
  exact Nat.lt_irrefl 0 hpos

end Fp

/-! ## Sign and finiteness -/

/-- `y` may be the logarithm of the magnitude `m`: it is finite, positive above 1.0 and negative below (L6). -/
def LnSign (m : Nat) (y : Fp) : Prop :=
  ∃ neg k, y = .fin neg k ∧ (2 ^ 149 < m → neg = false ∧ 0 < k) ∧ (m < 2 ^ 149 → neg = true ∧ 0 < k)

theorem lnRounded_one : lnRounded (2 ^ 149) = .zero := by decide +kernel

/-- The reference logarithm has the sign of the fixed-point one, which is at least one unit of binary32 away from zero. -/
theorem lnSign_lnRounded {m : Nat} (h : (Fp.fin false m).Canonical) (hpos : 0 < m) : LnSign m (lnRounded m) := by
  obtain ⟨hheld, hlt⟩ := h
  rcases Fp.held_near_one hheld with hm | rfl | hm
  · obtain ⟨hhi, hlo⟩ := fxLn_below hpos hm
    obtain ⟨k, hk, hround⟩ := Fp.round_pos_fin (num := (fxLn m).natAbs) (den := fxUnit) (by decide) (by unfold fxUnit; omega)
      (by unfold fxUnit; unfold fxOne at hlo; omega)
    have hneg : lnRounded m = .fin true k := by
      rw [lnRounded, decide_eq_true (by omega : fxLn m < 0), ← Bool.not_false, ← Fp.neg_round, hround]
      rfl
    exact ⟨true, k, hneg, fun _ => by omega, fun _ => ⟨rfl, hk⟩⟩
  · exact ⟨false, 0, lnRounded_one, fun h => (lt_irrefl _ h).elim, fun h => (lt_irrefl _ h).elim⟩
  · obtain ⟨hlo, hhi⟩ := fxLn_above hm hlt
    obtain ⟨k, hk, hround⟩ := Fp.round_pos_fin (num := (fxLn m).natAbs) (den := fxUnit) (by decide) (by unfold fxUnit; omega)
      (by unfold fxUnit; unfold fxOne at hhi; omega)
    have hval : lnRounded m = .fin false k := by rw [lnRounded, decide_eq_false (by omega : ¬ fxLn m < 0), hround]
    exact ⟨false, k, hval, fun _ => ⟨rfl, hk⟩, fun _ => by omega⟩

/-- A finite value that stands above zero is positive. -/
theorem Fp.fin_false_of_key_pos {s : Bool} {m : Nat} (h : 0 < (Fp.fin s m).key) : s = false ∧ 0 < m := by
  cases s with
  | false => exact ⟨rfl, Int.natCast_pos.1 h⟩
  | true =>
    simp only [Fp.key, Fp.signed, if_true] at h
    omega

/-- What L6 and L7 ask of an entry makes it finite and gives its sign. -/
theorem lnSign_of_entryLegal {m : Nat} {y : Fp} (h : lnEntryLegal m y = true) : LnSign m y := by
  simp only [lnEntryLegal, Bool.and_eq_true, decide_eq_true_eq] at h
  obtain ⟨⟨habove, hbelow⟩, hulp⟩ := h
  cases y with
  | nan => cases hulp
  | inf neg => cases hulp
  | fin neg k =>
    exact ⟨neg, k, rfl, fun hm => Fp.fin_false_of_key_pos (habove hm), fun hm => (Fp.fin_true_of_key_neg (hbelow hm)).symm⟩

theorem patternMag_magBits {m : Nat} (h : (Fp.fin false m).Canonical) : patternMag (Fp.magBits m) = m := by
  rw [patternMag, patternValue, Fp.ofWord_magBits h]
  rfl

/-- The logarithm of a build, the reference one or a legal one, has the sign it should have. -/
theorem lnSign_lnMag (c : Config) {m : Nat} (h : (Fp.fin false m).Canonical) (hpos : 0 < m) : LnSign m (lnMag c m) := by
  refine entryOf_cases _ _ _ _ (lnSign_lnRounded h hpos) fun _ hlegal => ?_
  obtain ⟨⟨-, hentry⟩, -⟩ := (lnLegal_iff _).1 hlegal
  have := hentry (Fp.magBits m) (Fp.magBits_lt h.2) (Fp.magBits_pos h hpos)
  rw [patternMag_magBits h] at this
  exact lnSign_of_entryLegal this

theorem lnMag_one (c : Config) : lnMag c (2 ^ 149) = .zero := by
  refine entryOf_cases (P := fun y => y = Fp.zero) _ _ _ _ lnRounded_one fun _ hlegal => ?_
  obtain ⟨⟨hone, -⟩, -⟩ := (lnLegal_iff _).1 hlegal
  rw [Fp.magBits_one]
  exact hone

/-! ## The function of a build, by its operand -/

@[simp] theorem ln32_nan (c : Config) : ln32 c .nan = .nan := rfl

@[simp] theorem ln32_inf (c : Config) : ln32 c (.inf false) = .inf false := rfl

@[simp] theorem ln32_fin_zero (c : Config) (neg : Bool) : ln32 c (.fin neg 0) = .inf true := rfl

theorem ln32_neg (c : Config) {m : Nat} (h : m ≠ 0) : ln32 c (.fin true m) = .nan := if_neg h

theorem ln32_pos (c : Config) {m : Nat} (h : 0 < m) : ln32 c (.fin false m) = lnMag c m := if_neg h.ne'

@[simp] theorem ln32_one (c : Config) : ln32 c .one = .zero := (ln32_pos c (by decide)).trans (lnMag_one c)

/-- On a positive finite pattern the logarithm is finite, and the order of patterns around that of 1.0 gives its sign. -/
theorem ln32_of_positive_pattern (c : Config) {x : Word} (hpos : 0 < x.toNat) (hlt : x.toNat < 0x7F800000) :
    ∃ neg m, ln32 c (Fp.ofWord x) = .fin neg m ∧ (0x3F800000 < x.toNat → neg = false ∧ 0 < m) ∧
      (x.toNat < 0x3F800000 → neg = true ∧ 0 < m) := by
  obtain ⟨k, hx, hc, hbits⟩ := Fp.ofWord_eq_fin hlt
  have hk : 0 < k := Nat.pos_of_ne_zero fun hz => by
    rw [hz, show Fp.magBits 0 = 0 by decide] at hbits
    omega
  obtain ⟨neg, m, hln, habove, hbelow⟩ := lnSign_lnMag c hc hk
  refine ⟨neg, m, by rw [hx, ln32_pos c hk, hln], fun h => habove ?_, fun h => hbelow ?_⟩
  · rcases lt_trichotomy k (2 ^ 149) with hk | rfl | hk
    · have := Fp.magBits_lt_one hk
      omega
    · rw [Fp.magBits_one] at hbits
      omega
    · exact hk
  · by_contra hge
    have := Fp.one_le_magBits (Nat.le_of_not_lt hge)
    omega

end Sys2Proof.Machine
end

section
/-! SUPPORT. The squared magnitude and the log-power (43_bucketizer.md R155): the argument of the logarithm is a NaN or has no sign. -/

namespace Sys2Proof.Machine

namespace Fp

/-- Neither negative nor `-0.0`; a NaN counts as such. -/
def Unsigned : Fp → Prop
  | .nan => True
  | .inf neg => neg = false
  | .fin neg _ => neg = false

theorem unsigned_round (num den : Nat) : (round false num den).Unsigned := by
  unfold round ofMag
  split <;> rfl

/-- A square has no sign. -/
theorem unsigned_mul_self (x : Fp) : (x.mul x).Unsigned := by
  cases x with
  | nan => trivial
  | inf neg => exact Bool.xor_self neg
  | fin neg m =>
    simp only [mul, Bool.xor_self]
    exact unsigned_round _ _

/-- The sum of two values without a sign has none. -/
theorem unsigned_add {x y : Fp} (hx : x.Unsigned) (hy : y.Unsigned) : (x.add y).Unsigned := by
  cases x with
  | nan => trivial
  | inf a =>
    obtain rfl : a = false := hx
    cases y with
    | nan => trivial
    | inf b =>
      obtain rfl : b = false := hy
      rfl
    | fin b k => rfl
  | fin a m =>
    obtain rfl : a = false := hx
    cases y with
    | nan => trivial
    | inf b => exact hy
    | fin b k =>
      obtain rfl : b = false := hy
      have hsum : ¬ signed false m + signed false k < 0 := Int.not_lt.2 (Int.add_nonneg (Int.natCast_nonneg m) (Int.natCast_nonneg k))
      simp only [add, decide_eq_false hsum]
      split
      · rfl
      · exact unsigned_round _ _

/-- An unsigned value that is added to `+inf` gives `+inf`, but for a NaN. -/
theorem inf_add_unsigned {x : Fp} (hx : x.Unsigned) (hn : x ≠ nan) : (inf false).add x = inf false := by
  cases x with
  | nan => exact absurd rfl hn
  | inf neg =>
    obtain rfl : neg = false := hx
    rfl
  | fin neg m => rfl

/-- The square of an infinity is `+inf`. -/
theorem inf_mul_self (neg : Bool) : (inf neg).mul (inf neg) = inf false := congrArg inf (Bool.xor_self neg)

theorem nan_mul_self : nan.mul nan = nan := rfl

/-- Only a NaN has a NaN as its square. -/
theorem mul_self_ne_nan {x : Fp} (h : x ≠ nan) : x.mul x ≠ nan := by
  cases x with
  | nan => exact absurd rfl h
  | inf neg => exact nofun
  | fin neg m => exact round_ne_nan _ _ _

end Fp

/-- The rounded squared magnitude, the argument of the logarithm in `log_power` (R155). -/
def Cpx.power (z : Cpx) : Fp := (z.re.mul z.re).add (z.im.mul z.im)

theorem logPower_eq (c : Config) (z : Cpx) : logPower c z = ln32 c z.power := rfl

theorem Cpx.unsigned_power (z : Cpx) : z.power.Unsigned := Fp.unsigned_add (Fp.unsigned_mul_self _) (Fp.unsigned_mul_self _)

/-- On patterns the squared magnitude is formed by the word operations, whatever the draws. -/
theorem Cpx.power_ofWord (q1 q2 q3 : BitVec 23) (re im : Word) :
    Fp.ofWord (fadd q1 (fmul q2 re re) (fmul q3 im im)) = ({ re := Fp.ofWord re, im := Fp.ofWord im } : Cpx).power := by
  rw [ofWord_fadd, ofWord_fmul, ofWord_fmul, Cpx.power]

theorem Cpx.power_of_re_inf {z : Cpx} {neg : Bool} (hre : z.re = .inf neg) (him : z.im ≠ .nan) : z.power = .inf false := by
  rw [Cpx.power, hre, Fp.inf_mul_self]
  exact Fp.inf_add_unsigned (Fp.unsigned_mul_self _) (Fp.mul_self_ne_nan him)

theorem Cpx.power_of_im_inf {z : Cpx} {neg : Bool} (him : z.im = .inf neg) (hre : z.re ≠ .nan) : z.power = .inf false := by
  rw [Cpx.power, Fp.add_comm]
  exact Cpx.power_of_re_inf (z := { re := z.im, im := z.re }) him hre

theorem Cpx.power_of_nan {z : Cpx} (h : z.re = .nan ∨ z.im = .nan) : z.power = .nan := by
  have hsquare : z.re.mul z.re = .nan ∨ z.im.mul z.im = .nan :=
    h.imp (fun h => by rw [h, Fp.nan_mul_self]) (fun h => by rw [h, Fp.nan_mul_self])
  obtain ⟨hadd, -⟩ := Fp.ops_nan hsquare
  exact hadd

/-- The squared magnitude of zeros of either sign is `+0.0`. -/
theorem Cpx.power_zeros (a b : Bool) : ({ re := .fin a 0, im := .fin b 0 } : Cpx).power = .zero := by
  cases a <;> cases b <;> decide

/-! ## LOGPOW -/

/-- `LOGPOW` answers with the log-power and draws anew. -/
theorem exec_logpow (re im : Word) (s : State) : exec (.logpow re im) s =
    .next (s.respond ((logPower s.cfg { re := Fp.ofWord re, im := Fp.ofWord im }).toWord (s.nanDraw 0)) true).nextDraws := rfl

/-- What `LOGPOW` answers where the squared magnitude is known. -/
theorem logpow_responds {re im : Word} {x : Fp} (s : State)
    (h : ({ re := Fp.ofWord re, im := Fp.ofWord im } : Cpx).power = x) :
    ∃ t, exec (.logpow re im) s = .next t ∧ t.rPort = s.rPort ++ [⟨(ln32 s.cfg x).toWord (s.nanDraw 0), true⟩] :=
  ⟨_, exec_logpow re im s, by rw [logPower_eq, h]; rfl⟩

/-- A response leaves every memory word alone. -/
theorem respond_sameWords (s : State) (w : Word) (last : Bool) (sp : Space) : SameWords s (s.respond w last) sp :=
  read_congr (by cases sp <;> rfl) rfl

end Sys2Proof.Machine
end

section
/-! PROOFS. The statements about the logarithm, `LOGPOW` and `BCOUNT` (43_bucketizer.md). -/

namespace Sys2Proof.Proofs
open Sys2Proof.Machine

/-- Settles O16, by the definition on the special operands, and on the others by the sign of a legal logarithm. -/
theorem logarithmSpecialValues : Obligations.LogarithmSpecialValues := by
  unfold Obligations.LogarithmSpecialValues
  exact fun c => ⟨ln32_nan c, fun _ => ln32_neg c, rfl, ln32_fin_zero c false, ln32_fin_zero c true, ln32_inf c, ln32_one c,
    fun _ => ln32_of_positive_pattern c⟩

/-- Settles O32: a sum of squares has no sign. -/
theorem logPowerIsTheLogarithmOfTheSquaredMagnitude : Obligations.LogPowerIsTheLogarithmOfTheSquaredMagnitude := by
  unfold Obligations.LogPowerIsTheLogarithmOfTheSquaredMagnitude
  intro c q1 q2 q3 re im
  have hsign := Cpx.unsigned_power { re := Fp.ofWord re, im := Fp.ofWord im }
  rw [Cpx.power_ofWord]
  refine ⟨logPower_eq c _, fun m h => ?_, fun h => ?_⟩
  · rw [h] at hsign
    cases hsign
  · rw [h] at hsign
    cases hsign

/-- Settles O34: each case fixes the squared magnitude, and the logarithm of that one is a special value. -/
theorem logpowCornerCases : Obligations.LogpowCornerCases := by
  unfold Obligations.LogpowCornerCases
  intro s
  refine ⟨logpow_responds s (x := .zero) (by decide), ?_, fun re im neg hre him => ?_, fun re im neg him hre => ?_,
    fun re im h => ?_, logpow_responds s (x := .zero) (by decide +kernel),
    logpow_responds s (x := .inf false) (by decide +kernel)⟩
  · have := logpow_responds (re := 0x3F800000#32) (im := 0#32) s (x := .one) (by decide)
    rwa [ln32_one, Fp.toWord_zero] at this
  · exact logpow_responds s (Cpx.power_of_re_inf hre him)
  · exact logpow_responds s (Cpx.power_of_im_inf him hre)
  · obtain ⟨t, hexec, hport⟩ := logpow_responds s (Cpx.power_of_nan h)
    exact ⟨t, _, hexec, hport, Fp.ofWord_quietNaN _⟩

/-- Settles O33: the command responds and draws anew. -/
theorem logpowRespondsWithTheLogPower : Obligations.LogpowRespondsWithTheLogPower := by
  unfold Obligations.LogpowRespondsWithTheLogPower
  intro re im s
  refine ⟨_, exec_logpow re im s, rfl, fun sp i => ?_, ?_⟩
  · rw [nextDraws_read]
    exact respond_sameWords s _ true sp i
  · simp [SameRegisters, SameCommandPorts, SameBuild]

/-- Settles O35: the command responds, and `M` is below `2^20`. -/
theorem bcountRespondsWithTheBinCount : Obligations.BcountRespondsWithTheBinCount := by
  unfold Obligations.BcountRespondsWithTheBinCount
  intro s
  have hfits : bucketCount s.cfg.h < 2 ^ 32 := by
    have := bucketCount_le s.cfg.h
    have := n_eq_two_mul_h s.cfg
    have := n_le s.cfg
    omega
  refine ⟨s.respond (BitVec.ofNat 32 (binCount s.cfg)) true, rfl, rfl, hfits, respond_sameWords s _ true, ?_⟩
  simp [SameRegisters, SameCommandPorts, SameBuild]

end Sys2Proof.Proofs
end

section
/-! SUPPORT. Bucket values, the denominator and their quotients (43_bucketizer.md R161, R163 to R166): what the accumulators end at,
what they read, and that rounding keeps a quotient of at most one within 1.0. -/

namespace Sys2Proof.Machine

namespace Fp

/-- Rounding does not exceed a magnitude of the format that the exact result does not exceed. -/
theorem nearest_le_held {num den b : Nat} (hd : 0 < den) (hb : Held b) (h : num ≤ b * den) : nearest num den ≤ b := by
  have hlow := lower_mul_add_rest num den
  have hup := upper_mul num den
  have hstep : 0 < den * spacing num den := Nat.mul_pos hd (Nat.pow_pos (by decide))
  have hle : lower num den ≤ b := Nat.le_of_mul_le_mul_right (by omega) hd
  rcases nearest_eq_lower_or_upper num den with ⟨hn, -⟩ | ⟨hn, hrest⟩
  · rwa [hn]
  · rcases held_not_between hb num den with hble | hupper
    · obtain rfl : b = lower num den := Nat.le_antisymm hble hle
      omega
    · rwa [hn]

/-- A quotient of unsigned finite values, the divisor not zero and at least the dividend, lies in `[+0.0, 1.0]`. -/
theorem div_inUnit {m k : Nat} (hk : 0 < k) (h : m ≤ k) : ((fin false m).div (fin false k)).InUnit := by
  obtain ⟨hheld, hlt⟩ := canonical_one
  have hle : nearest (m * 2 ^ 149) k ≤ 2 ^ 149 :=
    nearest_le_held hk hheld ((Nat.mul_le_mul_right _ h).trans_eq (Nat.mul_comm _ _))
  refine ⟨nearest (m * 2 ^ 149) k, ?_, hle⟩
  calc (fin false m).div (fin false k)
      = round false (m * 2 ^ 149) k := if_neg hk.ne'
    _ = fin false (nearest (m * 2 ^ 149) k) := if_pos (hle.trans_lt hlt)

theorem gt_eq_false_iff (a b : Fp) : a.gt b = false ↔ (a ≠ nan → b ≠ nan → a.key ≤ b.key) := by
  rw [← Bool.not_eq_true, gt_iff]
  simp only [not_and, not_lt]

/-- What is not greater than a number is not greater than anything from that number on. -/
theorem gt_eq_false_trans {a b c : Fp} (hb : b ≠ nan) (hab : a.gt b = false) (hbc : b.gt c = false) : a.gt c = false := by
  rw [gt_eq_false_iff] at hab hbc ⊢
  exact fun ha hc => (hab ha hb).trans (hbc hb hc)

/-- A value that stands above zero is positive: `+inf` or finite. -/
theorem pos_cases {x : Fp} (h : 0 < x.key) : x = inf false ∨ ∃ m, x = fin false m := by
  cases x with
  | nan => exact (lt_irrefl 0 h).elim
  | inf neg =>
    cases neg with
    | false => exact .inl rfl
    | true => exact absurd h (by decide)
  | fin neg m =>
    obtain ⟨rfl, -⟩ := fin_false_of_key_pos h
    exact .inr ⟨m, rfl⟩

end Fp

/-! ## The accumulator -/

section
variable (xs : List Fp) {start : Fp} (hs : start ≠ .nan)
include hs

theorem foldl_keepGreater_eq_or_mem : xs.foldl keepGreater start = start ∨ xs.foldl keepGreater start ∈ xs := by
  obtain ⟨hmem, -⟩ := foldl_keepGreater xs hs
  exact hmem

theorem foldl_keepGreater_ne_nan : xs.foldl keepGreater start ≠ .nan := by
  obtain ⟨-, hn, -⟩ := foldl_keepGreater xs hs
  exact hn

theorem start_not_gt_foldl_keepGreater : start.gt (xs.foldl keepGreater start) = false := by
  obtain ⟨-, -, hle, -⟩ := foldl_keepGreater xs hs
  exact (Fp.gt_eq_false_iff _ _).2 fun _ _ => hle

theorem mem_not_gt_foldl_keepGreater {x : Fp} (hx : x ∈ xs) : x.gt (xs.foldl keepGreater start) = false := by
  obtain ⟨-, -, -, hle⟩ := foldl_keepGreater xs hs
  exact hle x hx

end

/-- The accumulator stays at its start, or ends strictly above it: an equal value of another sign does not replace it. -/
theorem foldl_keepGreater_eq_or_lt (xs : List Fp) {start : Fp} (hs : start ≠ .nan) :
    xs.foldl keepGreater start = start ∨ start.key < (xs.foldl keepGreater start).key := by
  induction xs generalizing start with
  | nil => exact .inl rfl
  | cons x xs ih =>
    rw [List.foldl_cons, keepGreater]
    split
    next hgt =>
      obtain ⟨hx, -, hlt⟩ := (gt_iff _ _).1 hgt
      obtain ⟨-, -, hle, -⟩ := foldl_keepGreater xs hx
      exact .inr (hlt.trans_le hle)
    next => exact ih hs

theorem zero_ne_nan : Fp.zero ≠ .nan := nofun

theorem one_ne_nan : Fp.one ≠ .nan := nofun

variable (s : State)

/-! ## Bucket values -/

/-- A bucket value is `+0.0`, or a log-power of its span that stands above zero. -/
theorem bucketValue_cases (j : Nat) : s.bucketValue j = .zero ∨
    0 < (s.bucketValue j).key ∧ ∃ q, q ∈ span s.cfg j ∧ s.bucketValue j = logPower s.cfg (s.specEntry q) := by
  unfold State.bucketValue
  rcases foldl_keepGreater_eq_or_lt _ zero_ne_nan with hzero | hlt
  · exact .inl hzero
  · rcases foldl_keepGreater_eq_or_mem _ zero_ne_nan with hzero | hmem
    · exact .inl hzero
    · obtain ⟨q, hq, hval⟩ := List.mem_map.1 hmem
      exact .inr ⟨hlt, q, hq, hval.symm⟩

theorem bucketValue_ne_nan (j : Nat) : s.bucketValue j ≠ .nan :=
  foldl_keepGreater_ne_nan _ zero_ne_nan

theorem zero_not_gt_bucketValue (j : Nat) : Fp.gt .zero (s.bucketValue j) = false :=
  start_not_gt_foldl_keepGreater _ zero_ne_nan

theorem logPower_not_gt_bucketValue {j q : Nat} (h : q ∈ span s.cfg j) :
    (logPower s.cfg (s.specEntry q)).gt (s.bucketValue j) = false :=
  mem_not_gt_foldl_keepGreater _ zero_ne_nan (List.mem_map_of_mem h)

/-! ## The denominator -/

/-- The denominator is `1.0`, or a bucket value that stands above `1.0`. -/
theorem denominator_cases : s.denominator = .one ∨
    Fp.key .one < s.denominator.key ∧ ∃ j, j < binCount s.cfg ∧ s.denominator = s.bucketValue j := by
  unfold State.denominator
  rcases foldl_keepGreater_eq_or_lt _ one_ne_nan with hone | hlt
  · exact .inl hone
  · rcases foldl_keepGreater_eq_or_mem _ one_ne_nan with hone | hmem
    · exact .inl hone
    · obtain ⟨j, hj, hval⟩ := List.mem_map.1 hmem
      exact .inr ⟨hlt, j, List.mem_range.1 hj, hval.symm⟩

theorem denominator_ne_nan : s.denominator ≠ .nan := foldl_keepGreater_ne_nan _ one_ne_nan

theorem one_not_gt_denominator : Fp.gt .one s.denominator = false := start_not_gt_foldl_keepGreater _ one_ne_nan

theorem bucketValue_not_gt_denominator {j : Nat} (h : j < binCount s.cfg) : (s.bucketValue j).gt s.denominator = false :=
  mem_not_gt_foldl_keepGreater _ one_ne_nan (List.mem_map_of_mem (List.mem_range.2 h))

/-- Every covered bin lies in a span, so its log-power is not greater than the denominator either. -/
theorem logPower_not_gt_denominator {q : Nat} (hpos : 1 ≤ q) (hlt : q < s.cfg.h) :
    (logPower s.cfg (s.specEntry q)).gt s.denominator = false := by
  obtain ⟨j, hj, hq⟩ := exists_span hpos hlt
  exact Fp.gt_eq_false_trans (bucketValue_ne_nan s j) (logPower_not_gt_bucketValue s hq) (bucketValue_not_gt_denominator s hj)

/-- A denominator other than `1.0` is the log-power of a covered bin. -/
theorem denominator_eq_logPower {j : Nat} (hlt : Fp.key .one < s.denominator.key) (hj : s.denominator = s.bucketValue j) :
    ∃ q, 1 ≤ q ∧ q < s.cfg.h ∧ s.denominator = logPower s.cfg (s.specEntry q) := by
  rcases bucketValue_cases s j with hzero | ⟨-, q, hq, hval⟩
  · rw [hj, hzero] at hlt
    exact absurd hlt (by decide)
  · obtain ⟨hpos, hbin⟩ := bin_of_mem_span hq
    exact ⟨q, hpos, hbin, hj.trans hval⟩

/-! ## The quotients -/

/-- What `BUCKETIZE` leaves in `TGT`, on patterns. -/
theorem bucketizeStage_read_fdiv {j : Nat} (q1 q2 : BitVec 23) (hj : j < binCount s.cfg) : s.bucketizeStage.read .tgt j =
    fdiv (s.nanDraw j) ((s.bucketValue j).toWord q1) (s.denominator.toWord q2) := by
  rw [bucketizeStage_read s hj, fdiv, Fp.ofWord_toWord_canonical q1 (canonical_bucketValue s j),
    Fp.ofWord_toWord_canonical q2 (canonical_denominator s)]

/-- The value that `BUCKETIZE` leaves in `TGT`. -/
theorem bucketizeStage_readFp {j : Nat} (hj : j < binCount s.cfg) :
    s.bucketizeStage.readFp .tgt j = (s.bucketValue j).div s.denominator := by
  rw [State.readFp, bucketizeStage_read s hj, Fp.ofWord_toWord_canonical _ (Fp.canonical_div _ _)]

/-- Where no covered log-power is `+inf`, a bucket value is finite and unsigned. -/
theorem bucketValue_fin (h : ∀ q, 1 ≤ q → q < s.cfg.h → logPower s.cfg (s.specEntry q) ≠ .inf false) (j : Nat) :
    ∃ m, s.bucketValue j = .fin false m := by
  rcases bucketValue_cases s j with hzero | ⟨hpos, q, hq, hval⟩
  · exact ⟨0, hzero⟩
  · obtain ⟨hlo, hhi⟩ := bin_of_mem_span hq
    exact (Fp.pos_cases hpos).resolve_left (hval ▸ h q hlo hhi)

/-- So is the denominator, and it is not zero. -/
theorem denominator_fin (h : ∀ q, 1 ≤ q → q < s.cfg.h → logPower s.cfg (s.specEntry q) ≠ .inf false) :
    ∃ k, 0 < k ∧ s.denominator = .fin false k := by
  rcases denominator_cases s with hone | ⟨hlt, j, -, hval⟩
  · exact ⟨2 ^ 149, by decide, hone⟩
  · obtain ⟨k, hk⟩ := bucketValue_fin s h j
    refine ⟨k, Nat.pos_of_ne_zero ?_, hval.trans hk⟩
    rintro rfl
    rw [hval, hk] at hlt
    exact absurd hlt (by decide)

/-- The bucket that the denominator is taken from has the target `1.0`. -/
theorem bucketizeStage_read_one {j k : Nat} (hj : j < binCount s.cfg) (hval : s.denominator = s.bucketValue j) (hk : 0 < k)
    (hden : s.denominator = .fin false k) : s.bucketizeStage.read .tgt j = 0x3F800000#32 := by
  rw [bucketizeStage_read s hj, ← hval, hden, Fp.div_self_fin false hk.ne']
  exact (by decide : BitVec.ofNat 32 (Fp.signBit false + Fp.magBits (2 ^ 149)) = 0x3F800000#32)

/-! ## What they read -/

variable {s} {s' : State}

theorem bucketValue_congr (hcfg : s'.cfg = s.cfg) (h : ∀ q, 1 ≤ q → q < s.cfg.h → s'.specEntry q = s.specEntry q) (j : Nat) :
    s'.bucketValue j = s.bucketValue j := by
  have hmap : ((span s.cfg j).map fun q => logPower s.cfg (s'.specEntry q)) =
      (span s.cfg j).map fun q => logPower s.cfg (s.specEntry q) :=
    List.map_congr_left fun q hq => by
      obtain ⟨hlo, hhi⟩ := bin_of_mem_span hq
      rw [h q hlo hhi]
  rw [State.bucketValue, State.bucketValue, hcfg, hmap]

theorem denominator_congr (hcfg : s'.cfg = s.cfg) (h : ∀ q, 1 ≤ q → q < s.cfg.h → s'.specEntry q = s.specEntry q) :
    s'.denominator = s.denominator := by
  rw [State.denominator, State.denominator, State.bucketValues, State.bucketValues, hcfg, funext (bucketValue_congr hcfg h)]

/-- The log-power of an entry whose parts are zeros, of either sign, is `-inf`. -/
theorem logPower_zeros {c : Config} {z : Cpx} (h : ∃ a b, z = { re := .fin a 0, im := .fin b 0 }) : logPower c z = .inf true := by
  obtain ⟨a, b, rfl⟩ := h
  rw [logPower_eq, Cpx.power_zeros]
  exact ln32_fin_zero c false

theorem bucketValue_silence (h : ∀ q, 1 ≤ q → q < s.cfg.h → logPower s.cfg (s.specEntry q) = .inf true) (j : Nat) :
    s.bucketValue j = .zero := by
  refine (bucketValue_cases s j).resolve_right ?_
  rintro ⟨hpos, q, hq, hval⟩
  obtain ⟨hlo, hhi⟩ := bin_of_mem_span hq
  rw [hval, h q hlo hhi] at hpos
  exact absurd hpos (by decide)

theorem denominator_silence (h : ∀ q, 1 ≤ q → q < s.cfg.h → logPower s.cfg (s.specEntry q) = .inf true) :
    s.denominator = .one := by
  refine (denominator_cases s).resolve_right ?_
  rintro ⟨hlt, j, -, hval⟩
  rw [hval, bucketValue_silence h j] at hlt
  exact absurd hlt (by decide)

end Sys2Proof.Machine
end

section
/-! PROOFS. The statements about `BUCKETIZE` (43_bucketizer.md). -/

namespace Sys2Proof.Proofs
open Sys2Proof.Machine

/-- Settles O36, by what the accumulator ends at, started from `+0.0`. -/
theorem bucketValueIsTheGreatestLogPower : Obligations.BucketValueIsTheGreatestLogPower := by
  unfold Obligations.BucketValueIsTheGreatestLogPower
  exact fun s j => ⟨bucketValue_ne_nan s j, zero_not_gt_bucketValue s j, fun q => logPower_not_gt_bucketValue s,
    (bucketValue_cases s j).imp_right And.right⟩

/-- Settles O37: the accumulator is started from `1.0`, and every covered bin lies in the span of a bucket. -/
theorem denominatorIsTheGreatestBucketValue : Obligations.DenominatorIsTheGreatestBucketValue := by
  unfold Obligations.DenominatorIsTheGreatestBucketValue
  intro s
  refine ⟨denominator_ne_nan s, one_not_gt_denominator s, fun j => bucketValue_not_gt_denominator s,
    fun q => logPower_not_gt_denominator s, ?_⟩
  rcases denominator_cases s with hone | ⟨hlt, j, hj, hval⟩
  · exact .inl hone
  · exact .inr ⟨⟨j, hj, hval⟩, denominator_eq_logPower s hlt hval⟩

/-- Settles O38: the stage writes `TGT` as a whole and draws anew. -/
theorem bucketizeDividesByTheDenominator : Obligations.BucketizeDividesByTheDenominator := by
  unfold Obligations.BucketizeDividesByTheDenominator
  intro s
  refine ⟨s.bucketizeStage, rfl, fun j q1 q2 hj => bucketizeStage_read_fdiv s q1 q2 hj,
    fun sp hsp => bucketizeStage_read_space s hsp, ?_⟩
  simp [SameRegisters, SameCommandPorts, SameBuild]

/-- Settles O39: bucket values and denominator are finite, no bucket value is greater than the denominator, and rounding keeps a
quotient of at most one within 1.0; the bucket that the denominator is taken from has the quotient of equals. -/
theorem normalisedBucketsLieInTheUnitInterval : Obligations.NormalisedBucketsLieInTheUnitInterval := by
  unfold Obligations.NormalisedBucketsLieInTheUnitInterval
  intro s h
  obtain ⟨k, hk, hden⟩ := denominator_fin s h
  refine ⟨s.bucketizeStage, rfl, fun j hj => ?_, fun ⟨j, hj, hgt⟩ => ?_⟩
  · obtain ⟨m, hm⟩ := bucketValue_fin s h j
    have hle := (Fp.gt_eq_false_iff _ _).1 (bucketValue_not_gt_denominator s hj) (bucketValue_ne_nan s j) (denominator_ne_nan s)
    rw [hm, hden] at hle
    rw [bucketizeStage_readFp s hj, hm, hden]
    exact Fp.div_inUnit hk (Int.ofNat_le.1 hle)
  · rcases denominator_cases s with hone | ⟨-, j', hj', hval⟩
    · have hnot := bucketValue_not_gt_denominator s hj
      rw [hone, hgt] at hnot
      cases hnot
    · exact ⟨j', hj', bucketizeStage_read_one s hj' hval hk hden⟩

/-- Settles O40: the spans hold covered bins only, and everything else that the stage reads is the build and the draws. -/
theorem bucketizeReadsOnlyCoveredBins : Obligations.BucketizeReadsOnlyCoveredBins := by
  unfold Obligations.BucketizeReadsOnlyCoveredBins
  intro s s' hcfg hdraws h
  refine ⟨s.bucketizeStage, s'.bucketizeStage, rfl, rfl, fun j hj => ?_⟩
  rw [bucketizeStage_read s hj, bucketizeStage_read s' (hcfg ▸ hj), bucketValue_congr hcfg h, denominator_congr hcfg h,
    State.nanDraw, State.nanDraw, hdraws]

/-- Settles O41: the log-powers are `-inf`, so the bucket values stay at `+0.0` and the denominator at `1.0`. -/
theorem silenceGivesZeroTargets : Obligations.SilenceGivesZeroTargets := by
  unfold Obligations.SilenceGivesZeroTargets
  intro s hzeros
  have h : ∀ q, 1 ≤ q → q < s.cfg.h → logPower s.cfg (s.specEntry q) = .inf true := fun q hlo hhi =>
    logPower_zeros (hzeros q hlo hhi)
  refine ⟨s.bucketizeStage, rfl, fun j hj => ?_⟩
  rw [bucketizeStage_read s hj, bucketValue_silence h, denominator_silence h, show Fp.zero.div .one = .zero by decide,
    Fp.toWord_zero]

end Sys2Proof.Proofs
end

section
/-! SUPPORT. One smoothing step (44_smoother.md R176): where it leaves the bin as it is (R179), and where it gives a NaN (R178). -/

namespace Sys2Proof.Machine

namespace Fp

/-- Only the sign of a zero is lost in `value`. -/
theorem eq_fin_of_value {x : Fp} {s : Bool} {m : Nat} (hm : m ≠ 0) (h : x.value = (fin s m).value) : x = fin s m := by
  obtain ⟨r, k, rfl⟩ := fin_of_value h
  obtain ⟨hsign, rfl⟩ := fin.inj h
  simpa [hm] using hsign

/-- A zero of either sign, added to a finite value other than `-0.0`, leaves it as it is. -/
theorem add_of_zero {s : Bool} {m : Nat} {z : Fp} (hc : (fin s m).Canonical) (hne : fin s m ≠ fin true 0) (hz : z.value = .zero) :
    (fin s m).add z = fin s m := by
  obtain ⟨hheld, hlt⟩ := hc
  by_cases hm : m = 0
  · subst hm
    obtain rfl : s = false := Bool.eq_false_of_not_eq_true fun hs => hne (by rw [hs])
    obtain ⟨hadd, -⟩ := zero_add_of_zero hz
    exact hadd
  · exact eq_fin_of_value hm (add_zero_value hheld hlt rfl hz)

/-- `-0.0` has one pattern. -/
theorem ofWord_ne_neg_zero {w : Word} (h : w ≠ 0x80000000#32) : ofWord w ≠ fin true 0 := fun hw => h <|
  calc w = (ofWord w).toWord 0 := (toWord_ofWord 0 w (hw ▸ nofun)).symm
    _ = (fin true 0).toWord 0 := by rw [hw]
    _ = 0x80000000#32 := (by decide : BitVec.ofNat 32 (signBit true + magBits 0) = 0x80000000#32)

end Fp

/-- A legal `RATE` is finite (R10). -/
theorem isFinite_rate {c : Config} (h : c.legal = true) : isFinite c.rate := by
  obtain ⟨-, hlt⟩ := of_decide_eq_true h
  obtain ⟨m, hm, -⟩ := Fp.ofWord_eq_fin hlt
  exact ⟨false, m, hm⟩

/-- At its target, a finite bin other than `-0.0` stays: the difference is a zero, and so are its products. -/
theorem smooth_at_target {rate dt : Fp} {s : Bool} {m : Nat} (hrate : ∃ r k, rate = .fin r k) (hdt : ∃ r k, dt = .fin r k)
    (hc : (Fp.fin s m).Canonical) (hne : Fp.fin s m ≠ .fin true 0) : smooth rate dt (.fin s m) (.fin s m) = .fin s m := by
  have hdiff : ((Fp.fin s m).sub (.fin s m)).value = .zero := Fp.add_neg_value rfl rfl
  exact Fp.add_of_zero hc hne (Fp.zero_mul_value (Fp.zero_mul_value hdiff hrate) hdt)

/-- A NaN bin or a NaN `dt` makes the smoothed value a NaN. -/
theorem smooth_nan {rate dt current : Fp} (target : Fp) (h : current = .nan ∨ dt = .nan) : smooth rate dt current target = .nan := by
  have hproduct (hdt : dt = .nan) : ((target.sub current).mul rate).mul dt = .nan := by
    obtain ⟨-, -, hmul, -⟩ := Fp.ops_nan (x := (target.sub current).mul rate) (.inr hdt)
    exact hmul
  obtain ⟨hadd, -⟩ := Fp.ops_nan (h.imp_right hproduct)
  exact hadd

/-! ## ADVANCE and RDBIN -/

/-- What `ADVANCE` leaves in `BINS`, as operations on patterns. -/
theorem advanceStage_read_fadd (s : State) (dt : Word) (q1 q2 q3 : BitVec 23) {j : Nat} (hj : j < binCount s.cfg) :
    (s.advanceStage dt).read .bins j = fadd (s.nanDraw j) (s.read .bins j)
      (fmul q1 (fmul q2 (fsub q3 (s.read .tgt j) (s.read .bins j)) s.cfg.rate) dt) := by
  rw [advanceStage_read s dt hj, fadd, ofWord_fmul, ofWord_fmul, ofWord_fsub]
  rfl

/-- `RDBIN` of a bin that the build has answers with it. -/
theorem exec_rdbin_of_lt {j : Nat} {s : State} (h : j < binCount s.cfg) :
    exec (.rdbin j) s = .next (s.respond (s.read .bins j) true) := if_pos h

/-- `RDBIN` of any other bin is refused. -/
theorem exec_rdbin_of_le {j : Nat} {s : State} (h : binCount s.cfg ≤ j) :
    exec (.rdbin j) s = .refused (.rdbinIndexOutOfRange j) := if_neg h.not_gt

end Sys2Proof.Machine
end

section
/-! PROOFS. The statements about `ADVANCE` and `RDBIN` (44_smoother.md). -/

namespace Sys2Proof.Proofs
open Sys2Proof.Machine

/-- Settles O42: the stage writes `BINS` as a whole and draws anew. -/
theorem advanceIsFourRoundedOperations : Obligations.AdvanceIsFourRoundedOperations := by
  unfold Obligations.AdvanceIsFourRoundedOperations
  intro dt s
  refine ⟨s.advanceStage dt, rfl, fun j q1 q2 q3 hj => advanceStage_read_fadd s dt q1 q2 q3 hj,
    fun sp hsp => advanceStage_read_space s dt hsp, ?_⟩
  simp [SameRegisters, SameCommandPorts, SameBuild]

/-- Settles O43: at rest the smoothing step adds a zero to the bin, and a NaN operand passes through every operation. -/
theorem binsAtRestAndNaNBinsStay : Obligations.BinsAtRestAndNaNBinsStay := by
  unfold Obligations.BinsAtRestAndNaNBinsStay
  intro dt s hlegal
  refine ⟨s.advanceStage dt, rfl, fun j hj => ⟨fun hdt hfin hne htgt => ?_, fun hnan => ?_⟩⟩
  · obtain ⟨neg, m, hc⟩ := hfin
    have hstay := smooth_at_target (isFinite_rate hlegal) hdt (Fp.canonical_of_ofWord hc) (hc ▸ Fp.ofWord_ne_neg_zero hne)
    rw [advanceStage_read s dt hj, State.readFp, State.readFp, htgt, hc, hstay, ← hc]
    exact Fp.toWord_ofWord _ _ (hc ▸ nofun)
  · rw [advanceStage_read s dt hj, State.readFp, smooth_nan _ hnan]
    exact Fp.ofWord_quietNaN _

/-- Settles O44, by the two sides of the index check. -/
theorem rdbinRespondsOrIsRefused : Obligations.RdbinRespondsOrIsRefused := by
  unfold Obligations.RdbinRespondsOrIsRefused
  intro j s
  refine ⟨fun hj => ⟨s.respond (s.read .bins j) true, exec_rdbin_of_lt hj, rfl, respond_sameWords s _ true, ?_⟩, exec_rdbin_of_le⟩
  simp [SameRegisters, SameCommandPorts, SameBuild]

end Sys2Proof.Proofs
end

section
/-! SUPPORT. A command of `C` run by `C` alone (20_memory.md R52, 45_frame_driver.md R190): the step that fetches it, the read steps
of its snapshot one after another, and the last step of a `FRAME`. -/

namespace Sys2Proof.Machine

/-- The state with this `FRAME` in progress, if any, these beats at the C-port and these events to come. -/
def State.withDriver (s : State) (frame : Option Word) (beats : List Word) (events : List Event) : State :=
  { s with frameDt := frame, cPort := beats, schedule := events }

/-- What the snapshot, run by `C` alone, leaves: the latch step and `N` read steps (R113). -/
def State.takeSnapshot (s : State) : State := State.readSlot^[s.cfg.n] s.latch

/-- The state with the first `m` words of `BINS` as the whole response, `r_last` on the last (R190, R85). -/
def State.offerBins (s : State) (m : Nat) : State :=
  { s with rPort := (List.range m).map fun j => ⟨s.read .bins j, decide (j + 1 = m)⟩ }

/-- In a legal build, no snapshot is in progress, no response waits and no part of a command is taken: `C` takes the next command
unless a `FRAME` is in progress. -/
structure AtRest (s : State) : Prop where
  legal : s.cfg.legal = true
  sI : s.sI = s.cfg.n
  rPort : s.rPort = []
  cTaken : s.cTaken = []

variable {s : State}

/-- Being at rest is a matter of the build, `S_I`, the responses and the beats taken. -/
theorem AtRest.congr {t : State} (h : AtRest s) (hcfg : t.cfg = s.cfg) (hI : t.sI = s.sI) (hr : t.rPort = s.rPort)
    (htaken : t.cTaken = s.cTaken) : AtRest t :=
  ⟨hcfg ▸ h.legal, by rw [hI, hcfg, h.sI], hr.trans h.rPort, htaken.trans h.cTaken⟩

theorem AtRest.snapshotting (h : AtRest s) : s.snapshotting = false := decide_eq_false h.sI.not_lt

theorem AtRest.consumerIdle (h : AtRest s) (beats : List Word) (events : List Event) :
    (s.withDriver none beats events).consumerIdle = true :=
  (consumerIdle_iff _).2 ⟨h.snapshotting, rfl, h.rPort⟩

/-! ## One step -/

theorem step_withDriver (hl : s.cfg.legal = true) (frame : Option Word) (beats : List Word) (e : Event) (events : List Event) :
    step (s.withDriver frame beats (e :: events)) = (s.withDriver frame beats events).handle e :=
  step_cons (s := s.withDriver frame beats (e :: events)) hl rfl

/-- A step of `C` at rest executes the command at its port. -/
theorem AtRest.step_command (h : AtRest s) {i : Instr} {beats rest : List Word} (events : List Event)
    (hd : decode .consumer beats = .done i rest) :
    step (s.withDriver none beats (.consumer :: events)) = exec i (s.withDriver none rest events) := by
  have hfetch : decode .consumer (s.cTaken ++ beats) = .done i rest := by rw [h.cTaken, List.nil_append, hd]
  have hexec := handle_consumer_done (s := s.withDriver none beats events) (h.consumerIdle beats events) hfetch
  calc step (s.withDriver none beats (.consumer :: events))
      = (s.withDriver none beats events).handle .consumer := step_withDriver h.legal none beats .consumer events
    _ = exec i { s.withDriver none rest events with cTaken := [] } := hexec
    _ = exec i (s.withDriver none rest events) := by rw [← h.cTaken]; rfl

/-- With words left to copy, a step of `C` copies one. -/
theorem step_reads (hl : s.cfg.legal = true) (hI : s.sI < s.cfg.n) (frame : Option Word) (beats : List Word)
    (events : List Event) :
    step (s.withDriver frame beats (.consumer :: events)) = .next (s.readSlot.withDriver frame beats events) :=
  (step_withDriver hl frame beats .consumer events).trans
    (handle_consumer_snapshotting (s := s.withDriver frame beats events) (decide_eq_true hI))

/-! The later stages do not look at what drives `C`, and keep it. -/

theorem windowStage_withDriver (s : State) (frame : Option Word) (beats : List Word) (events : List Event) :
    (s.withDriver frame beats events).windowStage = s.windowStage.withDriver frame beats events := rfl
theorem fftStage_withDriver (s : State) (frame : Option Word) (beats : List Word) (events : List Event) :
    (s.withDriver frame beats events).fftStage = s.fftStage.withDriver frame beats events := rfl
theorem bucketizeStage_withDriver (s : State) (frame : Option Word) (beats : List Word) (events : List Event) :
    (s.withDriver frame beats events).bucketizeStage = s.bucketizeStage.withDriver frame beats events := rfl
theorem advanceStage_withDriver (s : State) (dt : Word) (frame : Option Word) (beats : List Word) (events : List Event) :
    (s.withDriver frame beats events).advanceStage dt = (s.advanceStage dt).withDriver frame beats events := rfl
theorem laterStages_withDriver (s : State) (dt : Word) (frame : Option Word) (beats : List Word) (events : List Event) :
    (s.withDriver frame beats events).laterStages dt = (s.laterStages dt).withDriver frame beats events := by
  simp only [State.laterStages, windowStage_withDriver, fftStage_withDriver, bucketizeStage_withDriver, advanceStage_withDriver]

theorem laterStages_read_ring (s : State) (dt : Word) : SameWords s (s.laterStages dt) .ring :=
  read_congr (laterStages_ring s dt) (laterStages_epoch s dt)

theorem laterStages_read_snap (s : State) (dt : Word) : SameWords s (s.laterStages dt) .snap :=
  read_congr (laterStages_snap s dt) (laterStages_epoch s dt)

/-- `FRAME` completes with the response of `BINS`. -/
theorem endFrame_withDriver (hr : s.rPort = []) (frame : Option Word) (beats : List Word) (events : List Event) :
    (s.withDriver frame beats events).endFrame = (s.withDriver none beats events).offerBins (binCount s.cfg) := by
  have hresponse : (s.withDriver frame beats events).rPort = [] := hr
  rw [State.endFrame, State.respondAll, hresponse]
  rfl

/-- With its snapshot done, a step of `C` ends the `FRAME`. -/
theorem AtRest.step_ends_frame (h : AtRest s) (dt : Word) (beats : List Word) (events : List Event) :
    step (s.withDriver (some dt) beats (.consumer :: events)) =
      .next (((s.laterStages dt).withDriver none beats events).offerBins (binCount s.cfg)) := by
  have htail : step (s.withDriver (some dt) beats (.consumer :: events)) =
      .next ((s.withDriver (some dt) beats events).frameTail dt) :=
    (step_withDriver h.legal (some dt) beats .consumer events).trans
      (handle_consumer_frame (s := s.withDriver (some dt) beats events) h.snapshotting rfl)
  rw [htail, State.frameTail, laterStages_withDriver, endFrame_withDriver ((laterStages_rPort s dt).trans h.rPort),
    laterStages_cfg]

/-! ## The snapshot -/

/-- Read steps leave the build, the responses and the beats taken alone, and count up. -/
theorem readSlots_frame (s : State) (k : Nat) :
    (State.readSlot^[k] s).cfg = s.cfg ∧ (State.readSlot^[k] s).sI = s.sI + k ∧
      (State.readSlot^[k] s).rPort = s.rPort ∧ (State.readSlot^[k] s).cTaken = s.cTaken := by
  induction k with
  | zero => exact ⟨rfl, rfl, rfl, rfl⟩
  | succ k ih =>
    obtain ⟨hcfg, hI, hr, htaken⟩ := ih
    rw [Function.iterate_succ_apply']
    exact ⟨hcfg, congrArg (· + 1) hI, hr, htaken⟩

theorem takeSnapshot_cfg (s : State) : s.takeSnapshot.cfg = s.cfg := by
  obtain ⟨hcfg, -⟩ := readSlots_frame s.latch s.cfg.n
  exact hcfg

/-- After its snapshot `C` is at rest again. -/
theorem AtRest.takeSnapshot (h : AtRest s) : AtRest s.takeSnapshot := by
  obtain ⟨hcfg, hI, hr, htaken⟩ := readSlots_frame s.latch s.cfg.n
  refine h.congr hcfg ?_ hr htaken
  rw [State.takeSnapshot, hI, h.sI, latch_sI, Nat.zero_add]

/-- Steps of `C` copy one word each. -/
theorem run_reads (hl : s.cfg.legal = true) {k : Nat} (hk : s.sI + k ≤ s.cfg.n) (frame : Option Word) (beats : List Word)
    (events : List Event) :
    Host.Core.run Sys2Proof.core k (s.withDriver frame beats (List.replicate k .consumer ++ events)) =
      .next ((State.readSlot^[k] s).withDriver frame beats events) := by
  induction k generalizing s with
  | zero => rfl
  | succ k ih =>
    have hstep := step_reads hl (by omega) frame beats (List.replicate k .consumer ++ events)
    exact (run_succ hstep).trans (ih (s := s.readSlot) hl (by rw [readSlot_sI, readSlot_cfg]; omega))

/-- A command whose first step is the latch step, and its read steps. -/
theorem AtRest.run_snapshot (h : AtRest s) {i : Instr} {frame : Option Word} {beats rest : List Word}
    (hd : decode .consumer beats = .done i rest)
    (hx : ∀ events, exec i (s.withDriver none rest events) = .next (s.latch.withDriver frame rest events))
    (events : List Event) :
    Host.Core.run Sys2Proof.core (s.cfg.n + 1)
        (s.withDriver none beats (.consumer :: (List.replicate s.cfg.n .consumer ++ events))) =
      .next (s.takeSnapshot.withDriver frame rest events) :=
  (run_succ ((h.step_command _ hd).trans (hx _))).trans
    (run_reads (s := s.latch) h.legal (Nat.zero_add _).le frame rest events)

/-! ## FRAME and the pipeline -/

/-- A run from a command at the port goes on where the command leads. -/
theorem AtRest.run_command (h : AtRest s) {i : Instr} {rest : List Word} {events : List Event} {t : State}
    (hd : decode .consumer (encode i ++ rest) = .done i rest) (hx : exec i (s.withDriver none rest events) = .next t) (k : Nat) :
    Host.Core.run Sys2Proof.core (k + 1) (s.withDriver none (encode i ++ rest) (.consumer :: events)) =
      Host.Core.run Sys2Proof.core k t :=
  run_succ ((h.step_command events hd).trans hx)

theorem AtRest.laterStages (h : AtRest s) (dt : Word) : AtRest (s.laterStages dt) :=
  h.congr (laterStages_cfg s dt) (laterStages_sI s dt) (laterStages_rPort s dt) (laterStages_cTaken s dt)

/-- `FRAME dt`, run by `C` alone (R190). -/
theorem AtRest.run_frame (h : AtRest s) (dt : Word) (rest : List Word) (later : List Event) :
    Host.Core.run Sys2Proof.core (s.cfg.n + 2)
        (s.withDriver none (encode (.frame dt) ++ rest) (List.replicate (s.cfg.n + 2) .consumer ++ later)) =
      .next (((s.takeSnapshot.laterStages dt).withDriver none rest later).offerBins (binCount s.cfg)) := by
  have hsnap := h.run_snapshot (i := .frame dt) (frame := some dt) (beats := encode (.frame dt) ++ rest) rfl (fun _ => rfl)
    (.consumer :: later)
  rw [List.append_cons, ← List.replicate_succ', ← List.cons_append, ← List.replicate_succ] at hsnap
  have hlast := h.takeSnapshot.step_ends_frame dt rest later
  rw [takeSnapshot_cfg] at hlast
  exact (run_add (k := 1) hsnap).trans (run_succ (k := 0) hlast)

/-- The four commands after `SNAPSHOT` are the later stages (R190). -/
theorem AtRest.run_stages (h : AtRest s) (dt : Word) (rest : List Word) (later : List Event) :
    Host.Core.run Sys2Proof.core 4
        (s.withDriver none (encode .window ++ (encode .fft ++ (encode .bucketize ++ (encode (.advance dt) ++ rest))))
          (List.replicate 4 .consumer ++ later)) =
      .next ((s.laterStages dt).withDriver none rest later) := by
  have hw : AtRest s.windowStage := h.congr rfl rfl rfl rfl
  have hf : AtRest s.windowStage.fftStage := hw.congr rfl rfl rfl rfl
  have hb : AtRest s.windowStage.fftStage.bucketizeStage := hf.congr rfl rfl rfl rfl
  have hwindow (beats events) := h.run_command (i := .window) rfl
    (congrArg Host.Outcome.next (windowStage_withDriver s none beats events)) 3
  have hfft (beats events) := hw.run_command (i := .fft) rfl
    (congrArg Host.Outcome.next (fftStage_withDriver s.windowStage none beats events)) 2
  have hbucketize (beats events) := hf.run_command (i := .bucketize) rfl
    (congrArg Host.Outcome.next (bucketizeStage_withDriver s.windowStage.fftStage none beats events)) 1
  have hadvance := hb.run_command (i := .advance dt) rfl
    (congrArg Host.Outcome.next (advanceStage_withDriver s.windowStage.fftStage.bucketizeStage dt none rest later)) 0
  exact (hwindow _ _).trans ((hfft _ _).trans ((hbucketize _ _).trans hadvance))

/-- `SNAPSHOT; WINDOW; FFT; BUCKETIZE; ADVANCE dt`, run by `C` alone (R190). -/
theorem AtRest.run_pipe (h : AtRest s) (dt : FloatLit) (rest : List Word) (later : List Event) :
    Host.Core.run Sys2Proof.core (s.cfg.n + 5)
        (s.withDriver none ((assemble (.pipe dt)).2 ++ rest) (List.replicate (s.cfg.n + 5) .consumer ++ later)) =
      .next ((s.takeSnapshot.laterStages dt.word).withDriver none rest later) := by
  have hsnap := h.run_snapshot (i := .snapshot) (frame := none) (beats := (assemble (.pipe dt)).2 ++ rest) rfl (fun _ => rfl)
    (List.replicate 4 .consumer ++ later)
  rw [← List.append_assoc, List.replicate_append_replicate, ← List.cons_append, ← List.replicate_succ] at hsnap
  exact (run_add hsnap).trans (h.takeSnapshot.run_stages dt.word rest later)

end Sys2Proof.Machine
end

section
/-! SUPPORT. Silence through the stages of `FRAME` (45_frame_driver.md R192): `+0.0` in `SNAP` and `BINS` gives `+0.0` in every space
that the stages write. -/

namespace Sys2Proof.Machine

/-- Every entry of the window table is finite and not negative, in every build (H1, H3). -/
theorem hann_eq_fin {c : Config} {i : Nat} (hi : i < c.n) : ∃ m, hann c i = .fin false m := by
  have hshape := windowShape_hann c
  have hn := n_eq_two_mul_h c
  by_cases hfirst : i = 0
  · rw [hfirst]
    exact ⟨0, hshape.first⟩
  · by_cases hlast : i = c.n - 1
    · rw [hlast]
      exact ⟨0, hshape.last⟩
    · obtain ⟨m, -, hm⟩ := hshape.inner (by omega) i (by omega) (by omega)
      exact ⟨m, hm⟩

/-- `+0.0` times a finite value that is not negative is `+0.0`. -/
theorem Fp.zero_mul_fin_false (m : Nat) : Fp.zero.mul (.fin false m) = .zero :=
  calc Fp.round false (0 * m) (2 ^ 149) = Fp.round false 0 (2 ^ 149) := by rw [Nat.zero_mul]
    _ = .zero := Fp.round_false_zero _

theorem Fp.ofWord_zero_word : Fp.ofWord 0#32 = .zero := by decide

/-- Every word of the space is `+0.0`. -/
def Silent (s : State) (sp : Space) : Prop := ∀ i, i < spaceSize s.cfg sp → s.read sp i = 0#32

variable {s : State}

theorem Silent.congr {t : State} {sp : Space} (h : Silent s sp) (hcfg : t.cfg = s.cfg) (hread : SameWords s t sp) :
    Silent t sp := fun i hi => (hread i).trans (h i (hcfg ▸ hi))

/-- A silent snapshot gives a silent frame (R192). -/
theorem windowStage_silent (h : Silent s .snap) : Silent s.windowStage .frm := by
  intro i (hi : i < s.cfg.n)
  obtain ⟨m, hm⟩ := hann_eq_fin hi
  rw [windowStage_read s hi, State.readFp, h i hi, Fp.ofWord_zero_word, hm, Fp.zero_mul_fin_false, Fp.toWord_zero]

/-- A silent frame gives a silent spectrum (R146). -/
theorem fftStage_silent (h : Silent s .frm) : Silent s.fftStage .spec := fun _ => fftStage_read_silence h

/-- A silent spectrum gives silent targets (R165). -/
theorem bucketizeStage_silent (h : Silent s .spec) : Silent s.bucketizeStage .tgt := by
  have hn := n_eq_two_mul_h s.cfg
  have hword : ∀ i, i < 2 * s.cfg.n → s.readFp .spec i = .fin false 0 := fun i hi => by
    rw [State.readFp, h i hi, Fp.ofWord_zero_word, Fp.zero]
  obtain ⟨t, ht, hzero⟩ := Proofs.silenceGivesZeroTargets s fun q _ hq =>
    ⟨false, false, by rw [State.specEntry, hword _ (by omega), hword _ (by omega)]⟩
  cases ht
  exact hzero

/-- Silent bins with silent targets stay silent, for finite `dt` (R179). -/
theorem advanceStage_silent (hl : s.cfg.legal = true) {dt : Word} (hdt : isFinite dt) (htgt : Silent s .tgt)
    (hbins : Silent s .bins) : Silent (s.advanceStage dt) .bins := by
  obtain ⟨t, ht, hstay⟩ := Proofs.binsAtRestAndNaNBinsStay dt s hl
  cases ht
  intro j (hj : j < binCount s.cfg)
  obtain ⟨hrest, -⟩ := hstay j hj
  have hzero : s.read .bins j = 0#32 := hbins j hj
  rw [hzero, htgt j hj] at hrest
  exact hrest hdt ⟨false, 0, Fp.ofWord_zero_word⟩ (by decide) rfl

/-- Silence in what the later stages read first, and in `RING`, gives silence in every space, whatever `FRM`, `SPEC` and `TGT` held
(R192). -/
theorem laterStages_silent (hl : s.cfg.legal = true) {dt : Word} (hdt : isFinite dt) (hring : Silent s .ring)
    (hsnap : Silent s .snap) (hbins : Silent s .bins) (sp : Space) : Silent (s.laterStages dt) sp := by
  have hfrm := windowStage_silent hsnap
  have hspec := fftStage_silent hfrm
  have htgt := bucketizeStage_silent hspec
  have hcfg : s.windowStage.fftStage.bucketizeStage.cfg = s.cfg := by simp
  have hbins' : Silent s.windowStage.fftStage.bucketizeStage .bins := hbins.congr hcfg fun j => by
    rw [bucketizeStage_read_space _ (by decide), fftStage_read_space _ (by decide), windowStage_read_space _ (by decide)]
  cases sp with
  | ring => exact hring.congr (laterStages_cfg s dt) (laterStages_read_ring s dt)
  | snap => exact hsnap.congr (laterStages_cfg s dt) (laterStages_read_snap s dt)
  | frm =>
    refine hfrm.congr (by simp) fun i => ?_
    rw [State.laterStages, advanceStage_read_space _ _ (by decide), bucketizeStage_read_space _ (by decide),
      fftStage_read_space _ (by decide)]
  | spec =>
    refine hspec.congr (by simp) fun i => ?_
    rw [State.laterStages, advanceStage_read_space _ _ (by decide), bucketizeStage_read_space _ (by decide)]
  | tgt => exact htgt.congr (by simp) (advanceStage_read_space _ dt (by decide))
  | bins => exact advanceStage_silent (by rwa [hcfg]) hdt htgt hbins'

/-! ## The snapshot -/

theorem withDriver_read (s : State) (frame : Option Word) (beats : List Word) (events : List Event) (sp : Space) (i : Nat) :
    (s.withDriver frame beats events).read sp i = s.read sp i :=
  read_congr (by cases sp <;> rfl) rfl i

theorem offerBins_read (s : State) (m : Nat) (sp : Space) (i : Nat) : (s.offerBins m).read sp i = s.read sp i :=
  read_congr (by cases sp <;> rfl) rfl i

/-- With both cursors equal, a snapshot run by `C` alone copies the ring and nothing else: the quiescent snapshot (R62). -/
theorem AtRest.takeSnapshot_read (hrest : AtRest s) (h : s.Inv) (hdt : s.frameDt = none) (hC : s.headC = s.head) :
    (∀ i, i < s.cfg.n → s.takeSnapshot.read .snap i = s.read .ring ((s.head + s.cfg.n - i) % s.cfg.n)) ∧
      ∀ sp, sp ≠ .snap → SameWords s s.takeSnapshot sp := by
  have hinv (events : List Event) : (s.withDriver none (encode .snapshot) events).Inv := by
    rw [State.withDriver, ← hdt]
    exact inv_of_host_fields h _ _ _ _ _
  obtain ⟨t, hrun, hcopied, -, -, hothers, -⟩ := Proofs.quiescentSnapshotIsExact _ .snapshot [] (List.replicate s.cfg.n .consumer)
    [] (hinv _) hC (.inl rfl) ⟨hrest.consumerIdle _ _, hrest.cTaken, rfl⟩ rfl List.count_replicate_self (by simp) (by simp)
  have hdone := hrest.run_snapshot (i := .snapshot) (frame := none) (beats := encode .snapshot) rfl (fun _ => rfl) []
  rw [List.length_replicate, Nat.add_comm, hdone] at hrun
  obtain rfl := Host.Outcome.next.inj hrun
  simp only [SameWords, withDriver_read] at hcopied hothers
  exact ⟨hcopied, hothers⟩

/-- A snapshot of a silent ring is silent, and leaves the other spaces as they are (R192). -/
theorem AtRest.takeSnapshot_silent (hrest : AtRest s) (h : s.Inv) (hdt : s.frameDt = none) (hC : s.headC = s.head)
    (hring : Silent s .ring) : Silent s.takeSnapshot .snap ∧ ∀ sp, sp ≠ .snap → Silent s sp → Silent s.takeSnapshot sp := by
  obtain ⟨hcopied, hothers⟩ := hrest.takeSnapshot_read h hdt hC
  have hcfg := takeSnapshot_cfg s
  refine ⟨fun i hi => ?_, fun sp hsp hsilent => hsilent.congr hcfg (hothers sp hsp)⟩
  rw [hcfg] at hi
  exact (hcopied i hi).trans (hring _ (Nat.mod_lt _ (n_pos _)))

end Sys2Proof.Machine
end

section
/-! PROOFS. The statements about the frame sequencer (45_frame_driver.md). -/

namespace Sys2Proof.Proofs
open Sys2Proof.Machine

/-- Settles O46: both parts by the later stages, which do not look at the `FRAME` in progress; run by `C` alone, `FRAME` and the five
commands share the snapshot as well. -/
theorem frameIsThePipeline : Obligations.FrameIsThePipeline := by
  unfold Obligations.FrameIsThePipeline
  refine ⟨fun s dt later h hsch hI hdt => ?_, fun s dt rest later h hidle => ?_⟩
  · have hbusy : s.consumerIdle = false := by simp [State.consumerIdle, hdt]
    have hrest : AtRest s := ⟨h.legal, hI, h.rPort_busy (.inr (by simp [hdt])), h.cTaken_busy hbusy⟩
    have hdriven : s.withDriver (some dt) s.cPort (.consumer :: later) = s := by rw [State.withDriver, ← hdt, ← hsch]
    have hstep := hrest.step_ends_frame dt s.cPort later
    rw [hdriven, ← laterStages_withDriver] at hstep
    refine ⟨_, _, _, (s.withDriver none s.cPort later).laterStages dt, rfl, rfl, rfl, rfl, hstep,
      laterStages_frameDt _ dt, ?_, fun i => (laterStages_read_snap _ dt i).trans (read_congr rfl rfl i), ?_⟩
    · simp [SameProducerPart, State.withDriver]
    · simp [SameRegisters, SameCommandPorts, State.withDriver]
  · obtain ⟨hsnap, hdt, hr⟩ := (consumerIdle_iff s).1 hidle
    have hrest : AtRest { s with cTaken := [] } := ⟨h.legal, h.sI_le.antisymm (Nat.not_lt.1 (of_decide_eq_false hsnap)), hr, rfl⟩
    have hpipe := hrest.run_pipe (.bits dt) rest later
    have hframe := hrest.run_frame dt rest later
    rw [State.withDriver, ← hdt] at hpipe hframe
    exact ⟨_, hpipe, (hrest.takeSnapshot.laterStages dt).rPort, hframe⟩

/-- Settles O47: `RING` and `BINS` are silent after reset, the snapshot copies the silent ring, and the later stages keep silence. -/
theorem firstFrameAfterResetIsZero : Obligations.FirstFrameAfterResetIsZero := by
  unfold Obligations.FirstFrameAfterResetIsZero
  intro c epoch dt later hl hdt
  have hrest : AtRest (State.initial c epoch) := ⟨hl, rfl, rfl, rfl⟩
  have hring : Silent (State.initial c epoch) .ring := fun _ _ => rfl
  have hbins : Silent (State.initial c epoch) .bins := fun _ _ => rfl
  obtain ⟨hsnap, hkeep⟩ := hrest.takeSnapshot_silent (inv_initial epoch hl) rfl rfl hring
  have hsilent := laterStages_silent hrest.takeSnapshot.legal hdt (hkeep .ring (by decide) hring) hsnap
    (hkeep .bins (by decide) hbins)
  have hcfg : ((State.initial c epoch).takeSnapshot.laterStages dt).cfg = c :=
    (laterStages_cfg _ dt).trans (takeSnapshot_cfg _)
  simp only [Silent, hcfg] at hsilent
  refine ⟨_, hrest.run_frame dt [] later, List.map_congr_left fun j hj => ?_, fun sp i hi => ?_⟩
  · rw [withDriver_read, hsilent .bins j (List.mem_range.1 hj)]
    rfl
  · rw [offerBins_read, withDriver_read, hsilent sp i hi]

/-- Settles O45: the latch step with `dt` kept. -/
theorem frameLatchesTheCursor : Obligations.FrameLatchesTheCursor := by
  unfold Obligations.FrameLatchesTheCursor
  intro dt s
  refine ⟨{ s.latch with frameDt := some dt }, rfl, rfl, rfl, rfl, fun sp => read_congr (by cases sp <;> rfl) rfl, ?_⟩
  simp [SameCommandPorts, SameBuild]

end Sys2Proof.Proofs
end

section
/-! SUPPORT. How a step can stop (60_exceptions.md R203): for each event, either it gives a next state or it is refused for one of the
host's errors. -/

namespace Sys2Proof.Machine

/-- Taking the next event off the schedule makes `C` neither idle nor busy. -/
@[simp] theorem nextEvent_consumerIdle (s : State) : s.nextEvent.2.consumerIdle = s.consumerIdle := by
  simp [State.consumerIdle, State.snapshotting]

/-- A command completes, or it is `RDBIN` with an index past the last bin. -/
theorem exec_completes_or_rdbin (i : Instr) (s : State) : (∃ t, exec i s = .next t) ∨
    ∃ j, i = .rdbin j ∧ binCount s.cfg ≤ j ∧ exec i s = .refused (.rdbinIndexOutOfRange j) := by
  cases i with
  | rdbin j =>
    rcases lt_or_ge j (binCount s.cfg) with hlt | hle
    · exact .inl ⟨_, exec_rdbin_of_lt hlt⟩
    · exact .inr ⟨j, rfl, hle, exec_rdbin_of_le hle⟩
  | write count => exact .inl ⟨_, rfl⟩
  | snapshot => exact .inl ⟨_, rfl⟩
  | window => exact .inl ⟨_, rfl⟩
  | fft => exact .inl ⟨_, rfl⟩
  | bucketize => exact .inl ⟨_, rfl⟩
  | advance dt => exact .inl ⟨_, rfl⟩
  | frame dt => exact .inl ⟨_, rfl⟩
  | bcount => exact .inl ⟨_, rfl⟩
  | logpow re im => exact .inl ⟨_, rfl⟩

/-- A step of `P` stops only at a reserved word: the one command of its port always completes. -/
theorem producer_next_or_reserved (s : State) : (∃ t, s.handle .producer = .next t) ∨
    (s.pLeft = 0 ∧ ∃ w, decode .producer (s.pTaken ++ s.pPort) = .reserved w ∧
      s.handle .producer = .refused (.reservedEncoding .producer w)) := by
  rcases handle_producer_cases s with ⟨-, hs⟩ | ⟨-, i, rest, hd, hs⟩ | ⟨-, -, hs⟩ | hreserved
  · exact .inl ⟨_, hs⟩
  · obtain ⟨count, rfl, -⟩ := decode_producer_done hd
    exact .inl ⟨_, hs⟩
  · exact .inl ⟨_, hs⟩
  · exact .inr hreserved

/-- A step of `C` stops only between commands: at a reserved word, or at an `RDBIN` whose index is out of range. -/
theorem consumer_next_or_refused (s : State) : (∃ t, s.handle .consumer = .next t) ∨
    (s.consumerIdle = true ∧ ∃ w, decode .consumer (s.cTaken ++ s.cPort) = .reserved w ∧
      s.handle .consumer = .refused (.reservedEncoding .consumer w)) ∨
    (s.consumerIdle = true ∧ ∃ j rest, binCount s.cfg ≤ j ∧
      decode .consumer (s.cTaken ++ s.cPort) = .done (.rdbin j) rest ∧
      s.handle .consumer = .refused (.rdbinIndexOutOfRange j)) := by
  rcases handle_consumer_cases s with ⟨-, hs⟩ | ⟨-, dt, -, hs⟩ | ⟨-, -, -, hs⟩ | ⟨hi, i, rest, hd, hs⟩ | ⟨-, -, hs⟩ | hreserved
  · exact .inl ⟨_, hs⟩
  · exact .inl ⟨_, hs⟩
  · exact .inl ⟨_, hs⟩
  · rcases exec_completes_or_rdbin i { s with cTaken := [], cPort := rest } with ⟨t, ht⟩ | ⟨j, rfl, hj, hrefused⟩
    · exact .inl ⟨t, hs.trans ht⟩
    · exact .inr (.inr ⟨hi, j, rest, hj, hd, hs.trans hrefused⟩)
  · exact .inl ⟨_, hs⟩
  · exact .inr (.inl hreserved)

/-- The host's reset is refused only when one side comes alone (R222). -/
theorem hostReset_next_or_alone (s : State) (p c : Bool) : (∃ t, s.hostReset p c = .next t) ∨
    ((p = true ∧ c = false ∨ p = false ∧ c = true) ∧ s.hostReset p c = .refused .resetsNotTogether) := by
  cases p <;> cases c
  · exact .inl ⟨s, rfl⟩
  · exact .inr ⟨.inr ⟨rfl, rfl⟩, rfl⟩
  · exact .inr ⟨.inl ⟨rfl, rfl⟩, rfl⟩
  · exact .inl ⟨s.resetBoth, rfl⟩

end Sys2Proof.Machine
end

section
/-! PROOFS. The statement about the host's errors (60_exceptions.md). -/

namespace Sys2Proof.Proofs
open Sys2Proof.Machine

/-- Settles O60, by the event: the agents stop only as their own step lemmas say, the host only by one reset alone. Of the invariant
only the legal build is needed. -/
theorem onlyHostErrorsStop : Obligations.OnlyHostErrorsStop := by
  unfold Obligations.OnlyHostErrorsStop
  intro s h
  rw [step_legal h.legal]
  cases s.nextEvent.1 with
  | producer =>
    have hcases := producer_next_or_reserved s.nextEvent.2
    simp only [nextEvent_pLeft, nextEvent_pTaken, nextEvent_pPort] at hcases
    rcases hcases with hnext | ⟨hidle, hreserved⟩
    · exact .inl hnext
    · exact .inr (.inl ⟨rfl, hidle, hreserved⟩)
  | consumer =>
    have hcases := consumer_next_or_refused s.nextEvent.2
    simp only [nextEvent_consumerIdle, nextEvent_cTaken, nextEvent_cPort, nextEvent_cfg] at hcases
    rcases hcases with hnext | ⟨hidle, hreserved⟩ | ⟨hidle, hrdbin⟩
    · exact .inl hnext
    · exact .inr (.inr (.inl ⟨rfl, hidle, hreserved⟩))
    · exact .inr (.inr (.inr (.inl ⟨rfl, hidle, hrdbin⟩)))
  | reset p c =>
    rcases hostReset_next_or_alone s.nextEvent.2 p c with hnext | ⟨⟨rfl, rfl⟩ | ⟨rfl, rfl⟩, hrefused⟩
    · exact .inl hnext
    · exact .inr (.inr (.inr (.inr ⟨.inl rfl, hrefused⟩)))
    · exact .inr (.inr (.inr (.inr ⟨.inr rfl, hrefused⟩)))
  | sync => exact .inl ⟨_, rfl⟩
  | presentP beat => exact .inl ⟨_, rfl⟩
  | presentC beat => exact .inl ⟨_, rfl⟩
  | acceptR => exact .inl ⟨_, rfl⟩

end Sys2Proof.Proofs
end

section
/-! SUPPORT. What the host's resets do (70_reset_and_hazards.md R222): both lead to the reset state, one alone is refused. -/

namespace Sys2Proof.Machine

/-- Both resets give the reset state, and are never refused. -/
theorem handle_reset_both (s : State) : s.handle (.reset true true) = .next s.resetBoth := rfl

/-- One reset without the other is refused, whichever it is. -/
theorem handle_reset_alone (s : State) {p c : Bool} (h : p ≠ c) : s.handle (.reset p c) = .refused .resetsNotTogether := by
  cases p <;> cases c
  · exact absurd rfl h
  · rfl
  · rfl
  · exact absurd rfl h

end Sys2Proof.Machine
end

section
/-! PROOFS. The statement about the resets (70_reset_and_hazards.md). -/

namespace Sys2Proof.Proofs
open Sys2Proof.Machine

/-- Settles O57: the listed event is the host's reset, which looks at the two sides and at nothing that is in progress. -/
theorem resetAbandonsEverything : Obligations.ResetAbandonsEverything := by
  unfold Obligations.ResetAbandonsEverything
  intro s later hl
  constructor
  · intro hboth
    exact (step_cons hl hboth).trans (handle_reset_both { s with schedule := later })
  · rintro (hproducer | hconsumer)
    · exact (step_cons hl hproducer).trans (handle_reset_alone { s with schedule := later } (by decide))
    · exact (step_cons hl hconsumer).trans (handle_reset_alone { s with schedule := later } (by decide))

end Sys2Proof.Proofs
end
